-- ==== Sys2Proof/Config.lean ====
section
/-! DEFINITION. The parameters of HUFFCORE (spec 00_scope R8) and the one value the spec leaves free (20_memory R82). -/

namespace Sys2Proof.Config

/-- `SYMW`, bits in one symbol. R8: the value this hardware takes is 16; every rule is written for any value. -/
abbrev symw : Nat := 16

/-- `NSYM`, the number of symbol values, `2^SYMW` (R8). -/
abbrev nsym : Nat := 2 ^ symw

/-- `CNTW`, bits in one frequency-table entry, read as two's complement (R8). -/
abbrev cntw : Nat := 32

/-- `CNTMAX`, the largest legal count and the largest legal weight, `2^(CNTW-1) - 1` (R8). -/
abbrev cntmax : Nat := 2 ^ (cntw - 1) - 1

/-- `MAXNODES`, the capacity of the node memory, `2*NSYM - 1` (R8, R148). -/
abbrev maxnodes : Nat := 2 * nsym - 1

/-- `MAXLEN`, the longest code the code memory can hold. R8: the value this hardware takes is 64. -/
abbrev maxlen : Nat := 64

/-- The constant that the register `ID` reads (R23). -/
abbrev idValue : BitVec 32 := 0x48554631#32

/-- FREE VALUE. R82: a host read of a table register while `STATUS.BUSY = 1` returns "any value, not necessarily the old
one or the new one, and two reads may differ". The n-th such read of a run returns `freeRead n`, of which nothing is
known. (notes/assumptions/2.md) -/
opaque freeRead : Nat → BitVec 32

end Sys2Proof.Config
end

