-- ==== Sys2Proof/Word.lean ====
section
/-! DEFINITION. The word types of HUFFCORE (spec 00_scope R8, R12). -/

namespace Sys2Proof

/-- The content of a host register, `REGW = 32` bits (R8). -/
abbrev Word := BitVec 32

/-- The byte of a token on `BIN` or `BOUT` (R76). -/
abbrev Byte := BitVec 8

/-- A symbol, an unsigned integer of `SYMW` bits (R9). -/
abbrev Symbol := BitVec Config.symw

/-- `NIL`, the "absent" node index as a host reads it (R8). -/
abbrev nilWord : Word := 0xFFFFFFFF#32

/-- `zext_32` of a symbol (R12). -/
abbrev Symbol.zext (c : Symbol) : Word := c.setWidth 32

end Sys2Proof
end

