-- ==== Sys2Proof/Syntax.lean ====
section
/-! DEFINITION. The command set of HUFFCORE: one constructor per row of spec/opcode_table.json (00_scope R2,
30_encoding R101). No command has an operand: every operand is implicit (R104). -/

namespace Sys2Proof

/-- The seven commands (R2, R101). -/
inductive Instr
  /-- `0x00000000`: nothing between acceptance and completion (R224). -/
  | nop
  /-- `0x00000001`: the frequency counter (R130). -/
  | count
  /-- `0x00000002`: the priority-queue tree builder (R140). -/
  | build
  /-- `0x00000003`: the code-table deriver (R165). -/
  | derive
  /-- `0x00000004`: symbols to bits, with the packer (R180). -/
  | encode
  /-- `0x00000005`: bits to symbols, with the unpacker (R200). -/
  | decode
  /-- `0x00000006`: discards the tables and leaves the fault state (R225). -/
  | clear
deriving DecidableEq, Repr

end Sys2Proof
end

