-- ==== Sys2Proof/Script.lean ====
section
/-! DEFINITION. What the outside world says to the block: the registers a host names (spec 20_memory R67), the host's two
operations (R62), the tokens of the four stream ports and their wire form (R71, R76, 30_encoding R111 to R114), the answers
of a sink (R74), and the events of a host script (30_encoding R120, R121). Data only. -/

namespace Sys2Proof

/-- The registers of the address map (R67); `reserved` stands for offset `0x24` and `0x54 .. 0xFC` (R63). -/
inductive Reg
  | id | cmd | status | errcode | errinfo | inten | root | nnodes | ncodes
  | freqIdx | freqData | nodeIdx | nodeW | nodeInfo | nodeL | nodeR
  | codeIdx | codeWsel | codeLen | codeBits | reserved
deriving DecidableEq, Repr

/-- The host's two operations, `MemRead(off, 4)` and `MemWrite(off, 4, v)` (R62). `off` is a byte offset; which offsets the
interface can express is `HostOp.wf`. -/
inductive HostOp
  | read (off : Nat)
  | write (off : Nat) (v : Word)
deriving DecidableEq, Repr

/-- A token on a source port (R71): a data token, `end` or `fail`. -/
inductive SrcTok (α : Type)
  | data (x : α)
  | endTok
  | failTok
deriving DecidableEq, Repr

/-- A token on a sink port (R71): a data token, `end` or `abort`. -/
inductive SinkTok (α : Type)
  | data (x : α)
  | endTok
  | abortTok
deriving DecidableEq, Repr

/-- The data token `byte(d, p)` of `BIN` and `BOUT` (R76): the byte and the number of low-order bits that are padding. -/
structure ByteTok where
  d : Byte
  p : BitVec 3
deriving DecidableEq, Repr

/-- What moves on a port in one cycle with `valid = ready = 1` (R111): the kind and the data signals. -/
structure Beat (w : Nat) where
  kind : BitVec 2
  data : BitVec w
deriving DecidableEq, Repr

/-- A sink's answer to a write (R74; the signal `werr` of R111). -/
inductive Answer
  | ok
  | fail
deriving DecidableEq, Repr

/-- A token a sink has taken, with the answer it gave. -/
structure Taken (α : Type) where
  tok : SinkTok α
  ans : Answer
deriving DecidableEq, Repr

/-- The environment's moves (R70, R235). -/
inductive EnvOp
  /-- The next accepted command that reads `CIN` sees a fresh stream that begins with these beats (R72; `SRC` of R120). -/
  | nextCin (beats : List (Beat Config.symw))
  /-- Further beats of the stream that is open on `CIN` become available (R73). -/
  | moreCin (beats : List (Beat Config.symw))
  /-- The same as `nextCin`, on `BIN`. -/
  | nextBin (beats : List (Beat 11))
  /-- The same as `moreCin`, on `BIN`. -/
  | moreBin (beats : List (Beat 11))
  /-- From now on `BOUT` answers the next writes with `answers`, and those after them with `thereafter` (`none`: it does
  not take them yet) (R74). -/
  | answerBout (answers : List Answer) (thereafter : Option Answer)
  /-- The same as `answerBout`, on `COUT`. -/
  | answerCout (answers : List Answer) (thereafter : Option Answer)
deriving DecidableEq, Repr

/-- One entry of a host script: which agent moves next, and how (R120, R235; notes/assumptions/1.md). -/
inductive Event
  /-- The core takes its next steps, until its command ends or a port makes it wait. -/
  | core
  /-- The core takes one step. -/
  | coreStep
  /-- One host operation. -/
  | host (op : HostOp)
  /-- `WAIT` of R120: the host reads `STATUS` until bit 0 reads 0, the core moving between two reads. -/
  | wait
  /-- `rst` is asserted and released (R290). -/
  | reset
  /-- One move of the environment. -/
  | env (e : EnvOp)
deriving DecidableEq, Repr

/-- One value a host read returned. -/
structure HostRead where
  off : Nat
  value : Word
deriving DecidableEq, Repr

end Sys2Proof
end

