-- ==== Sys2Proof/WellFormed.lean ====
section
/-! DEFINITION. Which terms the interface can express. A command has no operand, so every command is well formed (spec
30_encoding R104); a host operation names a whole aligned word of the register space (20_memory R61, R62, R65); a stream is
data tokens and then at most one terminator, nothing after it (R72). -/

namespace Sys2Proof

/-- R104: "No command word carries an operand", so there is nothing that could be ill formed. -/
def Instr.wf : Instr → Bool
  | .nop => true
  | .count => true
  | .build => true
  | .derive => true
  | .encode => true
  | .decode => true
  | .clear => true

/-- R62: "`off` is a multiple of 4 in `0x00 .. 0xFC`". -/
def offsetWf (off : Nat) : Bool := off % 4 == 0 && off < 0x100

/-- R62: a host operation the interface can express. -/
def HostOp.wf : HostOp → Bool
  | .read off => offsetWf off
  | .write off _ => offsetWf off

/-- Whether the token ends its stream (R72). -/
def SrcTok.isTerminator {α : Type} : SrcTok α → Bool
  | .data _ => false
  | .endTok => true
  | .failTok => true

/-- R72: zero or more data tokens followed by at most one terminator (one that is still being supplied has none yet). -/
def streamWf {α : Type} : List (SrcTok α) → Bool
  | [] => true
  | t :: ts => if t.isTerminator then ts.isEmpty else streamWf ts

end Sys2Proof
end

