-- ==== Sys2Proof/Decode.lean ====
section
/-! DEFINITION. The decoder and the encoder of command words (spec 30_encoding R100 to R103), of the register offsets
(20_memory R67), and of the beats on the stream ports (30_encoding R112 to R114). Total; what is no command is rejected
by name. -/

namespace Sys2Proof

/-- Why a 32-bit word is no command (R103). -/
inductive DecodeError
  /-- A reserved bit of 31:8 is 1. -/
  | reservedBits
  /-- `opcode` is `0x07 .. 0xFF`. -/
  | unknownOpcode
deriving DecidableEq, Repr

/-- The opcode map (R101): the command of an opcode. -/
def decodeOpcode (op : BitVec 8) : Except DecodeError Instr :=
  match op.toNat with
  | 0x00 => .ok .nop
  | 0x01 => .ok .count
  | 0x02 => .ok .build
  | 0x03 => .ok .derive
  | 0x04 => .ok .encode
  | 0x05 => .ok .decode
  | 0x06 => .ok .clear
  | _ => .error .unknownOpcode

/-- The command a word presents (R100, R102): bits 31:8 must be 0, bits 7:0 are the opcode. -/
def decodeWord (w : Word) : Except DecodeError Instr :=
  if w.extractLsb' 8 24 = 0#24 then decodeOpcode (w.extractLsb' 0 8) else .error .reservedBits

/-- Opcode of a command, from the table of R101. -/
def encodeOpcode : Instr → BitVec 8
  | .nop => 0x00#8
  | .count => 0x01#8
  | .build => 0x02#8
  | .derive => 0x03#8
  | .encode => 0x04#8
  | .decode => 0x05#8
  | .clear => 0x06#8

/-- The command word of a command (R100): the opcode in bits 7:0, zeros above. -/
def encode (i : Instr) : Word := 0#24 ++ encodeOpcode i

/-- The host's view of the decoder: `w` holds the bits of a command word, of which the opcode table gives `nbits`; a command
word is 32 bits (R100), so a longer one is no command. Registers move as whole words (R64): no byte order arises. -/
def decodeTableWord (nbits w : Nat) : Option Instr :=
  if nbits ≤ 32 then (decodeWord (BitVec.ofNat 32 (w % 2 ^ nbits))).toOption else none

/-- The register at a byte offset (R67); every other offset is reserved (R63). -/
def regAt (off : Nat) : Reg :=
  match off with
  | 0x00 => .id
  | 0x04 => .cmd
  | 0x08 => .status
  | 0x0C => .errcode
  | 0x10 => .errinfo
  | 0x14 => .inten
  | 0x18 => .root
  | 0x1C => .nnodes
  | 0x20 => .ncodes
  | 0x28 => .freqIdx
  | 0x2C => .freqData
  | 0x30 => .nodeIdx
  | 0x34 => .nodeW
  | 0x38 => .nodeInfo
  | 0x3C => .nodeL
  | 0x40 => .nodeR
  | 0x44 => .codeIdx
  | 0x48 => .codeWsel
  | 0x4C => .codeLen
  | 0x50 => .codeBits
  | _ => .reserved

/-- The token of a beat on a source port (R112): kind 0 is data, 1 is `end`, 2 is `fail`, and 3 "is treated exactly as
`fail`". `payload` reads the data signal. -/
def srcTokOfBeat {α : Type} {w : Nat} (payload : BitVec w → α) (b : Beat w) : SrcTok α :=
  match b.kind.toNat with
  | 0 => .data (payload b.data)
  | 1 => .endTok
  | _ => .failTok

/-- R113: the data signal of `CIN` is the symbol. -/
def cinTok (b : Beat Config.symw) : SrcTok Symbol := srcTokOfBeat id b

/-- R114: the data signal of `BIN` is `d` in 7:0 and `p` in 10:8. -/
def byteTokOfBits (v : BitVec 11) : ByteTok := ⟨v.extractLsb' 0 8, v.extractLsb' 8 3⟩

/-- The token of a beat on `BIN` (R112, R114). -/
def binTok (b : Beat 11) : SrcTok ByteTok := srcTokOfBeat byteTokOfBits b

/-- The beat the core drives for a sink token (R112): kind 0 data, 1 `end`, 2 `abort`; the data signal is 0 unless the kind is
data. -/
def beatOfSinkTok {α : Type} {w : Nat} (bits : α → BitVec w) : SinkTok α → Beat w
  | .data x => ⟨0#2, bits x⟩
  | .endTok => ⟨1#2, 0#w⟩
  | .abortTok => ⟨2#2, 0#w⟩

/-- R114: the data signal of `BOUT`. -/
def bitsOfByteTok (t : ByteTok) : BitVec 11 := t.p ++ t.d

/-- The beat of a `BOUT` token (R112, R114). -/
def boutBeat (t : SinkTok ByteTok) : Beat 11 := beatOfSinkTok bitsOfByteTok t

/-- The beat of a `COUT` token (R112, R113). -/
def coutBeat (t : SinkTok Symbol) : Beat Config.symw := beatOfSinkTok id t

end Sys2Proof
end

