-- ==== Sys2Proof/Machine/State.lean ====
section
/-! DEFINITION. The state of HUFFCORE as plain data (spec 10_state R20 to R50), the reasons a step can stop, and the reset
state (R50). INVENTORY.md lists every field with its rule. -/

namespace Sys2Proof.Machine

/-- The five flags of `STATUS` (R22, R25). Bits 31:5 are reserved and hold nothing. -/
structure Status where
  busy : Bool
  done : Bool
  err : Bool
  rej : Bool
  trunc : Bool
deriving DecidableEq, Repr

/-- The registers that only hold what was written to them: the fault record (R26, R27), `INTEN` (R28) and the index
registers (R32, R34, R36). Reserved bits are not held: they read 0. -/
structure Regs where
  errcode : BitVec 8
  errinfo : Word
  inten : BitVec 2
  freqIdx : Symbol
  nodeIdx : Word
  codeIdx : Symbol
  codeWsel : Word
deriving DecidableEq, Repr

/-- A memory whose items are reached by index, held as (index, item) pairs in one canonical form (`Memory.wf`): indexes
strictly rising, no item equal to what an unlisted index reads as, which is the item's reset value (R50). -/
abbrev Memory (α : Type) := List (Nat × α)

/-- A record of `NODE` (R39). `none` is `NIL` (notes/assumptions/5.md). -/
structure Node where
  w : Nat
  leaf : Bool
  sym : Symbol
  left : Option Nat
  right : Option Nat
deriving DecidableEq, Repr

/-- An entry of `CODE` (R41): `len = 0` means the symbol has no code; path bit `i` is `bits[i]`. -/
structure CodeEntry where
  len : Nat
  bits : BitVec Config.maxlen
deriving DecidableEq, Repr

/-- The three memories with `ROOT`, `NNODES`, `NCODES` (R29 to R31, R38, R39, R41). `NODE[i]` is the item of `node` at
position `i`; records at indexes `>= NNODES` are not held (R39). -/
structure Tables where
  freq : Memory Word
  node : List Node
  root : Option Nat
  nnodes : Nat
  code : Memory CodeEntry
  ncodes : Nat
deriving DecidableEq, Repr

/-- The causes of a fault the block records (R250). -/
inductive FaultCode
  | illegalCmd | invalidInput | noCode | walkOff | stream | countOvf | codeLen
deriving DecidableEq, Repr

/-- Where the running command stands in its pseudocode, with the variables R47 calls local to one run: a command that waits
on a port resumes here (notes/assumptions/4.md). Not architectural state. -/
inductive Phase
  /-- Accepted; the first line of the pseudocode is next. -/
  | start
  /-- COUNT's loop, with `total` (R130). -/
  | count (total : Nat)
  /-- ENCODE's loop: these bits of the present symbol's code are still to be put; then the next token (R180). -/
  | encode (bits : List Bool)
  /-- ENCODE has read `end`: the flush, then `end` on `BOUT` (R180). -/
  | encodeEnd
  /-- DECODE's loop: the next bit (R200). -/
  | decode
  /-- DECODE's cursor has landed on a leaf: its symbol goes to `COUT` (R200). -/
  | decodeEmit
  /-- DECODE has no more bits: `end` goes to `COUT`, then `TRUNC` is written with this value (R200, R208). -/
  | decodeEnd (trunc : Bool)
  /-- A fault is being raised and `abort` is still to be taken by the command's sink (R256 step 1). -/
  | abort (code : FaultCode) (info : Word)
  /-- COUNT or ENCODE has no token left to read or write: its completion is next (R222, R235 (c)). -/
  | finish
  /-- DECODE has no token left to read or write: its completion is next, with this value of `TRUNC` (R208, R222, R235 (c)). -/
  | decodeFinish (trunc : Bool)
  /-- A fault is being raised and no token is left to write: steps 2 to 5 of R256 are next (R235 (c)). -/
  | record (code : FaultCode) (info : Word)
deriving DecidableEq, Repr

/-- The working registers (R43 to R46). -/
structure Work where
  op : BitVec 8
  pq : List Nat
  bitbuf : BitVec 8
  bitcnt : Nat
  cur : Option Nat
  phase : Phase
deriving DecidableEq, Repr

/-- A source port as the environment presents it (R70 to R73): whether a stream instance is open, its tokens that are
available and not yet read, and the instances prepared for later commands. Input, not block state (R48). -/
structure SourcePort (α : Type) where
  isOpen : Bool
  avail : List (SrcTok α)
  upcoming : List (List (SrcTok α))
deriving DecidableEq, Repr

/-- A sink port as the environment presents it (R70, R74): its answers to the next writes, its answer to those after them
(`none`: not ready), and what it has taken, one list per stream instance, the latest instance first. -/
structure SinkPort (α : Type) where
  answers : List Answer
  thereafter : Option Answer
  got : List (List (Taken α))
deriving DecidableEq, Repr

/-- The environment behind the four stream ports (R70). -/
structure Env where
  cin : SourcePort Symbol
  bin : SourcePort ByteTok
  bout : SinkPort ByteTok
  cout : SinkPort Symbol
deriving DecidableEq, Repr

/-- The whole machine: the block (`status`, `regs`, `tab`, `work`), its environment, the host's script (head first), what the
host has read (latest first), and the counter of free draws (R82). -/
structure State where
  status : Status
  regs : Regs
  tab : Tables
  work : Work
  env : Env
  script : List Event
  reads : List HostRead
  draws : Nat
deriving DecidableEq, Repr

/-- Why the machine stops. -/
inductive Fault
  /-- Raised by `step` when `BUSY = 1` and `OP` holds no opcode of R101. Acceptance writes only legal opcodes to `OP` (R220
  step 3), so no run reaches such a state and the spec gives it no effect. Safe: the model stops. -/
  | corruptOp (op : BitVec 8)
deriving DecidableEq, Repr

/-- Why the model has no answer. -/
inductive Refusal
  /-- Raised by `exec` for a command without a meaning. No arm answers so: every command of the table has its meaning. -/
  | notModelled (mnemonic : String)
  /-- Raised by `step` for a host operation that R62's interface cannot express: an offset that is not a multiple of 4 in
  `0x00 .. 0xFC`. The spec's own treatment is `refuse` (93_implementation_defined item 18). Safe: the model stops. -/
  | inexpressibleAccess (off : Nat)
deriving DecidableEq, Repr

/-- No flag set (R25). -/
def Status.reset : Status := ⟨false, false, false, false, false⟩

/-- R50. -/
def Regs.reset : Regs := ⟨0#8, 0#32, 0#2, 0, 0#32, 0, 0#32⟩

/-- R50: empty frequency table, absent tree, empty code table. -/
def Tables.reset : Tables := ⟨[], [], none, 0, [], 0⟩

/-- R50. -/
def Work.reset : Work := ⟨0#8, [], 0#8, 0, none, .start⟩

/-- The environment before it has done anything: no stream, and sinks that take every token and answer `ok`, as in R120
(DESIGN CHOICE, notes/assumptions/3.md: the streams are inputs, the spec gives them no reset). -/
def Env.reset : Env :=
  ⟨⟨false, [], []⟩, ⟨false, [], []⟩, ⟨[], some .ok, []⟩, ⟨[], some .ok, []⟩⟩

/-- The machine right after reset (R50, R290): every piece of block state at the value of R50's table. The script, the host's
reads and the counter of draws are the model's own and start empty (notes/assumptions/1.md, 2.md). -/
def State.reset : State :=
  ⟨Status.reset, Regs.reset, Tables.reset, Work.reset, Env.reset, [], [], 0⟩

end Sys2Proof.Machine
end

