-- ==== Sys2Proof/Machine/Flags.lean ====
section
/-! DEFINITION. The flags of `STATUS` and every way they change (spec 10_state R22, R25; 45_control R220 to R222, R230;
60_exceptions R256, R270). There are no arithmetic condition codes (R22). -/

namespace Sys2Proof.Machine

/-- `STATUS` as the host reads it (R25): `BUSY` 0, `DONE` 1, `ERR` 2, `REJ` 3, `TRUNC` 4, bits 31:5 zero. -/
def Status.toWord (f : Status) : Word :=
  BitVec.ofNat 32 (f.busy.toNat + 2 * f.done.toNat + 4 * f.err.toNat + 8 * f.rej.toNat + 16 * f.trunc.toNat)

/-- Acceptance (R220 step 3). -/
def Status.accepted (f : Status) : Status := { f with busy := true, done := false, trunc := false }

/-- Rejection (R221, R228). -/
def Status.rejected (f : Status) : Status := { f with rej := true }

/-- Completion (R222). -/
def Status.completed (f : Status) : Status := { f with busy := false, done := true }

/-- A fault (R256 step 4). `TRUNC` is not written by a fault. -/
def Status.faulted (f : Status) : Status := { f with err := true, busy := false, done := false }

/-- CLEAR's `ERR <- 0` (R225). -/
def Status.errCleared (f : Status) : Status := { f with err := false }

/-- DECODE's `TRUNC` (R208). -/
def Status.withTrunc (f : Status) (t : Bool) : Status := { f with trunc := t }

/-- A host write of `v` to `STATUS` (R25, R230): writing 1 to bit 1 clears `DONE`, to bit 3 clears `REJ`. -/
def Status.hostWritten (f : Status) (v : Word) : Status :=
  { f with done := f.done && !v.getLsbD 1, rej := f.rej && !v.getLsbD 3 }

/-- The interrupt output (R270): `IE_DONE` is bit 0 and `IE_ERR` bit 1 of `INTEN` (R28). -/
def irqOf (f : Status) (inten : BitVec 2) : Bool :=
  (f.done && inten.getLsbD 0) || (f.err && inten.getLsbD 1)

/-- The interrupt output of the machine (R270). -/
def State.irq (s : State) : Bool := irqOf s.status s.regs.inten

/-- The codes of `ERRCODE` (R250). -/
def FaultCode.code : FaultCode → BitVec 8
  | .illegalCmd => 1#8
  | .invalidInput => 2#8
  | .noCode => 3#8
  | .walkOff => 4#8
  | .stream => 5#8
  | .countOvf => 6#8
  | .codeLen => 7#8

end Sys2Proof.Machine
end

