-- ==== Sys2Proof/Machine/Ops.lean ====
section
/-! DEFINITION. The shared operations: the memories (spec 10_state R38 to R41), the stream ports (20_memory R70 to R75), the
life of a command (45_control R220 to R222), recording a fault (60_exceptions R256) and reset (70 R290, R291), and the core's
run of one-token steps (45_control R235). -/

namespace Sys2Proof.Machine

/-! ### Memories -/

/-- The item at an index; an unlisted index reads as `d`. -/
def Memory.read {α : Type} (d : α) : Memory α → Nat → α
  | [], _ => d
  | (k, v) :: m, a => if k = a then v else Memory.read d m a

/-- Writes an item, keeping the canonical form: writing `d` removes the entry. -/
def Memory.write {α : Type} [DecidableEq α] (d : α) : Memory α → Nat → α → Memory α
  | [], a, v => if v = d then [] else [(a, v)]
  | (k, w) :: m, a, v =>
    if a < k then (if v = d then (k, w) :: m else (a, v) :: (k, w) :: m)
    else if a = k then (if v = d then m else (a, v) :: m)
    else (k, w) :: Memory.write d m a v

/-- The canonical form of a memory of `n` items whose unlisted items are `d`: indexes strictly rising and below `n`, no item
equal to `d`. -/
abbrev Memory.wf {α : Type} (n : Nat) (d : α) (m : Memory α) : Prop :=
  m.Pairwise (fun x y => x.1 < y.1) ∧ ∀ e ∈ m, e.1 < n ∧ e.2 ≠ d

/-- The entry of a symbol without a code (R41). -/
def CodeEntry.empty : CodeEntry := ⟨0, 0⟩

/-- The record a window shows where there is no node (R35): all zero. -/
def Node.zero : Node := ⟨0, false, 0, some 0, some 0⟩

/-- `NODE[i]`. -/
def nodeAt (node : List Node) (i : Nat) : Node := node.getD i Node.zero

/-- `FREQ[s]` (R38). -/
def Tables.freqAt (t : Tables) (c : Symbol) : Word := Memory.read 0#32 t.freq c.toNat

/-- `FREQ[s] <- v` (R38): one entry, all 32 bits. -/
def Tables.setFreq (t : Tables) (c : Symbol) (v : Word) : Tables :=
  { t with freq := Memory.write 0#32 t.freq c.toNat v }

/-- `CODE[s]` (R41). -/
def Tables.codeAt (t : Tables) (c : Symbol) : CodeEntry := Memory.read CodeEntry.empty t.code c.toNat

/-- For every `s`, `FREQ[s] <- 0` (R130, R225). -/
def Tables.emptyFreq (t : Tables) : Tables := { t with freq := [] }

/-- For every `s`, `CODE[s].len <- 0`, `CODE[s].bits <- 0`; `NCODES <- 0` (R140, R165, R225). -/
def Tables.emptyCode (t : Tables) : Tables := { t with code := [], ncodes := 0 }

/-- `NNODES <- 0; ROOT <- NIL` (R225): no record is held any more. -/
def Tables.dropTree (t : Tables) : Tables := { t with node := [], root := none, nnodes := 0 }

/-- The code of an entry as a bit string in stream order (R41, R106): `bits[0], ..., bits[len-1]`. -/
def CodeEntry.path (e : CodeEntry) : List Bool := (List.range e.len).map e.bits.getLsbD

/-- The number whose binary digits, least significant first, are the bit string. -/
def bitsValue : List Bool → Nat
  | [] => 0
  | b :: p => b.toNat + 2 * bitsValue p

/-- The entry that holds a path (R165): `len = |p|`, `bits[i] = p[i]`, `bits[i] = 0` above. -/
def CodeEntry.ofPath (p : List Bool) : CodeEntry := ⟨p.length, BitVec.ofNat Config.maxlen (bitsValue p)⟩

/-! ### Stream ports -/

/-- Acceptance of a command that reads the port opens a fresh instance (R72): the one prepared first, or one of which
nothing is available yet. -/
def SourcePort.opened {α : Type} (p : SourcePort α) : SourcePort α :=
  ⟨true, p.upcoming.headD [], p.upcoming.tail⟩

/-- The end of a command closes the instance (R72): tokens it did not read are not seen by any later command. -/
def SourcePort.closed {α : Type} (p : SourcePort α) : SourcePort α := ⟨false, [], p.upcoming⟩

/-- `SrcRead` (R73): the next unread token and the port after it, or nothing while none is available. -/
def SourcePort.read {α : Type} (p : SourcePort α) : Option (SrcTok α × SourcePort α) :=
  match p.avail with
  | [] => none
  | t :: ts => some (t, { p with avail := ts })

/-- The environment prepares the stream of a later command (R72). -/
def SourcePort.prepare {α : Type} (p : SourcePort α) (ts : List (SrcTok α)) : SourcePort α :=
  { p with upcoming := p.upcoming ++ [ts] }

/-- The environment makes further tokens of the open instance available (R73); with no instance open there is nothing they
could belong to. -/
def SourcePort.supply {α : Type} (p : SourcePort α) (ts : List (SrcTok α)) : SourcePort α :=
  if p.isOpen then { p with avail := p.avail ++ ts } else p

/-- Acceptance of a command that writes the port opens a fresh instance (R72). -/
def SinkPort.opened {α : Type} (p : SinkPort α) : SinkPort α := { p with got := [] :: p.got }

/-- A sink's record of a token it has taken: at the end of the latest instance. -/
def recordTaken {α : Type} (x : Taken α) : List (List (Taken α)) → List (List (Taken α))
  | [] => [[x]]
  | cur :: older => (cur ++ [x]) :: older

/-- `SinkWrite` (R74): the sink's answer and the port after it, or nothing while the sink is not ready. -/
def SinkPort.write {α : Type} (p : SinkPort α) (t : SinkTok α) : Option (Answer × SinkPort α) :=
  match p.answers with
  | a :: as => some (a, { p with answers := as, got := recordTaken ⟨t, a⟩ p.got })
  | [] =>
    match p.thereafter with
    | some a => some (a, { p with got := recordTaken ⟨t, a⟩ p.got })
    | none => none

/-- The environment settles how the sink will answer (R74). -/
def SinkPort.answer {α : Type} (p : SinkPort α) (as : List Answer) (thereafter : Option Answer) : SinkPort α :=
  { p with answers := as, thereafter := thereafter }

/-- Which command uses which port (R72). -/
def Env.opened (e : Env) : Instr → Env
  | .nop => e
  | .count => { e with cin := e.cin.opened }
  | .build => e
  | .derive => e
  | .encode => { e with cin := e.cin.opened, bout := e.bout.opened }
  | .decode => { e with bin := e.bin.opened, cout := e.cout.opened }
  | .clear => e

/-- A command's end closes its source instances (R72, R256 step 5); a port that was not open has nothing to close. -/
def Env.closed (e : Env) : Env := { e with cin := e.cin.closed, bin := e.bin.closed }

/-- `SrcRead(CIN)`. -/
def State.readCin (s : State) : Option (SrcTok Symbol × State) :=
  s.env.cin.read.map fun r => (r.1, { s with env := { s.env with cin := r.2 } })

/-- `SrcRead(BIN)`. -/
def State.readBin (s : State) : Option (SrcTok ByteTok × State) :=
  s.env.bin.read.map fun r => (r.1, { s with env := { s.env with bin := r.2 } })

/-- `SinkWrite(BOUT, t)`. -/
def State.writeBout (s : State) (t : SinkTok ByteTok) : Option (Answer × State) :=
  (s.env.bout.write t).map fun r => (r.1, { s with env := { s.env with bout := r.2 } })

/-- `SinkWrite(COUT, t)`. -/
def State.writeCout (s : State) (t : SinkTok Symbol) : Option (Answer × State) :=
  (s.env.cout.write t).map fun r => (r.1, { s with env := { s.env with cout := r.2 } })

/-- `portid` (30_encoding R115): the identifiers of the four ports in `ERRINFO`. -/
def portidCin : Word := 0#32
def portidBin : Word := 1#32
def portidBout : Word := 2#32
def portidCout : Word := 3#32

/-! ### The life of a command -/

/-- `BITBUF <- 0; BITCNT <- 0; CUR <- NIL; PQ <- empty` (R220, R222, R256), and no place in a pseudocode. -/
def Work.idle (w : Work) : Work := { w with pq := [], bitbuf := 0#8, bitcnt := 0, cur := none, phase := .start }

/-- Acceptance (R220 step 3) of the command `i` presented by the word `w`. -/
def State.accept (s : State) (w : Word) (i : Instr) : State :=
  { s with
    status := s.status.accepted
    work := { s.work.idle with op := w.extractLsb' 0 8 }
    env := s.env.opened i }

/-- Rejection (R221, R228): nothing changes but `REJ`. -/
def State.reject (s : State) : State := { s with status := s.status.rejected }

/-- Completion (R222). -/
def State.complete (s : State) : State :=
  { s with status := s.status.completed, work := s.work.idle, env := s.env.closed }

/-- TAKING A FAULT, steps 2 to 5 of `raise Fault(code, info)` (R256): the working registers are cleared, the fault is recorded,
`ERR` set, `BUSY` and `DONE` cleared, the stream instances closed. Nothing is saved and control goes nowhere. -/
def State.takeFault (s : State) (code : FaultCode) (info : Word) : State :=
  { s with
    status := s.status.faulted
    regs := { s.regs with errcode := code.code, errinfo := info }
    work := s.work.idle
    env := s.env.closed }

/-- Leaving the fault state, CLEAR's `ERR <- 0; ERRCODE <- 0; ERRINFO <- 0` (R225, R272). -/
def State.leaveFault (s : State) : State :=
  { s with status := s.status.errCleared, regs := { s.regs with errcode := 0#8, errinfo := 0#32 } }

/-- Reset (R290, R291): all block state goes to its reset value, a running command is abandoned where it stands, no terminator
is written. The endpoints behind the ports, the host and its script are outside the block. -/
def State.hardReset (s : State) : State :=
  { State.reset with env := s.env.closed, script := s.script, reads := s.reads, draws := s.draws }

/-! ### The core's steps (R235) -/

/-- What one step of the core leads to. -/
inductive Micro
  /-- The command goes on from here. -/
  | more (s : State)
  /-- The environment holds the command: no token is available, or the sink is not ready. Nothing changes (R73). -/
  | hold
  /-- The command has ended, by completion or by a fault. -/
  | done (s : State)
deriving DecidableEq, Repr

/-- The state a step of the core leaves, from `s`. -/
def Micro.after (m : Micro) (s : State) : State :=
  match m with
  | .more s' => s'
  | .hold => s
  | .done s' => s'

/-- The core takes steps until the command ends, or waits on a port, or `n` steps are taken. -/
def runMicro (f : State → Micro) : Nat → State → State
  | 0, s => s
  | n + 1, s =>
    match f s with
    | .more s' => runMicro f n s'
    | .hold => s
    | .done s' => s'

/-- Moves to another place of the pseudocode. -/
def State.goto (s : State) (p : Phase) : State := { s with work := { s.work with phase := p } }

/-- `raise Fault(code, info)` (R256) in a command whose sink, if it has one, has not answered `fail`: `owesAbort` says whether
there is such a sink, to which `abort` is written first (step 1). Steps 2 to 5 are the end of the command, a step of its own (R235 (c)). -/
def State.raise (s : State) (owesAbort : Bool) (code : FaultCode) (info : Word) : Micro :=
  .more (s.goto (if owesAbort then .abort code info else .record code info))

/-- The `abort` write of R256 step 1 has led to `r`: the sink is not ready, or it took the token and its answer is ignored. -/
def abortTaken (r : Option (Answer × State)) (code : FaultCode) (info : Word) : Micro :=
  match r with
  | none => .hold
  | some (_, s) => .more (s.goto (.record code info))

/-- `SinkWrite(P, t)` used without its result (R14): the sink is not ready; or it answered `fail` and `Fault(STREAM, portid(P))` is
raised, nothing more being written to `P` (R74); or the command goes on as `k` says. -/
def sinkWritten (r : Option (Answer × State)) (portid : Word) (k : State → Micro) : Micro :=
  match r with
  | none => .hold
  | some (.fail, s) => s.raise false .stream portid
  | some (.ok, s) => k s

end Sys2Proof.Machine
end

