-- ==== Sys2Proof/Machine/Operands.lean ====
section
/-! DEFINITION. The implicit operands: what a register read returns (spec 10_state R23 to R37, 20_memory R63, R82) and what the
windows select (45_control R226). No command word carries an operand (30_encoding R104). -/

namespace Sys2Proof.Machine

/-- A node reference as a host reads it (R29, R35): `NIL` is `0xFFFFFFFF`. -/
def nodeRef : Option Nat → Word
  | none => nilWord
  | some i => BitVec.ofNat 32 i

/-- The node the `NODE_*` windows show (R35): `NODE[NODE_IDX]`, or nothing when `NODE_IDX >= NNODES`. -/
def State.windowNode (s : State) : Option Node :=
  if s.tab.nnodes ≤ s.regs.nodeIdx.toNat then none else some (nodeAt s.tab.node s.regs.nodeIdx.toNat)

/-- `NODE_INFO` of a node (R35): bit 31 is `leaf`, bits `SYMW-1:0` the symbol of a leaf and 0 of an internal node. -/
def nodeInfo (n : Node) : Word := if n.leaf then 0x80000000#32 ||| n.sym.zext else 0#32

/-- Word `j` of an entry's `bits` (R37): 0 when `32 * j >= MAXLEN`; positions `>= MAXLEN` count as 0. -/
def CodeEntry.word (e : CodeEntry) (j : Nat) : Word :=
  if 32 * j < Config.maxlen then (e.bits >>> (32 * j)).setWidth 32 else 0#32

/-- The value a register has by its rule (R23 to R37); reserved offsets read 0 (R63). -/
def readReg (r : Reg) (s : State) : Word :=
  match r with
  | .id => Config.idValue
  | .cmd => 0#32
  | .status => s.status.toWord
  | .errcode => s.regs.errcode.setWidth 32
  | .errinfo => s.regs.errinfo
  | .inten => s.regs.inten.setWidth 32
  | .root => nodeRef s.tab.root
  | .nnodes => BitVec.ofNat 32 s.tab.nnodes
  | .ncodes => BitVec.ofNat 32 s.tab.ncodes
  | .freqIdx => s.regs.freqIdx.zext
  | .freqData => s.tab.freqAt s.regs.freqIdx
  | .nodeIdx => s.regs.nodeIdx
  | .nodeW => (s.windowNode.map fun n => BitVec.ofNat 32 n.w).getD 0#32
  | .nodeInfo => (s.windowNode.map nodeInfo).getD 0#32
  | .nodeL => (s.windowNode.map fun n => nodeRef n.left).getD 0#32
  | .nodeR => (s.windowNode.map fun n => nodeRef n.right).getD 0#32
  | .codeIdx => s.regs.codeIdx.zext
  | .codeWsel => s.regs.codeWsel
  | .codeLen => BitVec.ofNat 32 (s.tab.codeAt s.regs.codeIdx).len
  | .codeBits => (s.tab.codeAt s.regs.codeIdx).word s.regs.codeWsel.toNat
  | .reserved => 0#32

/-- The registers whose value is unspecified while `STATUS.BUSY = 1` (R82). -/
def freeWhileBusy : Reg → Bool
  | .root => true
  | .nnodes => true
  | .ncodes => true
  | .freqData => true
  | .nodeW => true
  | .nodeInfo => true
  | .nodeL => true
  | .nodeR => true
  | .codeLen => true
  | .codeBits => true
  | .id => false
  | .cmd => false
  | .status => false
  | .errcode => false
  | .errinfo => false
  | .inten => false
  | .freqIdx => false
  | .nodeIdx => false
  | .codeIdx => false
  | .codeWsel => false
  | .reserved => false

end Sys2Proof.Machine
end

