-- ==== Sys2Proof/Machine/Build.lean ====
section
/-! DEFINITION. BUILD, the priority-queue tree builder (spec 41_build R140 to R157). -/

namespace Sys2Proof.Machine

/-- The lowest symbol with a negative entry, bit 31 set (R142): the scan is in ascending symbol order, which is the order of
the memory's canonical form. -/
def negativeEntry (freq : Memory Word) : Option Nat := (freq.find? fun e => e.2.msb).map (·.1)

/-- The exact sum of all entries (R142). -/
def freqSum (freq : Memory Word) : Nat := (freq.map fun e => e.2.toNat).sum

/-- The node memory being filled and the queue (R140): `n` of the pseudocode is `node.length`. -/
structure Arena where
  node : List Node
  pq : List Nat
deriving DecidableEq, Repr

/-- `NODE[n] <- nd; PQ.insert(n); n <- n + 1` (R140). -/
def Arena.add (a : Arena) (nd : Node) : Arena := ⟨a.node ++ [nd], a.pq ++ [a.node.length]⟩

/-- The queue order (R15, R147): weight first, then index. -/
def queueBefore (node : List Node) (i j : Nat) : Bool :=
  (nodeAt node i).w < (nodeAt node j).w || ((nodeAt node i).w == (nodeAt node j).w && i < j)

/-- The element of a queue that comes first in the queue order (R15). -/
def queueMin (node : List Node) : List Nat → Option Nat
  | [] => none
  | i :: is =>
    match queueMin node is with
    | none => some i
    | some j => if queueBefore node i j then some i else some j

/-- `PQ.removeMin()` (R15). -/
def Arena.removeMin (a : Arena) : Option (Nat × Arena) :=
  (queueMin a.node a.pq).map fun i => (i, { a with pq := a.pq.erase i })

/-- The leaf of a key (R140, R143). -/
def leafNode (sym : Nat) (n : Word) : Node := ⟨n.toNat, true, BitVec.ofNat Config.symw sym, none, none⟩

/-- The internal node over the node removed first, on the left, and the node removed second, on the right (R145). -/
def innerNode (node : List Node) (a b : Nat) : Node :=
  ⟨(nodeAt node a).w + (nodeAt node b).w, false, 0, some a, some b⟩

/-- The synthetic root above the only leaf, node 0 (R150). -/
def syntheticRoot (node : List Node) : Node := ⟨(nodeAt node 0).w, false, 0, none, some 0⟩

/-- `FREQ[s] > 0`, the entry read as a two's-complement number (R38, R143): the symbol is a key of the table. -/
def isKeyEntry (n : Word) : Bool := decide (0 < n.toInt)

/-- One leaf for every symbol with `FREQ[s] > 0`, in ascending symbol order, each inserted as it is made (R143). -/
def addLeaves : Memory Word → Arena → Arena
  | [], a => a
  | (sym, n) :: m, a => addLeaves m (if isKeyEntry n then a.add (leafNode sym n) else a)

/-- One pass of the combine loop (R144): two removals, one insertion. -/
def combineStep (a : Arena) : Arena :=
  match a.removeMin with
  | none => a
  | some (x, a1) =>
    match a1.removeMin with
    | none => a
    | some (y, a2) => a2.add (innerNode a2.node x y)

/-- The combine loop (R144): while `|PQ| > 1`. Each pass lowers `|PQ|` by one, so `|PQ|` passes are enough. -/
def combineLoop : Nat → Arena → Arena
  | 0, a => a
  | n + 1, a => if 1 < a.pq.length then combineLoop n (combineStep a) else a

/-- Step 4 of R140: the cases of no leaf (R149), one leaf (R150), and two or more (R144). Returns the nodes, `ROOT` and the
queue as it is left. -/
def finishTree (a : Arena) : List Node × Option Nat × List Nat :=
  match a.node.length with
  | 0 => (a.node, none, a.pq)
  | 1 => (a.node ++ [syntheticRoot a.node], some 1, a.pq)
  | k + 2 =>
    let b := combineLoop (k + 2) a
    match b.removeMin with
    | none => (b.node, none, b.pq)
    | some (r, c) => (c.node, some r, c.pq)

/-- Steps 3 and 4 of R140: from the frequencies to the nodes, `ROOT` and the queue as it is left. -/
def buildTree (freq : Memory Word) : List Node × Option Nat × List Nat := finishTree (addLeaves freq ⟨[], []⟩)

/-- Steps 2 to 4 of R140 on the tables: the code table is emptied (R146), the tree replaced. -/
def Tables.withTree (t : Tables) : Tables :=
  let r := buildTree t.freq
  { t.emptyCode with node := r.1, root := r.2.1, nnodes := r.1.length }

/-- BUILD after its validation has passed (R140 steps 2 to 4). The queue is made empty at the start of step 3 and dropped at
completion (R43). -/
def State.build (s : State) : State :=
  { s with tab := s.tab.withTree, work := { s.work with pq := (buildTree s.tab.freq).2.2 } }.complete

/-- BUILD (R140). Validation comes before every write (R142, R154): the lowest negative entry, then the exact sum. -/
def execBuild (s : State) : Host.Outcome State Fault Refusal :=
  match negativeEntry s.tab.freq with
  | some sym => .next (s.takeFault .invalidInput (BitVec.ofNat 32 sym))
  | none =>
    if Config.cntmax < freqSum s.tab.freq then .next (s.takeFault .invalidInput 0xFFFFFFFF#32)
    else .next s.build

end Sys2Proof.Machine
end

