-- ==== Sys2Proof/Machine/Control.lean ====
section
/-! DEFINITION. The two commands of the spec's own: NOP and CLEAR (spec 45_control R224, R225). -/

namespace Sys2Proof.Machine

/-- NOP (R224): nothing between acceptance and completion. -/
def execNop (s : State) : Host.Outcome State Fault Refusal := .next s.complete

/-- CLEAR (R225): every table emptied, the fault record cleared, then completion. `REJ`, `INTEN` and the index registers are
not touched. -/
def execClear (s : State) : Host.Outcome State Fault Refusal :=
  .next ({ s with tab := s.tab.emptyFreq.dropTree.emptyCode }.leaveFault.complete)

end Sys2Proof.Machine
end

