-- ==== Sys2Proof/Machine/Count.lean ====
section
/-! DEFINITION. COUNT, the frequency counter (spec 40_count R130 to R137). -/

namespace Sys2Proof.Machine

/-- One increment of COUNT's loop (R130): `FREQ[c] <- FREQ[c] + 1`. -/
def Tables.countSymbol (t : Tables) (c : Symbol) : Tables := t.setFreq c (t.freqAt c + 1#32)

/-- COUNT on a token it has read, `total` symbols having been counted (R130). The overflow test comes after the token is read
(R255). -/
def countToken (total : Nat) : SrcTok Symbol → State → Micro
  | .endTok, s => .more (s.goto .finish)
  | .failTok, s => s.raise false .stream portidCin
  | .data c, s =>
    if total = Config.cntmax then s.raise false .countOvf c.zext
    else .more ({ s with tab := s.tab.countSymbol c }.goto (.count (total + 1)))

/-- COUNT's loop: the next token of `CIN` (R130). -/
def countLoop (total : Nat) (s : State) : Micro :=
  match s.readCin with
  | none => .hold
  | some (t, s') => countToken total t s'

/-- One step of COUNT (R130). At its start the table is emptied, before the first token is read (R131). -/
def countStep (s : State) : Micro :=
  match s.work.phase with
  | .count total => countLoop total s
  | .finish => .done s.complete
  | .record code info => .done (s.takeFault code info)
  | _ => .more ({ s with tab := s.tab.emptyFreq }.goto (.count 0))

/-- Steps that COUNT can take on the tokens that are available: its start, one a token, and its end. -/
def countFuel (s : State) : Nat := s.env.cin.avail.length + 2

/-- COUNT (R130): runs until it ends or `CIN` makes it wait. -/
def execCount (s : State) : Host.Outcome State Fault Refusal := .next (runMicro countStep (countFuel s) s)

end Sys2Proof.Machine
end

