-- ==== Sys2Proof/Machine/Decoder.lean ====
section
/-! DEFINITION. DECODE, the tree navigator with the bit-stream unpacker (spec 44_decode R200 to R213). -/

namespace Sys2Proof.Machine

/-- `BITBUF <- d; BITCNT <- 8 - p` (R204). -/
def State.loadByte (s : State) (t : ByteTok) : State :=
  { s with work := { s.work with bitbuf := t.d, bitcnt := 8 - t.p.toNat } }

/-- `BITBUF <- {BITBUF[6:0], 0}; BITCNT <- BITCNT - 1` (R204). The bit taken is `BITBUF[7]`. -/
def State.shiftBit (s : State) : State :=
  { s with work := { s.work with bitbuf := s.work.bitbuf <<< 1, bitcnt := s.work.bitcnt - 1 } }

/-- `CUR <- i`. -/
def State.setCur (s : State) (i : Option Nat) : State := { s with work := { s.work with cur := i } }

/-- The child a bit selects (R206): left for 0, right for 1. -/
def childOf (n : Node) (b : Bool) : Option Nat := if b then n.right else n.left

/-- `NODE[CUR]`. -/
def State.curNode (s : State) : Node := (s.work.cur.map (nodeAt s.tab.node)).getD Node.zero

/-- DECODE on a bit it has taken (R200, R206): the child test comes before the cursor moves (R255); on a leaf, its symbol is
to be written. -/
def walkBit (b : Bool) (s : State) : Micro :=
  match childOf s.curNode b with
  | none => s.raise true .walkOff (nodeRef s.work.cur)
  | some i =>
    let s' := s.setCur (some i)
    if (nodeAt s.tab.node i).leaf then .more (s'.goto .decodeEmit) else .more s'

/-- DECODE on a token it has read (R200, R204, R208). -/
def decodeToken : SrcTok ByteTok → State → Micro
  | .endTok, s => .more (s.goto (.decodeEnd (s.work.cur != s.tab.root)))
  | .failTok, s => s.raise true .stream portidBin
  | .data t, s => .more (s.loadByte t)

/-- DECODE's loop (R200, R204): a token is read only when a bit is asked for and the buffer is empty. -/
def decodeLoop (s : State) : Micro :=
  if s.work.bitcnt = 0 then
    match s.readBin with
    | none => .hold
    | some (t, s') => decodeToken t s'
  else walkBit (s.work.bitbuf.getLsbD 7) s.shiftBit

/-- `SinkWrite(COUT, sym(NODE[CUR].sym)); CUR <- ROOT` (R200). -/
def decodeWrite (s : State) : Micro :=
  sinkWritten (s.writeCout (.data s.curNode.sym)) portidCout fun s' => .more ((s'.setCur s'.tab.root).goto .decode)

/-- The last write of DECODE (R200): `SinkWrite(COUT, end)`; completion, with `TRUNC`, is next. -/
def decodeWriteEnd (trunc : Bool) (s : State) : Micro :=
  sinkWritten (s.writeCout .endTok) portidCout fun s' => .more (s'.goto (.decodeFinish trunc))

/-- The start of DECODE (R200): with an absent tree `BIN` is not read at all (R202). -/
def decodeStart (s : State) : Micro :=
  match s.tab.root with
  | none => .more (s.goto (.decodeEnd false))
  | some r => .more ((s.setCur (some r)).goto .decode)

/-- One step of DECODE (R200). -/
def decodeStep (s : State) : Micro :=
  match s.work.phase with
  | .decode => decodeLoop s
  | .decodeEmit => decodeWrite s
  | .decodeEnd trunc => decodeWriteEnd trunc s
  | .abort code info => abortTaken (s.writeCout .abortTok) code info
  | .decodeFinish trunc => .done ({ s with status := s.status.withTrunc trunc }.complete)
  | .record code info => .done (s.takeFault code info)
  | _ => decodeStart s

/-- Steps that DECODE can take on the tokens that are available: one a token, at most two for each of its at most 8 bits, two
for each bit in the buffer, and eight for its start and its end. -/
def decodeFuel (s : State) : Nat := 17 * s.env.bin.avail.length + 2 * s.work.bitcnt + 8

/-- DECODE (R200): runs until it ends or a port makes it wait. -/
def execDecode (s : State) : Host.Outcome State Fault Refusal := .next (runMicro decodeStep (decodeFuel s) s)

end Sys2Proof.Machine
end

