-- ==== Sys2Proof/Machine/Derive.lean ====
section
/-! DEFINITION. DERIVE, the code-table deriver (spec 42_derive R165 to R173). -/

namespace Sys2Proof.Machine

/-- The leaves at and below node `i`, whose own path is `p`, each with its path (R166: left is 0, right is 1). The depth-first
walk of R167; `fuel` bounds the depth, and a tree has no path of more than `NNODES` nodes (R40 (d)). -/
def leafPathsFrom (node : List Node) : Nat → Nat → List Bool → List (Nat × List Bool)
  | 0, _, _ => []
  | fuel + 1, i, p =>
    if (nodeAt node i).leaf then [(i, p)]
    else
      (match (nodeAt node i).left with
       | none => []
       | some c => leafPathsFrom node fuel c (p ++ [false])) ++
      (match (nodeAt node i).right with
       | none => []
       | some c => leafPathsFrom node fuel c (p ++ [true]))

/-- Every leaf of the tree with its path (R165, R166); none when the tree is absent (R168). -/
def leafPaths (node : List Node) (root : Option Nat) : List (Nat × List Bool) :=
  match root with
  | none => []
  | some r => leafPathsFrom node node.length r []

/-- The leaves deeper than `maxlen` (R170). -/
def tooLong (maxlen : Nat) (ps : List (Nat × List Bool)) : List Nat :=
  (ps.filter fun x => maxlen < x.2.length).map (·.1)

/-- Records one leaf in the code table (R165): `CODE[NODE[l].sym] <- path(l)`. -/
def recordCode (node : List Node) (code : Memory CodeEntry) (x : Nat × List Bool) : Memory CodeEntry :=
  Memory.write CodeEntry.empty code (nodeAt node x.1).sym.toNat (CodeEntry.ofPath x.2)

/-- The code table of a list of leaves with their paths, starting from the empty one (R165). -/
def codeTable (node : List Node) (ps : List (Nat × List Bool)) : Memory CodeEntry := ps.foldl (recordCode node) []

/-- The tables after a DERIVE that completes (R165): one entry and one count a leaf. -/
def Tables.withCodes (t : Tables) : Tables :=
  { t with
    code := codeTable t.node (leafPaths t.node t.root)
    ncodes := (leafPaths t.node t.root).length }

/-- The symbol `CODE_LEN` reports (R165, R170): that of the lowest-indexed leaf deeper than `maxlen`; none when every leaf
fits. -/
def codeLenFault (maxlen : Nat) (t : Tables) : Option Symbol :=
  ((tooLong maxlen (leafPaths t.node t.root)).min?).map fun m => (nodeAt t.node m).sym

/-- DERIVE (R165): the code table of the tree, or, if a leaf is too deep, the empty table and `Fault(CODE_LEN)` (R170). -/
def execDerive (s : State) : Host.Outcome State Fault Refusal :=
  match codeLenFault Config.maxlen s.tab with
  | some c => .next ({ s with tab := s.tab.emptyCode }.takeFault .codeLen c.zext)
  | none => .next ({ s with tab := s.tab.withCodes }.complete)

end Sys2Proof.Machine
end

