-- ==== Sys2Proof/Machine/Encoder.lean ====
section
/-! DEFINITION. ENCODE, the symbols-to-bits pass with the bit-stream packer (spec 43_encode R180 to R194). -/

namespace Sys2Proof.Machine

/-- `v[i] <- b`. -/
def setBit (v : BitVec 8) (i : Nat) (b : Bool) : BitVec 8 := if b then v ||| (1#8 <<< i) else v &&& ~~~(1#8 <<< i)

/-- The first two lines of `PutBit(b)` (R184): `BITBUF[7 - BITCNT] <- b; BITCNT <- BITCNT + 1`. -/
def State.pushBit (s : State) (b : Bool) : State :=
  { s with work := { s.work with bitbuf := setBit s.work.bitbuf (7 - s.work.bitcnt) b, bitcnt := s.work.bitcnt + 1 } }

/-- `BITBUF <- 0; BITCNT <- 0` (R184). -/
def State.clearBitBuf (s : State) : State := { s with work := { s.work with bitbuf := 0#8, bitcnt := 0 } }

/-- `SinkWrite(BOUT, byte(BITBUF, 8 - BITCNT))` and the emptying of the buffer (R184). With `BITCNT = 8` it is PutBit's whole
byte, with fewer bits it is Flush's padded one. -/
def writeBitBuf (s : State) : Micro :=
  sinkWritten (s.writeBout (.data ⟨s.work.bitbuf, BitVec.ofNat 3 (8 - s.work.bitcnt)⟩)) portidBout fun s' => .more s'.clearBitBuf

/-- ENCODE on a token it has read (R180). A symbol without a code faults before any of its bits is written (R186). -/
def encodeToken : SrcTok Symbol → State → Micro
  | .failTok, s => s.raise true .stream portidCin
  | .endTok, s => .more (s.goto .encodeEnd)
  | .data c, s =>
    if (s.tab.codeAt c).len = 0 then s.raise true .noCode c.zext
    else .more (s.goto (.encode (s.tab.codeAt c).path))

/-- ENCODE's loop (R180, R184): a full buffer is written before anything else; then the next bit of the present code is put;
and when none is left, the next token is read. -/
def encodeLoop (bits : List Bool) (s : State) : Micro :=
  if s.work.bitcnt = 8 then writeBitBuf s
  else
    match bits with
    | b :: bs => .more ((s.pushBit b).goto (.encode bs))
    | [] =>
      match s.readCin with
      | none => .hold
      | some (t, s') => encodeToken t s'

/-- The last writes of ENCODE (R180): `Flush()`, then `SinkWrite(BOUT, end)`; completion is next. -/
def encodeWriteEnd (s : State) : Micro :=
  if s.work.bitcnt = 0 then sinkWritten (s.writeBout .endTok) portidBout fun s' => .more (s'.goto .finish)
  else writeBitBuf s

/-- One step of ENCODE (R180). -/
def encodeStep (s : State) : Micro :=
  match s.work.phase with
  | .encode bits => encodeLoop bits s
  | .encodeEnd => encodeWriteEnd s
  | .abort code info => abortTaken (s.writeBout .abortTok) code info
  | .finish => .done s.complete
  | .record code info => .done (s.takeFault code info)
  | _ => .more (s.goto (.encode []))

/-- Bits of the present code that are still to be put. -/
def Phase.pendingBits : Phase → Nat
  | .encode bits => bits.length
  | _ => 0

/-- Length of the code of a token's symbol. -/
def Tables.tokenBits (t : Tables) : SrcTok Symbol → Nat
  | .data c => (t.codeAt c).len
  | .endTok => 0
  | .failTok => 0

/-- Steps that ENCODE can take on the tokens that are available: at most two a bit, one a token, and eight for its start and
its end. -/
def encodeFuel (s : State) : Nat :=
  2 * (s.work.phase.pendingBits + (s.env.cin.avail.map s.tab.tokenBits).sum) + s.env.cin.avail.length + 8

/-- ENCODE (R180): runs until it ends or a port makes it wait. -/
def execEncode (s : State) : Host.Outcome State Fault Refusal := .next (runMicro encodeStep (encodeFuel s) s)

end Sys2Proof.Machine
end

