-- ==== Sys2Proof/Machine/HostOps.lean ====
section
/-! DEFINITION. The host's register operations (spec 45_control R220, R221, R226 to R232) and the moves of the environment
(20_memory R70 to R74). -/

namespace Sys2Proof.Machine

/-- Presenting a command word (R220): rejection is tested first (R221, R255), then legality (R102, R103), then the command is
accepted. -/
def State.presentCommand (s : State) (w : Word) : State :=
  if s.status.busy || (s.status.err && w != encode .clear) then s.reject
  else
    match decodeWord w with
    | .error _ => s.takeFault .illegalCmd w
    | .ok i => s.accept w i

/-- A write to `FREQ_DATA` (R228): dropped while a command runs. -/
def State.writeFreqData (s : State) (v : Word) : State :=
  if s.status.busy then s.reject else { s with tab := s.tab.setFreq s.regs.freqIdx v }

/-- A host write by register (R227); every other offset has no effect. -/
def State.writeReg (s : State) (r : Reg) (v : Word) : State :=
  match r with
  | .cmd => s.presentCommand v
  | .status => { s with status := s.status.hostWritten v }
  | .inten => { s with regs := { s.regs with inten := v.setWidth 2 } }
  | .freqIdx => { s with regs := { s.regs with freqIdx := v.setWidth Config.symw } }
  | .freqData => s.writeFreqData v
  | .nodeIdx => { s with regs := { s.regs with nodeIdx := v } }
  | .codeIdx => { s with regs := { s.regs with codeIdx := v.setWidth Config.symw } }
  | .codeWsel => { s with regs := { s.regs with codeWsel := v } }
  | .id => s
  | .errcode => s
  | .errinfo => s
  | .root => s
  | .nnodes => s
  | .ncodes => s
  | .nodeW => s
  | .nodeInfo => s
  | .nodeL => s
  | .nodeR => s
  | .codeLen => s
  | .codeBits => s
  | .reserved => s

/-- Whether a read of `r` is a free draw now (R82). -/
def State.readIsFree (s : State) (r : Reg) : Bool := s.status.busy && freeWhileBusy r

/-- The value a host read of `r` returns now (R226): by the register's rule, or a free draw (R82). -/
def State.readValue (s : State) (r : Reg) : Word :=
  if s.readIsFree r then Config.freeRead s.draws else readReg r s

/-- `MemRead(off, 4)` (R226): the value goes to the host; the block's state does not change. -/
def State.hostRead (s : State) (off : Nat) : State :=
  { s with
    reads := ⟨off, s.readValue (regAt off)⟩ :: s.reads
    draws := if s.readIsFree (regAt off) then s.draws + 1 else s.draws }

/-- A host operation (R226, R227). -/
def State.hostOp (s : State) : HostOp → State
  | .read off => s.hostRead off
  | .write off v => s.writeReg (regAt off) v

/-- A move of the environment (R70). -/
def State.envOp (s : State) : EnvOp → State
  | .nextCin bs => { s with env := { s.env with cin := s.env.cin.prepare (bs.map cinTok) } }
  | .moreCin bs => { s with env := { s.env with cin := s.env.cin.supply (bs.map cinTok) } }
  | .nextBin bs => { s with env := { s.env with bin := s.env.bin.prepare (bs.map binTok) } }
  | .moreBin bs => { s with env := { s.env with bin := s.env.bin.supply (bs.map binTok) } }
  | .answerBout as t => { s with env := { s.env with bout := s.env.bout.answer as t } }
  | .answerCout as t => { s with env := { s.env with cout := s.env.cout.answer as t } }

/-- The command that is running, from the opcode latch (R21, R46). -/
def State.running (s : State) : Except DecodeError Instr := decodeOpcode s.work.op

/-- `WAIT` (R120): one read of `STATUS`; while it shows `BUSY = 1` the core moves and the host reads again. `rest` is the script
after `WAIT`. -/
def State.hostWait (s : State) (rest : List Event) : State :=
  if s.status.busy then { s.hostRead 0x08 with script := .core :: .wait :: rest } else s.hostRead 0x08

end Sys2Proof.Machine
end

