-- ==== Sys2Proof/Machine/Moves.lean ====
section
/-! DEFINITION. The moves of the agents (spec 45_control R235): what the core, the host, the environment and reset do when an event
gives them the move. -/

namespace Sys2Proof.Machine

/-- The core's move: with `BUSY = 1` it runs the command whose opcode is in `OP` (R21, R46); with `BUSY = 0` it waits for a
command. -/
def coreMove (s : State) : Host.Outcome State Fault Refusal :=
  if s.status.busy then
    match s.running with
    | .ok i => exec i s
    | .error _ => .fault (.corruptOp s.work.op)
  else .next s

/-- One step of the core (R235) inside the command `i`: a read of a source token, a write of a sink token, an internal step, or the
end of the command. A command that uses no port has only its end. A step that the environment holds changes nothing. -/
def coreStep (i : Instr) (s : State) : Host.Outcome State Fault Refusal :=
  match i with
  | .nop => exec .nop s
  | .count => .next ((countStep s).after s)
  | .build => exec .build s
  | .derive => exec .derive s
  | .encode => .next ((encodeStep s).after s)
  | .decode => .next ((decodeStep s).after s)
  | .clear => exec .clear s

/-- The core's move by one step only: host operations can fall before any step, the end of the command included (R223, R235). -/
def coreStepMove (s : State) : Host.Outcome State Fault Refusal :=
  if s.status.busy then
    match s.running with
    | .ok i => coreStep i s
    | .error _ => .fault (.corruptOp s.work.op)
  else .next s

/-- A host operation; one the interface cannot express is refused (R62). -/
def hostMove (op : HostOp) (s : State) : Host.Outcome State Fault Refusal :=
  if op.wf then .next (s.hostOp op)
  else
    match op with
    | .read off => .refused (.inexpressibleAccess off)
    | .write off _ => .refused (.inexpressibleAccess off)

/-- What an event does, `s` being the machine with the event taken off its script. -/
def eventMove (e : Event) (s : State) : Host.Outcome State Fault Refusal :=
  match e with
  | .core => coreMove s
  | .coreStep => coreStepMove s
  | .host op => hostMove op s
  | .wait => .next (s.hostWait s.script)
  | .reset => .next s.hardReset
  | .env op => .next (s.envOp op)

end Sys2Proof.Machine
end

