-- ==== Sys2Proof/Machine/Step.lean ====
section
/-! DEFINITION. One step of the machine (spec 45_control R235): the event at the head of the script says which agent moves. -/

namespace Sys2Proof.Machine

/-- One step (R235). When the script says nothing more, a running command goes on; an idle block stays as it is. -/
def step (s : State) : Host.Outcome State Fault Refusal :=
  match s.script with
  | [] => coreMove s
  | e :: es => eventMove e { s with script := es }

/-- `s` with the command word `w` presented so that the very next step runs it. A command reaches `OP` by its acceptance (R220
step 3) and the core then runs what `OP` holds: so the word is accepted, and the core moves next. A word that is no command
never reaches `OP` (R103): the host's write of it is what moves next. (notes/assumptions/8.md) -/
def State.withFetchWord (s : State) (nbits w : Nat) : State :=
  match decodeWord (BitVec.ofNat 32 (w % 2 ^ nbits)) with
  | .ok i => { s.accept (BitVec.ofNat 32 (w % 2 ^ nbits)) i with script := .core :: s.script }
  | .error _ => { s with script := .host (.write 0x04 (BitVec.ofNat 32 (w % 2 ^ nbits))) :: s.script }

end Sys2Proof.Machine
end

