-- ==== Sys2Proof/Safety.lean ====
section
/-! DEFINITION. The terms claims are stated in: what holds of every state a run reaches (spec 10_state R40, R42, R49), when a
step cannot stop, and the spec's own descriptions of results that stand apart from the machine's way of computing them (paths
R166, bytes and bits R76 to R78, the walk of the decoder R206, the greedy choice R144 to R147). -/

namespace Sys2Proof.Machine

/-! ### Flags (R49) -/

/-- The rules of R49 about `BUSY`, `DONE`, `ERR` and the fault record, with the one exception that R220 and R225 force: while
CLEAR runs after a fault, `BUSY` and `ERR` are both 1 (notes/assumptions/7.md). -/
structure FlagsOk (s : State) : Prop where
  busyNotDone : s.status.busy = true → s.status.done = false
  busyErrClear : s.status.busy = true → s.status.err = true → s.work.op = encodeOpcode .clear
  errNotDone : s.status.err = true → s.status.done = false
  noErr : s.status.err = false → s.regs.errcode = 0#8 ∧ s.regs.errinfo = 0#32
  errCode : s.status.err = true → 1 ≤ s.regs.errcode.toNat ∧ s.regs.errcode.toNat ≤ 7

/-- The first two sentences of R49 as they stand, without the exception. -/
def PlainR49 (s : State) : Prop :=
  (s.status.busy = true → s.status.done = false ∧ s.status.err = false) ∧
  (s.status.err = true → s.status.busy = false ∧ s.status.done = false)

/-- R49, last clause, and R43 to R45: between commands the working registers are empty; no stream instance is open (R72). -/
structure QuietOk (s : State) : Prop where
  work : s.status.busy = false → s.work = s.work.idle
  cin : s.status.busy = false → s.env.cin.isOpen = false ∧ s.env.cin.avail = []
  bin : s.status.busy = false → s.env.bin.isOpen = false ∧ s.env.bin.avail = []

/-- R21, R46: while a command runs, `OP` holds its opcode. -/
def OpOk (s : State) : Prop := s.status.busy = true → ∃ i, s.running = .ok i

/-- R44: `BITCNT` is an integer `0 .. 8`. -/
def BitcntOk (s : State) : Prop := s.work.bitcnt ≤ 8

/-! ### Tables (R38 to R42) -/

/-- `FREQ` and `CODE` are in canonical form, with indexes below `NSYM`. -/
def MemOk (t : Tables) : Prop :=
  Memory.wf Config.nsym 0#32 t.freq ∧ Memory.wf Config.nsym CodeEntry.empty t.code

/-- The number of leaves, `k` of R40. -/
def leafCount (t : Tables) : Nat := (t.node.filter fun n => n.leaf).length

/-- Every child reference of a list of nodes, in order. -/
def childRefs (node : List Node) : List (Option Nat) := node.flatMap fun n => [n.left, n.right]

/-- The weight behind a child reference; an absent child counts 0 (R150). -/
def weightOf (node : List Node) : Option Nat → Nat
  | none => 0
  | some i => (nodeAt node i).w

/-- The invariants of the tree (R39, R40 (a) to (g)); `k` of R40 is `leafCount`. -/
structure TreeOk (t : Tables) : Prop where
  held : t.nnodes = t.node.length
  sizes : (t.nnodes = 0 ∧ t.root = none) ∨ (t.nnodes = 2 ∧ leafCount t = 1) ∨
    (2 ≤ leafCount t ∧ t.nnodes = 2 * leafCount t - 1)
  capacity : t.nnodes ≤ Config.maxnodes
  leavesFirst : ∀ i < t.nnodes, ((nodeAt t.node i).leaf = true ↔ i < leafCount t)
  leafOrder : ∀ j < leafCount t, ∀ i < j, (nodeAt t.node i).sym < (nodeAt t.node j).sym
  rootLast : 0 < t.nnodes → t.root = some (t.nnodes - 1)
  childBelow : ∀ i < t.nnodes, ∀ b, ∀ c ∈ childOf (nodeAt t.node i) b, c < i
  oneParent : ∀ c < t.nnodes - 1, (childRefs t.node).count (some c) = 1
  inner : 2 ≤ leafCount t → ∀ i < t.nnodes, leafCount t ≤ i →
    (nodeAt t.node i).left.isSome = true ∧ (nodeAt t.node i).right.isSome = true
  single : leafCount t = 1 → (nodeAt t.node 1).left = none ∧ (nodeAt t.node 1).right = some 0
  innerWeight : ∀ i < t.nnodes, leafCount t ≤ i →
    (nodeAt t.node i).w = weightOf t.node (nodeAt t.node i).left + weightOf t.node (nodeAt t.node i).right
  leafChildless : ∀ i < leafCount t, (nodeAt t.node i).left = none ∧ (nodeAt t.node i).right = none
  innerSym : ∀ i < t.nnodes, leafCount t ≤ i → (nodeAt t.node i).sym = 0
  weights : ∀ i < t.nnodes, 1 ≤ (nodeAt t.node i).w ∧ (nodeAt t.node i).w ≤ Config.cntmax

/-- R42: the code table is empty, or it is the one DERIVE makes from the present tree. -/
def CodesOk (t : Tables) : Prop :=
  (t.code = [] ∧ t.ncodes = 0) ∨ (codeLenFault Config.maxlen t = none ∧ t = t.withCodes)

/-- Everything that holds of every state a run reaches. -/
structure Inv (s : State) : Prop where
  flags : FlagsOk s
  quiet : QuietOk s
  op : OpOk s
  bitcnt : BitcntOk s
  mem : MemOk s.tab
  tree : TreeOk s.tab
  codes : CodesOk s.tab

/-- The next event of the script, if it is a host operation, is one the interface can express (R62). -/
def NextEventOk (s : State) : Prop := ∀ op es, s.script = .host op :: es → op.wf = true

/-! ### Streams -/

/-- The sink takes every token and answers `ok` (R303 (b)). -/
def SinkTakesAll {α : Type} (p : SinkPort α) : Prop := (∀ a ∈ p.answers, a = .ok) ∧ p.thereafter = some .ok

/-- The tokens of a sink instance in which every write was answered `ok`. -/
def takenOk {α : Type} (ts : List (SinkTok α)) : List (Taken α) := ts.map fun t => ⟨t, .ok⟩

/-- A stream instance of data tokens and one terminator (R72). -/
def streamOf {α : Type} (xs : List α) (last : SrcTok α) : List (SrcTok α) := xs.map .data ++ [last]

/-- The meaningful bits of a byte token (R76): `d[7], d[6], ..., d[p]`. -/
def tokenBits (t : ByteTok) : List Bool := (List.range (8 - t.p.toNat)).map fun i => t.d.getLsbD (7 - i)

/-- The bit sequence a list of byte tokens carries (R77). -/
def streamBits (ts : List ByteTok) : List Bool := ts.flatMap tokenBits

/-- R77, R78: `ts` carries `bits`, only the last token has padding, and padding bits are 0. -/
def Packs (bits : List Bool) (ts : List ByteTok) : Prop :=
  streamBits ts = bits ∧ (∀ t ∈ ts.dropLast, t.p = 0#3) ∧
  ∀ t ∈ ts, ∀ i < t.p.toNat, t.d.getLsbD i = false

/-- The codes of a symbol sequence, one after the other (R181). -/
def codesOf (t : Tables) (xs : List Symbol) : List Bool := xs.flatMap fun c => (t.codeAt c).path

/-! ### The tree -/

/-- R166: `path(ROOT)` is empty; a left child's path is its parent's followed by 0, a right child's by 1. -/
inductive PathTo (node : List Node) (r : Nat) : Nat → List Bool → Prop
  | root : PathTo node r r []
  | child {i c : Nat} {p : List Bool} {b : Bool} (h : PathTo node r i p) (hc : childOf (nodeAt node i) b = some c) :
      PathTo node r c (p ++ [b])

/-- Where the decoder's cursor is when the bits are over, or the node that lacks the child a bit selects. -/
inductive WalkEnd
  | atNode (i : Nat)
  | offNode (i : Nat)
deriving DecidableEq, Repr

/-- The walk of the decoder over a bit sequence (R206, R207): the symbols written and where it ends. `r` is the root. -/
def walk (node : List Node) (r : Nat) : Nat → List Bool → List Symbol × WalkEnd
  | cur, [] => ([], .atNode cur)
  | cur, b :: bs =>
    match childOf (nodeAt node cur) b with
    | none => ([], .offNode cur)
    | some c =>
      if (nodeAt node c).leaf then ((nodeAt node c).sym :: (walk node r r bs).1, (walk node r r bs).2)
      else walk node r c bs

/-- The nodes that are in the queue when node `n` is made (R144): those made before it that no node made before it has
as a child. -/
def InQueue (node : List Node) (n i : Nat) : Prop :=
  i < n ∧ ∀ j < n, ∀ b, childOf (nodeAt node j) b ≠ some i

/-- `a` comes first in the queue order (R15, R147) among the indexes that satisfy `p`. -/
def FirstOf (node : List Node) (p : Nat → Prop) (a : Nat) : Prop :=
  p a ∧ ∀ i, p i → i ≠ a → queueBefore node a i = true

/-- The symbols that are keys of the frequency table (R38): the entry, read as a two's-complement number, is greater than 0. -/
def IsKey (t : Tables) (c : Symbol) : Prop := 0 < (t.freqAt c).toInt

/-- The exact sum of all `NSYM` entries (R142). -/
def totalFreq (t : Tables) : Nat :=
  ((List.range Config.nsym).map fun i => (Memory.read 0#32 t.freq i).toNat).sum

/-- R142: no entry is negative and the exact sum does not exceed `CNTMAX`. -/
def FreqValid (t : Tables) : Prop :=
  (∀ c : Symbol, (t.freqAt c).msb = false) ∧ totalFreq t ≤ Config.cntmax

/-! ### Ends of a command -/

/-- `STATUS` after a completion (R222) of a command accepted in `s` (R220). -/
def Status.afterDone (f : Status) (trunc : Bool) : Status := ⟨false, true, f.err, f.rej, trunc⟩

/-- `STATUS` after a fault (R256) of a command accepted in `s` (R220). -/
def Status.afterFault (f : Status) : Status := ⟨false, false, true, f.rej, false⟩

/-- The command `i` as the core finds it: accepted in `s` (R220 step 3). -/
def State.accepted (s : State) (i : Instr) : State := s.accept (encode i) i

/-- The states of the run of the command `i` that was accepted in `s` (R18, R223, R235): while it runs, the core takes a step or goes
on as far as it can, the environment moves, or the host operates. The last state is the one in which the command has ended. -/
inductive RunOf (i : Instr) (s : State) : State → Prop
  | accepted : RunOf i s (s.accepted i)
  | step {t u : State} (h : RunOf i s t) (hb : t.status.busy = true) (hu : coreStep i t = .next u) : RunOf i s u
  | core {t u : State} (h : RunOf i s t) (hb : t.status.busy = true) (hu : exec i t = .next u) : RunOf i s u
  | env {t : State} (h : RunOf i s t) (hb : t.status.busy = true) (op : EnvOp) : RunOf i s (t.envOp op)
  | host {t : State} (h : RunOf i s t) (hb : t.status.busy = true) (op : HostOp) : RunOf i s (t.hostOp op)

end Sys2Proof.Machine
end

