-- ==== Sys2Proof/Certificates/Slice0/Obligations.lean ====
section
/-! DEFINITION. The statements about HUFFCORE for the provers. Each cites the rule of the spec it formalises. -/

open Sys2Proof Sys2Proof.Machine

/-! ### Encodings -/

/-- R102: "A command word `w` is legal exactly when `w[31:8] = 0` and `w[7:0] <= 0x06`. There are seven legal command words and
`2^32 - 7` illegal ones." -/
def Obligations.SevenLegalCommandWords : Prop :=
  (∀ w : Word, (∃ i, decodeWord w = .ok i) ↔ w.extractLsb' 8 24 = 0#24 ∧ (w.extractLsb' 0 8).toNat ≤ 0x06) ∧
  Nat.card {w : Word // ∃ i, decodeWord w = .ok i} = 7 ∧
  Nat.card {w : Word // ¬ ∃ i, decodeWord w = .ok i} = 2 ^ 32 - 7

/-- Decoder and encoder agree in both directions (R100 to R102): a word decodes to a command exactly when it is that command's
encoding, and the host's view of the decoder answers the same. -/
def Obligations.DecodeAndEncodeAgree : Prop :=
  (∀ (w : Word) (i : Instr), decodeWord w = .ok i ↔ w = encode i) ∧
  ∀ i : Instr, i.wf = true ∧ decodeTableWord 32 (encode i).toNat = some i

/-- R101: the command words of the opcode map, written out. -/
def Obligations.WrittenOutWordsDecode : Prop :=
  decodeWord 0x00000000#32 = .ok .nop ∧ decodeWord 0x00000001#32 = .ok .count ∧
  decodeWord 0x00000002#32 = .ok .build ∧ decodeWord 0x00000003#32 = .ok .derive ∧
  decodeWord 0x00000004#32 = .ok .encode ∧ decodeWord 0x00000005#32 = .ok .decode ∧
  decodeWord 0x00000006#32 = .ok .clear ∧
  decodeWord 0x00000007#32 = .error .unknownOpcode ∧ decodeWord 0x00000101#32 = .error .reservedBits

/-- R112 to R114: a byte token stands on the data signal with `d` in bits 7:0 and `p` in bits 10:8, in both directions, whatever the byte
and the pad count; a symbol is the whole data signal; kind 0 is data, 1 is `end`, 2 is `abort` from the core and `fail` to it, 3 is treated
exactly as `fail` and never driven; on kinds other than data the data signal is driven 0 and not looked at. -/
def Obligations.BeatsCarryTokens : Prop :=
  (∀ t : ByteTok, (boutBeat (.data t)).kind = 0#2 ∧ (boutBeat (.data t)).data.extractLsb' 0 8 = t.d ∧
    (boutBeat (.data t)).data.extractLsb' 8 3 = t.p) ∧
  boutBeat (.data ⟨0xDC#8, 1#3⟩) = ⟨0#2, 0b00111011100#11⟩ ∧
  (∀ v : BitVec 11, binTok ⟨0#2, v⟩ = .data ⟨v.extractLsb' 0 8, v.extractLsb' 8 3⟩) ∧
  (∀ t : ByteTok, binTok (boutBeat (.data t)) = .data t) ∧
  (∀ c : Symbol, coutBeat (.data c) = ⟨0#2, c⟩ ∧ cinTok ⟨0#2, c⟩ = .data c) ∧
  boutBeat .endTok = ⟨1#2, 0#11⟩ ∧ boutBeat .abortTok = ⟨2#2, 0#11⟩ ∧
  coutBeat .endTok = ⟨1#2, 0#16⟩ ∧ coutBeat .abortTok = ⟨2#2, 0#16⟩ ∧
  (∀ t, (boutBeat t).kind ≠ 3#2) ∧ (∀ t, (coutBeat t).kind ≠ 3#2) ∧
  (∀ v, binTok ⟨1#2, v⟩ = .endTok) ∧ (∀ v, binTok ⟨2#2, v⟩ = .failTok) ∧ (∀ v, binTok ⟨3#2, v⟩ = .failTok) ∧
  (∀ v, cinTok ⟨1#2, v⟩ = .endTok) ∧ (∀ v, cinTok ⟨2#2, v⟩ = .failTok) ∧ (∀ v, cinTok ⟨3#2, v⟩ = .failTok)

/-! ### The command protocol and the host's operations -/

/-- R220 step 1, R221: a command word written while a command runs, or while `ERR = 1` unless it is CLEAR, changes nothing
except `REJ <- 1`, whatever its value, legal or not. -/
def Obligations.RejectedCommandOnlySetsRej : Prop :=
  ∀ (s : State) (es : List Event) (w : Word),
    s.script = .host (.write 0x04 w) :: es →
    (s.status.busy = true ∨ (s.status.err = true ∧ w ≠ 0x00000006#32)) →
    step s = .next { s with script := es, status := { s.status with rej := true } }

/-- R257, R103: an illegal command word written while the block is neither busy nor in the fault state records `ILLEGAL_CMD` with
the word; "State otherwise unchanged: no table, no port, no working register is touched". The block being idle is `QuietOk`,
which every run keeps. -/
def Obligations.IllegalCommandWordFaults : Prop :=
  ∀ (s : State) (es : List Event) (w : Word),
    s.script = .host (.write 0x04 w) :: es →
    s.status.busy = false → s.status.err = false → QuietOk s → (∀ i : Instr, w ≠ encode i) →
    step s = .next { s with
      script := es
      status := { s.status with err := true, done := false }
      regs := { s.regs with errcode := 1#8, errinfo := w } }

/-- R220 step 3, R72: a legal command word written while the block can take it is accepted: `OP`, `BUSY`, `DONE`, `TRUNC` and the
working registers are written as the rule says, fresh stream instances are open on the ports the command uses (COUNT: `CIN`; ENCODE:
`CIN`, `BOUT`; DECODE: `BIN`, `COUT`), and nothing else changes: the command has not run yet (R223). How the environment's streams
are handed over is the model's choice (notes/assumptions/3.md). -/
def Obligations.LegalCommandWordIsAccepted : Prop :=
  ∀ (s : State) (es : List Event) (i : Instr),
    s.script = .host (.write 0x04 (encode i)) :: es →
    s.status.busy = false → (s.status.err = false ∨ i = .clear) →
    step s = .next { s with
      script := es
      status := { s.status with busy := true, done := false, trunc := false }
      work := ⟨(encode i).extractLsb' 0 8, [], 0#8, 0, none, .start⟩
      env := ⟨if i = .count ∨ i = .encode then ⟨true, s.env.cin.upcoming.headD [], s.env.cin.upcoming.tail⟩ else s.env.cin,
              if i = .decode then ⟨true, s.env.bin.upcoming.headD [], s.env.bin.upcoming.tail⟩ else s.env.bin,
              if i = .encode then { s.env.bout with got := [] :: s.env.bout.got } else s.env.bout,
              if i = .decode then { s.env.cout with got := [] :: s.env.cout.got } else s.env.cout⟩ }

/-- R230: a write of `v` to `STATUS`: "if v[1] = 1 then DONE <- 0; if v[3] = 1 then REJ <- 0; nothing else. It can be done at any
time." -/
def Obligations.StatusWriteClearsDoneAndRej : Prop :=
  ∀ (s : State) (es : List Event) (v : Word),
    s.script = .host (.write 0x08 v) :: es →
    step s = .next { s with
      script := es
      status := { s.status with
        done := if v.getLsbD 1 then false else s.status.done
        rej := if v.getLsbD 3 then false else s.status.rej } }

/-- R25: the five flags of `STATUS` stand at bits 0 to 4 and bits 31:5 read 0. -/
def Obligations.StatusWordShowsTheFlags : Prop :=
  ∀ (s : State) (k : Nat), (readReg .status s).getLsbD k =
    (match k with
     | 0 => s.status.busy
     | 1 => s.status.done
     | 2 => s.status.err
     | 3 => s.status.rej
     | 4 => s.status.trunc
     | _ => false)

/-- R227, R67 with R28, R32, R34, R36: a host write at `0x14`, `0x28`, `0x30`, `0x44` or `0x48` stores the value, masked as the rule says, in
`INTEN`, `FREQ_IDX`, `NODE_IDX`, `CODE_IDX` or `CODE_WSEL`, at any time, and changes nothing else; what it stores reads back, and the
other four read as before. -/
def Obligations.IndexRegistersReadBack : Prop :=
  ∀ (s : State) (es : List Event) (v : Word),
    (s.script = .host (.write 0x14 v) :: es →
      step s = .next { s with script := es, regs := { s.regs with inten := v.extractLsb' 0 2 } }) ∧
    (s.script = .host (.write 0x28 v) :: es →
      step s = .next { s with script := es, regs := { s.regs with freqIdx := v.extractLsb' 0 16 } }) ∧
    (s.script = .host (.write 0x30 v) :: es →
      step s = .next { s with script := es, regs := { s.regs with nodeIdx := v } }) ∧
    (s.script = .host (.write 0x44 v) :: es →
      step s = .next { s with script := es, regs := { s.regs with codeIdx := v.extractLsb' 0 16 } }) ∧
    (s.script = .host (.write 0x48 v) :: es →
      step s = .next { s with script := es, regs := { s.regs with codeWsel := v } }) ∧
    readReg .inten (s.writeReg .inten v) = (v.setWidth 2).setWidth 32 ∧
    readReg .freqIdx (s.writeReg .freqIdx v) = (v.setWidth 16).setWidth 32 ∧
    readReg .nodeIdx (s.writeReg .nodeIdx v) = v ∧
    readReg .codeIdx (s.writeReg .codeIdx v) = (v.setWidth 16).setWidth 32 ∧
    readReg .codeWsel (s.writeReg .codeWsel v) = v ∧
    ∀ r ∈ [Reg.inten, .freqIdx, .nodeIdx, .codeIdx, .codeWsel],
      (s.writeReg r v).status = s.status ∧ (s.writeReg r v).tab = s.tab ∧ (s.writeReg r v).work = s.work ∧
      (s.writeReg r v).env = s.env ∧ (s.writeReg r v).regs.errcode = s.regs.errcode ∧
      (s.writeReg r v).regs.errinfo = s.regs.errinfo ∧
      ∀ q ∈ [Reg.inten, .freqIdx, .nodeIdx, .codeIdx, .codeWsel], q ≠ r →
        readReg q (s.writeReg r v) = readReg q s

/-- R63: "An access to a reserved offset (`0x24` and `0x54 .. 0xFC`) reads 0 and a write to it has no effect; it raises no fault. A
write to a read-only register or read-only bit has no effect; it raises no fault." The read-only bits are `STATUS` but for bits 1 and
3, `INTEN[31:2]` and bits 31:16 of the two symbol indexes: what is written there makes no difference. -/
def Obligations.ReservedAndReadOnlyWritesDoNothing : Prop :=
  ∀ (s : State) (es : List Event) (off : Nat) (v : Word), offsetWf off = true →
    ((off = 0x24 ∨ 0x54 ≤ off) → s.readValue (regAt off) = 0#32) ∧
    ((off = 0x24 ∨ 0x54 ≤ off ∨
        off ∈ [0x00, 0x0C, 0x10, 0x18, 0x1C, 0x20, 0x34, 0x38, 0x3C, 0x40, 0x4C, 0x50]) →
      s.script = .host (.write off v) :: es → step s = .next { s with script := es }) ∧
    (s.script = .host (.write 0x08 v) :: es → ∃ t, step s = .next t ∧
      t.status.busy = s.status.busy ∧ t.status.err = s.status.err ∧ t.status.trunc = s.status.trunc) ∧
    s.writeReg .status v = s.writeReg .status (v &&& 0xA#32) ∧
    s.writeReg .inten v = s.writeReg .inten (v &&& 0x3#32) ∧ s.writeReg .freqIdx v = s.writeReg .freqIdx (v &&& 0xFFFF#32) ∧
    s.writeReg .codeIdx v = s.writeReg .codeIdx (v &&& 0xFFFF#32)

/-- R23: `ID` "Reads `0x48554631` always", in every state, the reset state included, and a write to it changes nothing. -/
def Obligations.IdReadsItsConstant : Prop :=
  ∀ (s : State) (es : List Event),
    (s.script = .host (.read 0x00) :: es →
      step s = .next { s with script := es, reads := ⟨0x00, 0x48554631#32⟩ :: s.reads }) ∧
    (∀ v, s.script = .host (.write 0x00 v) :: es → step s = .next { s with script := es }) ∧
    readReg .id State.reset = 0x48554631#32

/-- R226, R66, R67, R82, R229: a host read changes no state of the block. What it returns, offset by offset as the address map has the
registers: each register's value by its rule, 0 for `CMD` and for a reserved offset; or, for the ten registers of R82 while `BUSY = 1`,
the next free draw. (What the `NODE_*` and `CODE_*` windows and `STATUS` read is in `NodeWindows`, `CodeWindows`, `StatusWordShowsTheFlags`.)
That draws are numbered and that the host keeps what it read is the model's choice (notes/assumptions/1.md, 2.md). -/
def Obligations.HostReadHasNoSideEffect : Prop :=
  ∀ (s : State) (es : List Event) (off : Nat), offsetWf off = true →
    s.script = .host (.read off) :: es →
    (step s = .next
      (if s.status.busy = true ∧
          off ∈ [0x18, 0x1C, 0x20, 0x2C, 0x34, 0x38, 0x3C, 0x40, 0x4C, 0x50] then
        { s with script := es, reads := ⟨off, Config.freeRead s.draws⟩ :: s.reads, draws := s.draws + 1 }
      else { s with script := es, reads := ⟨off, readReg (regAt off) s⟩ :: s.reads })) ∧
    (∀ e ∈ ([(0x00, 0x48554631#32), (0x04, 0#32), (0x08, readReg .status s), (0x0C, 0#24 ++ s.regs.errcode),
        (0x10, s.regs.errinfo), (0x14, 0#30 ++ s.regs.inten),
        (0x18, match s.tab.root with
          | none => 0xFFFFFFFF#32
          | some r => BitVec.ofNat 32 r),
        (0x1C, BitVec.ofNat 32 s.tab.nnodes), (0x20, BitVec.ofNat 32 s.tab.ncodes), (0x24, 0#32),
        (0x28, 0#16 ++ s.regs.freqIdx), (0x2C, Memory.read 0#32 s.tab.freq s.regs.freqIdx.toNat), (0x30, s.regs.nodeIdx),
        (0x34, readReg .nodeW s), (0x38, readReg .nodeInfo s), (0x3C, readReg .nodeL s), (0x40, readReg .nodeR s),
        (0x44, 0#16 ++ s.regs.codeIdx), (0x48, s.regs.codeWsel), (0x4C, readReg .codeLen s),
        (0x50, readReg .codeBits s)] : List (Nat × Word)), off = e.1 → readReg (regAt off) s = e.2) ∧
    (0x54 ≤ off → readReg (regAt off) s = 0#32)

/-- R228, R229, R33: with `BUSY = 0` a write to `FREQ_DATA` stores all 32 bits in `FREQ[FREQ_IDX]`, which then reads back, every other
entry, the tree and the code table being unchanged, also while `ERR = 1`; with `BUSY = 1` it is dropped and sets `REJ`. -/
def Obligations.FreqDataWindow : Prop :=
  ∀ (s : State) (es : List Event) (v : Word), s.script = .host (.write 0x2C v) :: es →
    (s.status.busy = true → step s = .next { s with script := es, status := { s.status with rej := true } }) ∧
    (s.status.busy = false → MemOk s.tab → ∃ freq,
      step s = .next { s with script := es, tab := { s.tab with freq := freq } } ∧
      Memory.wf Config.nsym 0#32 freq ∧
      ∀ c : Symbol, Memory.read 0#32 freq c.toNat = if c = s.regs.freqIdx then v else s.tab.freqAt c)

/-- R35: the four `NODE_*` windows read 0 when `NODE_IDX >= NNODES`; otherwise they show the node, a leaf with bit 31 of `NODE_INFO` set
and its symbol in bits 15:0, an internal node with `NODE_INFO = 0`, `NIL` as `0xFFFFFFFF`. Bit 31 of `NODE_W` is 0. -/
def Obligations.NodeWindows : Prop :=
  ∀ (s : State), TreeOk s.tab →
    (s.tab.nnodes ≤ s.regs.nodeIdx.toNat →
      readReg .nodeW s = 0#32 ∧ readReg .nodeInfo s = 0#32 ∧ readReg .nodeL s = 0#32 ∧ readReg .nodeR s = 0#32) ∧
    ∀ i, i < s.tab.nnodes → s.regs.nodeIdx.toNat = i →
      (readReg .nodeW s).toNat = (nodeAt s.tab.node i).w ∧ (readReg .nodeW s).getLsbD 31 = false ∧
      (readReg .nodeInfo s).getLsbD 31 = (nodeAt s.tab.node i).leaf ∧
      (readReg .nodeInfo s).extractLsb' 0 16 = (nodeAt s.tab.node i).sym ∧
      (readReg .nodeInfo s).extractLsb' 16 15 = 0#15 ∧
      ((nodeAt s.tab.node i).left = none → readReg .nodeL s = 0xFFFFFFFF#32) ∧
      ((nodeAt s.tab.node i).right = none → readReg .nodeR s = 0xFFFFFFFF#32) ∧
      (∀ l, (nodeAt s.tab.node i).left = some l → (readReg .nodeL s).toNat = l ∧ l < s.tab.nnodes) ∧
      ∀ r, (nodeAt s.tab.node i).right = some r → (readReg .nodeR s).toNat = r ∧ r < s.tab.nnodes

/-- R37: bit `b` of `CODE_BITS` is bit `32 * CODE_WSEL + b` of the entry's `bits`, positions `>= MAXLEN` counting as 0; `CODE_LEN` is the
length. -/
def Obligations.CodeWindows : Prop :=
  ∀ (s : State),
    (∀ b < 32, (readReg .codeBits s).getLsbD b =
      (s.tab.codeAt s.regs.codeIdx).bits.getLsbD (32 * s.regs.codeWsel.toNat + b)) ∧
    (64 ≤ 32 * s.regs.codeWsel.toNat → readReg .codeBits s = 0#32) ∧
    ((s.tab.codeAt s.regs.codeIdx).len ≤ 64 → (readReg .codeLen s).toNat = (s.tab.codeAt s.regs.codeIdx).len)

/-- R270: `irq = (STATUS.DONE and INTEN.IE_DONE) or (STATUS.ERR and INTEN.IE_ERR)`, and in every state a run reaches the two sources are
not pending together. -/
def Obligations.InterruptOutputLevel : Prop :=
  ∀ s : State,
    (s.irq = true ↔ (s.status.done = true ∧ s.regs.inten.getLsbD 0 = true) ∨
      (s.status.err = true ∧ s.regs.inten.getLsbD 1 = true)) ∧
    (FlagsOk s → ¬ (s.status.done = true ∧ s.status.err = true))

/-- R62, 93_implementation_defined item 18: a host access that is not a whole aligned word of the register space is refused by
name. -/
def Obligations.InexpressibleAccessRefused : Prop :=
  ∀ (s : State) (es : List Event) (off : Nat) (v : Word), (off % 4 ≠ 0 ∨ 0x100 ≤ off) →
    (s.script = .host (.read off) :: es → step s = .refused (.inexpressibleAccess off)) ∧
    (s.script = .host (.write off v) :: es → step s = .refused (.inexpressibleAccess off))

/-! ### Steps of the machine -/

/-- R21, R46, R235: the core's step runs the command whose opcode `OP` holds, whether the script gives it the move or says nothing, or one step of it
where the script says so; a
command word placed by `withFetchWord` is what the very next step runs. The script, and the placing of a word, are the model's choices
(notes/assumptions/1.md, 8.md). -/
def Obligations.StepRunsTheDecodedCommand : Prop :=
  (∀ (s : State) (es : List Event) (i : Instr), s.status.busy = true → decodeOpcode s.work.op = .ok i →
    (s.script = .core :: es → step s = exec i { s with script := es }) ∧ (s.script = [] → step s = exec i s) ∧
    (s.script = .coreStep :: es → step s = coreStep i { s with script := es })) ∧
  (∀ (s : State) (es : List Event), s.status.busy = false →
    (s.script = .core :: es ∨ s.script = .coreStep :: es → step s = .next { s with script := es }) ∧
    (s.script = [] → step s = .next s)) ∧
  ∀ (s : State) (i : Instr), step (s.withFetchWord 32 (encode i).toNat) = exec i (s.accepted i)

/-- R290, R291: reset puts every piece of block state to its reset value, a running command included: no terminator is written and no
fault is recorded. The endpoints keep what they hold; the script and what the host has read are outside the block (the model's choice,
notes/assumptions/1.md, 3.md). -/
def Obligations.ResetAbandonsTheCommand : Prop :=
  ∀ (s : State) (es : List Event), s.script = .reset :: es →
    ∃ t, step s = .next t ∧
      t.status = ⟨false, false, false, false, false⟩ ∧ t.regs = ⟨0, 0, 0, 0, 0, 0, 0⟩ ∧
      t.tab = ⟨[], [], none, 0, [], 0⟩ ∧ t.work = ⟨0, [], 0, 0, none, .start⟩ ∧
      t.env.bout = s.env.bout ∧ t.env.cout = s.env.cout ∧
      t.env.cin.upcoming = s.env.cin.upcoming ∧ t.env.bin.upcoming = s.env.bin.upcoming ∧
      t.script = es ∧ t.reads = s.reads ∧ t.draws = s.draws

/-- R50: the reset state satisfies everything that holds of every state a run reaches, reads `NIL` in `ROOT` and 0 in every other
register but `ID`. -/
def Obligations.ResetStateIsGood : Prop :=
  Inv State.reset ∧ readReg .root State.reset = 0xFFFFFFFF#32 ∧ readReg .id State.reset = 0x48554631#32 ∧
  ∀ r : Reg, r ≠ .root → r ≠ .id → readReg r State.reset = 0#32

/-- HEADLINE. R40, R42, R43 to R46, R49: everything in `Inv` is kept by every step, whatever the host and the environment do. R49 is taken
with the exception that R220 and R225 force (the model's reading, notes/assumptions/7.md). -/
def Obligations.EveryStepKeepsTheInvariant : Prop :=
  ∀ s t : State, Inv s → step s = .next t → Inv t

/-- R22, R43 to R46, R49: the flag rules, the emptiness of the working registers between commands, the legality of `OP` and
`BITCNT <= 8` are kept by every step. After every step R49's first two sentences hold as they stand,
or CLEAR is running after a fault (R220, R225; notes/assumptions/7.md). -/
def Obligations.EveryStepKeepsTheProtocolRules : Prop :=
  ∀ s t : State, FlagsOk s → QuietOk s → OpOk s → BitcntOk s → step s = .next t →
    FlagsOk t ∧ QuietOk t ∧ OpOk t ∧ BitcntOk t ∧
    (PlainR49 t ∨ (t.status.busy = true ∧ t.status.err = true ∧ t.running = .ok .clear))

/-- R39, R40 (a) to (g): the tree invariants, with the canonical form of the memories, are kept by every step: BUILD makes a strict binary
tree, or the synthetic root above one leaf, and nothing else writes the tree. -/
def Obligations.EveryStepKeepsTheTreeRules : Prop :=
  ∀ s t : State, MemOk s.tab → TreeOk s.tab → step s = .next t → MemOk t.tab ∧ TreeOk t.tab

/-- R42: the code table is empty or derived from the present tree, and every step keeps it so. -/
def Obligations.EveryStepKeepsTheCodeTableRule : Prop :=
  ∀ s t : State, CodesOk s.tab → step s = .next t → CodesOk t.tab

/-- From a state a run reaches, a step always answers a next state, unless the host's next operation is one the interface cannot express
(R62): the block has no other way to stop. -/
def Obligations.NoStepStops : Prop :=
  ∀ s : State, Inv s → NextEventOk s → ∃ t, step s = .next t

/-- REFUTED BY THE SPEC'S OWN PSEUDOCODE. R49 says "`BUSY = 1` implies `DONE = 0` and `ERR = 0`" at every moment. R220 accepts CLEAR while
`ERR = 1` and sets `BUSY <- 1`; R225 writes `ERR <- 0` at CLEAR's end. So the acceptance of CLEAR breaks R49. (notes/assumptions/7.md) -/
def Obligations.PlainR49IsKeptByEveryStep : Prop :=
  ∀ s t : State, Inv s → PlainR49 s → step s = .next t → PlainR49 t

/-- R22, R272: "The fault state (`ERR = 1`) is left only by the completion of CLEAR ..., or by reset." -/
def Obligations.FaultStateLeftOnlyByClearOrReset : Prop :=
  ∀ s t : State, step s = .next t → s.status.err = true → t.status.err = false →
    (∃ es, s.script = .reset :: es) ∨
    (s.status.busy = true ∧ s.running = .ok .clear ∧ t.status.done = true ∧ t.regs.errcode = 0#8 ∧ t.regs.errinfo = 0#32 ∧
      t.tab = ⟨[], [], none, 0, [], 0⟩)

/-- R255, R273: faults do not nest: while `ERR = 1` no step changes the fault record except by leaving the fault state. -/
def Obligations.FaultsDoNotNest : Prop :=
  ∀ s t : State, FlagsOk s → step s = .next t → s.status.err = true → t.status.err = true →
    t.regs.errcode = s.regs.errcode ∧ t.regs.errinfo = s.regs.errinfo

/-- R152, R39, C9: the tree changes only by BUILD, by CLEAR or by reset. -/
def Obligations.TreeChangesOnlyByBuildClearReset : Prop :=
  ∀ s t : State, step s = .next t →
    (t.tab.node ≠ s.tab.node ∨ t.tab.root ≠ s.tab.root ∨ t.tab.nnodes ≠ s.tab.nnodes) →
    (∃ es, s.script = .reset :: es) ∨ (s.status.busy = true ∧ (s.running = .ok .build ∨ s.running = .ok .clear))

/-- R38, R41: `FREQ` changes only by COUNT, CLEAR, reset and the host's writes of `FREQ_DATA` while `BUSY = 0`; the code table only by DERIVE,
BUILD, CLEAR and reset. -/
def Obligations.WhoWritesFreqAndCode : Prop :=
  ∀ s t : State, step s = .next t →
    (t.tab.freq ≠ s.tab.freq →
      (∃ es, s.script = .reset :: es) ∨
      (∃ v es, s.script = .host (.write 0x2C v) :: es ∧ s.status.busy = false) ∨
      (s.status.busy = true ∧ (s.running = .ok .count ∨ s.running = .ok .clear))) ∧
    ((t.tab.code ≠ s.tab.code ∨ t.tab.ncodes ≠ s.tab.ncodes) →
      (∃ es, s.script = .reset :: es) ∨
      (s.status.busy = true ∧ (s.running = .ok .derive ∨ s.running = .ok .build ∨ s.running = .ok .clear)))

/-- R22, R28, R32, R34, R36: `INTEN` and the index registers are written only by the host and by reset; `BUSY` is set only by the acceptance
of a legal command word; `REJ` is set only by a dropped write and cleared only by a host write to `STATUS` or by reset. -/
def Obligations.WhoWritesTheControlBits : Prop :=
  ∀ s t : State, step s = .next t →
    (t.regs.inten ≠ s.regs.inten → (∃ es, s.script = .reset :: es) ∨ ∃ v es, s.script = .host (.write 0x14 v) :: es) ∧
    (t.regs.freqIdx ≠ s.regs.freqIdx → (∃ es, s.script = .reset :: es) ∨ ∃ v es, s.script = .host (.write 0x28 v) :: es) ∧
    (t.regs.nodeIdx ≠ s.regs.nodeIdx → (∃ es, s.script = .reset :: es) ∨ ∃ v es, s.script = .host (.write 0x30 v) :: es) ∧
    (t.regs.codeIdx ≠ s.regs.codeIdx → (∃ es, s.script = .reset :: es) ∨ ∃ v es, s.script = .host (.write 0x44 v) :: es) ∧
    (t.regs.codeWsel ≠ s.regs.codeWsel → (∃ es, s.script = .reset :: es) ∨ ∃ v es, s.script = .host (.write 0x48 v) :: es) ∧
    (s.status.busy = false → t.status.busy = true →
      ∃ i es, s.script = .host (.write 0x04 (encode i)) :: es ∧ (s.status.err = false ∨ i = .clear)) ∧
    (s.status.rej = false → t.status.rej = true →
      ∃ off v es, s.script = .host (.write off v) :: es ∧ (off = 0x04 ∨ off = 0x2C) ∧
        (s.status.busy = true ∨ (s.status.err = true ∧ off = 0x04))) ∧
    (s.status.rej = true → t.status.rej = false →
      (∃ es, s.script = .reset :: es) ∨ ∃ v es, s.script = .host (.write 0x08 v) :: es ∧ v.getLsbD 3 = true)

/-! ### What every command leaves alone, and how every command ends -/

/-- FRAME of all seven commands. `INTEN`, the index registers, `OP` and `REJ` are not written by any command (R28, R32, R34, R36, R46, R22); the
host's script and what it has read are not the core's. The fault record changes only by a fault or by CLEAR (R26, R27). Ports of which
R72 says that the command does not use them see no token. `TRUNC` is written by DECODE alone (R208), and no command but CLEAR lowers `ERR`
(R22). -/
def Obligations.CommandFrames : Prop :=
  ∀ (i : Instr) (s t : State), exec i s = .next t →
    t.regs.inten = s.regs.inten ∧ t.regs.freqIdx = s.regs.freqIdx ∧ t.regs.nodeIdx = s.regs.nodeIdx ∧
    t.regs.codeIdx = s.regs.codeIdx ∧ t.regs.codeWsel = s.regs.codeWsel ∧
    t.work.op = s.work.op ∧ t.status.rej = s.status.rej ∧
    t.script = s.script ∧ t.reads = s.reads ∧ t.draws = s.draws ∧
    (i ≠ .decode → t.status.trunc = s.status.trunc) ∧ (i ≠ .clear → s.status.err = true → t.status.err = true) ∧
    (i ≠ .clear → t.status.err = s.status.err → s.status.err = false → t.regs = s.regs) ∧
    t.env.cin.upcoming = s.env.cin.upcoming ∧ t.env.bin.upcoming = s.env.bin.upcoming ∧
    (i ≠ .encode → t.env.bout = s.env.bout) ∧ (i ≠ .decode → t.env.cout = s.env.cout) ∧
    (i ≠ .count → i ≠ .encode → t.env.cin = s.env.cin ∨ t.env.cin.avail = []) ∧
    (i ≠ .decode → t.env.bin = s.env.bin ∨ t.env.bin.avail = [])

/-- FRAME of the tables, R104: NOP, ENCODE and DECODE change no table; COUNT changes `FREQ` only (R135); BUILD leaves `FREQ`; DERIVE changes the code
table only (R172). -/
def Obligations.CommandsChangeOnlyTheirTables : Prop :=
  ∀ (i : Instr) (s t : State), exec i s = .next t →
    ((i = .nop ∨ i = .encode ∨ i = .decode) → t.tab = s.tab) ∧
    (i = .count → t.tab = { s.tab with freq := t.tab.freq }) ∧
    (i = .build → t.tab.freq = s.tab.freq) ∧
    (i = .derive → t.tab = { s.tab with code := t.tab.code, ncodes := t.tab.ncodes })

/-- R235, R312: a command runs until it has ended or a port holds it: to run it again changes nothing. None loops for ever by itself. That the core's move is a whole
such run is the model's choice (notes/assumptions/1.md, 4.md). -/
def Obligations.CommandsEndOrWait : Prop :=
  ∀ (i : Instr) (s : State), ∃ t, exec i s = .next t ∧ (t.status.busy = false ∨ exec i t = .next t)

/-- R235, R223, R80: the core's single steps add up to the run of the command: a step that does not end it leads to the same end; a step moves
at most one token on a port; and the step that ends the command moves none, so that host accesses can fall between the last token and the end,
with `BUSY = 1`. -/
def Obligations.CoreStepsAddUpToTheRun : Prop :=
  ∀ (i : Instr) (s t : State), s.status.busy = true → coreStep i s = .next t →
    (t.status.busy = true →
      exec i t = exec i s ∧
      (t.env.cin = s.env.cin ∨ ∃ x, s.env.cin.avail = x :: t.env.cin.avail) ∧
      (t.env.bin = s.env.bin ∨ ∃ x, s.env.bin.avail = x :: t.env.bin.avail) ∧
      (t.env.bout = s.env.bout ∨ ∃ x, t.env.bout.got = recordTaken x s.env.bout.got) ∧
      (t.env.cout = s.env.cout ∨ ∃ x, t.env.cout.got = recordTaken x s.env.cout.got)) ∧
    (t.status.busy = false → exec i s = .next t ∧ t.env = s.env.closed)

/-- R73, R74, 93_implementation_defined item 17: while no token is available, or the sink is not ready, the command stays where it is and
nothing in the block changes: COUNT, ENCODE and DECODE at a read; ENCODE at a full byte, at the padded byte of `Flush` and at `end`; DECODE at
a symbol and at `end`; both at `abort`. The places where a command can stand are the model's (notes/assumptions/4.md). -/
def Obligations.WaitingChangesNothing : Prop :=
  ∀ s : State,
    (∀ n, s.work.phase = .count n → s.env.cin.avail = [] → exec .count s = .next s) ∧
    (s.work.phase = .encode [] → s.work.bitcnt ≠ 8 → s.env.cin.avail = [] → exec .encode s = .next s) ∧
    (s.work.phase = .decode → s.work.bitcnt = 0 → s.env.bin.avail = [] → exec .decode s = .next s) ∧
    (s.env.bout.answers = [] → s.env.bout.thereafter = none →
      (∀ bits, s.work.phase = .encode bits → s.work.bitcnt = 8 → exec .encode s = .next s) ∧
      (s.work.phase = .encodeEnd → exec .encode s = .next s) ∧
      (∀ code info, s.work.phase = .abort code info → exec .encode s = .next s)) ∧
    (s.env.cout.answers = [] → s.env.cout.thereafter = none →
      (s.work.phase = .decodeEmit → exec .decode s = .next s) ∧
      (∀ trunc, s.work.phase = .decodeEnd trunc → exec .decode s = .next s) ∧
      (∀ code info, s.work.phase = .abort code info → exec .decode s = .next s))

/-- R70, R73, R74, R223: it makes no difference whether the environment supplies tokens, or settles how a sink answers, before the core
moves or while a command waits. -/
def Obligations.TokensInPiecesMakeNoDifference : Prop :=
  ∀ (s t : State), t.status.busy = true →
    (∀ (i : Instr) (ts : List (SrcTok Symbol)), (i = .count ∨ i = .encode) → exec i s = .next t →
      exec i { t with env := { t.env with cin := { t.env.cin with avail := t.env.cin.avail ++ ts } } } =
      exec i { s with env := { s.env with cin := { s.env.cin with avail := s.env.cin.avail ++ ts } } }) ∧
    (∀ ts : List (SrcTok ByteTok), exec .decode s = .next t →
      exec .decode { t with env := { t.env with bin := { t.env.bin with avail := t.env.bin.avail ++ ts } } } =
      exec .decode { s with env := { s.env with bin := { s.env.bin with avail := s.env.bin.avail ++ ts } } }) ∧
    (∀ (as : List Answer) (a : Option Answer), s.env.bout.thereafter = none → exec .encode s = .next t →
      exec .encode { t with env := { t.env with bout := t.env.bout.answer (t.env.bout.answers ++ as) a } } =
      exec .encode { s with env := { s.env with bout := s.env.bout.answer (s.env.bout.answers ++ as) a } }) ∧
    (∀ (as : List Answer) (a : Option Answer), s.env.cout.thereafter = none → exec .decode s = .next t →
      exec .decode { t with env := { t.env with cout := t.env.cout.answer (t.env.cout.answers ++ as) a } } =
      exec .decode { s with env := { s.env with cout := s.env.cout.answer (s.env.cout.answers ++ as) a } })

/-- R250: which faults each command can record, over its whole run (`RunOf`), however often a port held it and whatever the host and the
environment did meanwhile. Only the codes of its row, each with the `ERRINFO` of its port where the code is `STREAM`. -/
def Obligations.FaultsOfEachCommand : Prop :=
  ∀ (i : Instr) (s t : State), RunOf i s t → s.status.err = false → t.status.err = true →
    (i = .count ∧ (t.regs.errcode = 6#8 ∨ (t.regs.errcode = 5#8 ∧ t.regs.errinfo = 0#32))) ∨
    (i = .build ∧ t.regs.errcode = 2#8) ∨
    (i = .derive ∧ t.regs.errcode = 7#8) ∨
    (i = .encode ∧ (t.regs.errcode = 3#8 ∨ (t.regs.errcode = 5#8 ∧ (t.regs.errinfo = 0#32 ∨ t.regs.errinfo = 2#32)))) ∨
    (i = .decode ∧ (t.regs.errcode = 4#8 ∨ (t.regs.errcode = 5#8 ∧ (t.regs.errinfo = 1#32 ∨ t.regs.errinfo = 3#32))))

/-- R72, R75, R256 step 1, R262: whatever the sinks answer, and however often they held the command (`RunOf`), a command that has ended has
written to its sink zero or more data tokens and exactly one last token: `end` answered `ok` if it completed; `abort` if it faulted; or the
write that was answered `fail`, after which nothing more is written and the fault is `STREAM` with the sink's identifier. -/
def Obligations.EverySinkInstanceIsTerminated : Prop :=
  ∀ s t : State, s.status.err = false → t.status.busy = false →
    (RunOf .encode s t →
      ∃ (ds : List ByteTok) (x : Taken ByteTok),
        t.env.bout.got = (takenOk (ds.map .data) ++ [x]) :: s.env.bout.got ∧
        ((t.status.done = true ∧ x = ⟨.endTok, .ok⟩) ∨
         (t.status.err = true ∧ x.tok = .abortTok) ∨
         (t.status.err = true ∧ x.tok ≠ .abortTok ∧ x.ans = .fail ∧ t.regs.errcode = 5#8 ∧ t.regs.errinfo = 2#32))) ∧
    (RunOf .decode s t →
      ∃ (ds : List Symbol) (x : Taken Symbol),
        t.env.cout.got = (takenOk (ds.map .data) ++ [x]) :: s.env.cout.got ∧
        ((t.status.done = true ∧ x = ⟨.endTok, .ok⟩) ∨
         (t.status.err = true ∧ x.tok = .abortTok) ∨
         (t.status.err = true ∧ x.tok ≠ .abortTok ∧ x.ans = .fail ∧ t.regs.errcode = 5#8 ∧ t.regs.errinfo = 3#32)))

/-! ### NOP, CLEAR, COUNT -/

/-- R224: NOP completes from every state in which it is accepted, with no other effect: "Reads and writes no port, no memory." -/
def Obligations.NopCompletes : Prop :=
  ∀ s : State, QuietOk s → s.status.busy = false →
    exec .nop (s.accepted .nop) = .next { s with
      status := { s.status with done := true, trunc := false }, work := { s.work with op := 0x00#8 } }

/-- R225, R272: CLEAR completes from every state in which it is accepted, also while `ERR = 1`: every table is empty, the fault record is 0, and
`REJ`, `INTEN` and the index registers are not touched. -/
def Obligations.ClearEmptiesTheTables : Prop :=
  ∀ s : State, QuietOk s → s.status.busy = false →
    exec .clear (s.accepted .clear) = .next { s with
      status := ⟨false, true, false, s.status.rej, false⟩
      regs := { s.regs with errcode := 0#8, errinfo := 0#32 }
      tab := ⟨[], [], none, 0, [], 0⟩
      work := { s.work with op := 0x06#8 } }

/-- R130, R131, R133, R137: COUNT on a stream of at most `CNTMAX` symbols completes; every entry of `FREQ` is the number of times its symbol
occurs in the stream, whatever the table held before; no other table changes. With the empty stream the table is empty (R132). -/
def Obligations.CountCountsEverySymbol : Prop :=
  ∀ (s : State) (xs : List Symbol) (later : List (List (SrcTok Symbol))),
    s.env.cin.upcoming = streamOf xs .endTok :: later → xs.length ≤ Config.cntmax →
    ∃ freq, Memory.wf Config.nsym 0#32 freq ∧
      (∀ c : Symbol, (Memory.read 0#32 freq c.toNat).toNat = xs.count c) ∧
      exec .count (s.accepted .count) = .next { s with
        status := s.status.afterDone false
        tab := { s.tab with freq := freq }
        work := { s.work.idle with op := 0x01#8 }
        env := { s.env.closed with cin := ⟨false, [], later⟩ } }

/-- R134, R133, R137 (d), R262, R263: COUNT on a source that delivers `fail` records `STREAM` with `ERRINFO = 0`; on a symbol after `CNTMAX` symbols
it records `COUNT_OVF` with that symbol, whatever follows. Either way the table keeps the counts of the symbols taken before. -/
def Obligations.CountFaultsKeepPartialCounts : Prop :=
  ∀ (s : State) (xs : List Symbol) (later : List (List (SrcTok Symbol))) (rest : List (SrcTok Symbol)) (code : BitVec 8) (info : Word),
    (s.env.cin.upcoming = streamOf xs .failTok :: later ∧ xs.length ≤ Config.cntmax ∧ code = 5#8 ∧ info = 0#32) ∨
    (∃ c : Symbol, s.env.cin.upcoming = (streamOf xs (.data c) ++ rest) :: later ∧ xs.length = Config.cntmax ∧ code = 6#8 ∧
      info = c.setWidth 32) →
    ∃ freq, Memory.wf Config.nsym 0#32 freq ∧
      (∀ c : Symbol, (Memory.read 0#32 freq c.toNat).toNat = xs.count c) ∧
      exec .count (s.accepted .count) = .next { s with
        status := s.status.afterFault
        regs := { s.regs with errcode := code, errinfo := info }
        tab := { s.tab with freq := freq }
        work := { s.work.idle with op := 0x01#8 }
        env := { s.env.closed with cin := ⟨false, [], later⟩ } }

/-- R136: "The result of COUNT depends only on how many times each symbol value occurs in the instance, not on the order of the tokens." -/
def Obligations.CountIgnoresOrder : Prop :=
  ∀ (s t : State) (xs ys : List Symbol) (later : List (List (SrcTok Symbol))),
    (∀ c, xs.count c = ys.count c) → xs.length ≤ Config.cntmax →
    s.env.cin.upcoming = streamOf xs .endTok :: later →
    exec .count (s.accepted .count) = .next t →
    exec .count ({ s with env := { s.env with cin := { s.env.cin with upcoming := streamOf ys .endTok :: later } } }.accepted .count)
      = .next t

/-! ### BUILD -/

/-- R142, R154, R255: BUILD on a table with a negative entry records `INVALID_INPUT` with the lowest such symbol; with none negative and an exact sum above
`CNTMAX` it records `0xFFFFFFFF`. Every table stays exactly as it was. -/
def Obligations.BuildRejectsInvalidFrequencies : Prop :=
  ∀ (s : State), MemOk s.tab →
    (∀ c : Symbol, (s.tab.freqAt c).msb = true → (∀ d : Symbol, d < c → (s.tab.freqAt d).msb = false) →
      exec .build (s.accepted .build) = .next { s with
        status := s.status.afterFault
        regs := { s.regs with errcode := 2#8, errinfo := c.setWidth 32 }
        work := { s.work.idle with op := 0x02#8 }
        env := s.env.closed }) ∧
    ((∀ c : Symbol, (s.tab.freqAt c).msb = false) → Config.cntmax < totalFreq s.tab →
      exec .build (s.accepted .build) = .next { s with
        status := s.status.afterFault
        regs := { s.regs with errcode := 2#8, errinfo := 0xFFFFFFFF#32 }
        work := { s.work.idle with op := 0x02#8 }
        env := s.env.closed })

/-- R140, R143, R146, R148, R149, R150: BUILD on valid frequencies completes. The leaf of the j-th smallest key has index j - 1 and the key's count as weight; `NNODES` is
0, 2 or `2k - 1`; with no key the tree is absent; with one key node 1 is the synthetic root. The code table is emptied, `FREQ` is
not changed, and the tree satisfies R40. -/
def Obligations.BuildMakesOneLeafPerKey : Prop :=
  ∀ s : State, MemOk s.tab → FreqValid s.tab →
    ∃ (node : List Node) (root : Option Nat) (keys : List Symbol),
      exec .build (s.accepted .build) = .next { s with
        status := s.status.afterDone false
        tab := ⟨s.tab.freq, node, root, node.length, [], 0⟩
        work := { s.work.idle with op := 0x02#8 }
        env := s.env.closed } ∧
      TreeOk ⟨s.tab.freq, node, root, node.length, [], 0⟩ ∧
      keys.Pairwise (· < ·) ∧ (∀ c, c ∈ keys ↔ IsKey s.tab c) ∧
      (∀ (j : Nat) (c : Symbol), keys[j]? = some c → node[j]? = some ⟨(s.tab.freqAt c).toNat, true, c, none, none⟩) ∧
      (keys.length = 0 → node = [] ∧ root = none) ∧
      (∀ c, keys = [c] → root = some 1 ∧
        node = [⟨(s.tab.freqAt c).toNat, true, c, none, none⟩, ⟨(s.tab.freqAt c).toNat, false, 0, none, some 0⟩]) ∧
      (2 ≤ keys.length → node.length = 2 * keys.length - 1 ∧ root = some (2 * keys.length - 2))

/-- R144, R145, R147: with two or more keys, each internal node is made over the two nodes that come first in the queue at that moment, the
first removed on the left, the second on the right, with the sum of their weights. "Terminates in exactly (symbolCount - 1) combine
steps" is `NNODES = 2k - 1`. -/
def Obligations.BuildCombinesTheTwoLeast : Prop :=
  ∀ s t : State, MemOk s.tab → FreqValid s.tab → exec .build (s.accepted .build) = .next t → 2 ≤ leafCount t.tab →
    t.tab.nnodes = 2 * leafCount t.tab - 1 ∧
    ∀ n, leafCount t.tab ≤ n → n < t.tab.nnodes →
      ∃ a b, FirstOf t.tab.node (InQueue t.tab.node n) a ∧
        FirstOf t.tab.node (fun i => InQueue t.tab.node n i ∧ i ≠ a) b ∧
        nodeAt t.tab.node n =
          ⟨(nodeAt t.tab.node a).w + (nodeAt t.tab.node b).w, false, 0, some a, some b⟩

/-- R40 (h), R150: the root weight of the built tree equals the sum of all entries of `FREQ`. -/
def Obligations.RootWeightIsTheSumOfCounts : Prop :=
  ∀ s t : State, MemOk s.tab → FreqValid s.tab → exec .build (s.accepted .build) = .next t →
    weightOf t.tab.node t.tab.root = totalFreq s.tab

/-! ### DERIVE -/

/-- R165, R166, R168, R172: DERIVE on a tree none of whose leaves is deeper than `MAXLEN` completes. Each leaf's symbol gets its path, bit i of the path at bit i of
`bits` and zeros above; no other symbol has a code; `NCODES` is the number of leaves (0 for the absent tree); tree and `FREQ` stay. -/
def Obligations.DeriveStoresEveryLeafPath : Prop :=
  ∀ s : State, TreeOk s.tab →
    (∀ r i p, s.tab.root = some r → (nodeAt s.tab.node i).leaf = true → PathTo s.tab.node r i p → p.length ≤ Config.maxlen) →
    ∃ code, Memory.wf Config.nsym CodeEntry.empty code ∧
      exec .derive (s.accepted .derive) = .next { s with
        status := s.status.afterDone false
        tab := { s.tab with code := code, ncodes := leafCount s.tab }
        work := { s.work.idle with op := 0x03#8 }
        env := s.env.closed } ∧
      (∀ i < leafCount s.tab, ∃ r p, s.tab.root = some r ∧ PathTo s.tab.node r i p ∧
        (Memory.read CodeEntry.empty code (nodeAt s.tab.node i).sym.toNat).len = p.length ∧
        ∀ j, (Memory.read CodeEntry.empty code (nodeAt s.tab.node i).sym.toNat).bits.getLsbD j = p.getD j false) ∧
      ∀ c : Symbol, (∀ i < leafCount s.tab, (nodeAt s.tab.node i).sym ≠ c) →
        Memory.read CodeEntry.empty code c.toNat = ⟨0, 0⟩

/-- R170, R165: if a leaf is deeper than `MAXLEN`, DERIVE records `CODE_LEN` with the symbol of the lowest-indexed such leaf and leaves the code table empty. The
choice of the leaf is stated for every value of the parameter `MAXLEN`. -/
def Obligations.DeriveRejectsTooDeepLeaves : Prop :=
  (∀ (maxlen : Nat) (t : Tables) (r m : Nat) (p : List Bool), TreeOk t → t.root = some r →
    (nodeAt t.node m).leaf = true → PathTo t.node r m p → maxlen < p.length →
    (∀ i < m, ∀ q, (nodeAt t.node i).leaf = true → PathTo t.node r i q → q.length ≤ maxlen) →
    codeLenFault maxlen t = some (nodeAt t.node m).sym) ∧
  ∀ (s : State) (c : Symbol), codeLenFault Config.maxlen s.tab = some c →
    exec .derive (s.accepted .derive) = .next { s with
      status := s.status.afterFault
      regs := { s.regs with errcode := 7#8, errinfo := c.setWidth 32 }
      tab := { s.tab with code := [], ncodes := 0 }
      work := { s.work.idle with op := 0x03#8 }
      env := s.env.closed }

/-- R171, R42: after a DERIVE that completes, `NCODES` is the number of leaves, a symbol has a code exactly when it is the symbol of a leaf, and no
code is a prefix of another. -/
def Obligations.DerivedCodesArePrefixFree : Prop :=
  ∀ s t : State, TreeOk s.tab → exec .derive (s.accepted .derive) = .next t → t.status.done = true →
    t.tab.ncodes = leafCount s.tab ∧
    (∀ c, 0 < (t.tab.codeAt c).len ↔ ∃ i < leafCount s.tab, (nodeAt s.tab.node i).sym = c) ∧
    ∀ c d : Symbol, c ≠ d → 0 < (t.tab.codeAt c).len → 0 < (t.tab.codeAt d).len →
      ¬ (t.tab.codeAt c).path <+: (t.tab.codeAt d).path

/-! ### ENCODE -/

/-- R180, R181, R184, R188, R189, R185: ENCODE on a stream whose every symbol has a code completes. `BOUT` gets byte tokens that carry exactly the codes of the
symbols, one after the other, first stream bit in bit 7; only the last token has padding, and padding bits are 0; then `end`. Nothing else
changes. With the empty stream the output is `end` alone. -/
def Obligations.EncodeWritesThePackedCodes : Prop :=
  ∀ (s : State) (xs : List Symbol) (later : List (List (SrcTok Symbol))),
    s.env.cin.upcoming = streamOf xs .endTok :: later → SinkTakesAll s.env.bout →
    (∀ c ∈ xs, (s.tab.codeAt c).len ≠ 0) →
    ∃ (bs : List ByteTok) (bout : SinkPort ByteTok),
      Packs (codesOf s.tab xs) bs ∧
      bout.got = takenOk (bs.map .data ++ [.endTok]) :: s.env.bout.got ∧ SinkTakesAll bout ∧
      exec .encode (s.accepted .encode) = .next { s with
        status := s.status.afterDone false
        work := { s.work.idle with op := 0x04#8 }
        env := { s.env.closed with cin := ⟨false, [], later⟩, bout := bout } }

/-- R186, R187, R190, R255: ENCODE on a symbol without a code records `NO_CODE` with the symbol. `BOUT` has the whole bytes of the codes before it, and then
`abort`; the bits waiting in the buffer are dropped, no bit of the symbol is written, and what follows on `CIN` is not read. With an
empty table this is the first symbol. -/
def Obligations.EncodeFaultsOnMissingCode : Prop :=
  ∀ (s : State) (xs : List Symbol) (c : Symbol) (rest : List (SrcTok Symbol)) (later : List (List (SrcTok Symbol))),
    s.env.cin.upcoming = (streamOf xs (.data c) ++ rest) :: later → SinkTakesAll s.env.bout →
    (∀ x ∈ xs, (s.tab.codeAt x).len ≠ 0) → (s.tab.codeAt c).len = 0 →
    ∃ (bs : List ByteTok) (bout : SinkPort ByteTok),
      streamBits bs = (codesOf s.tab xs).take (8 * ((codesOf s.tab xs).length / 8)) ∧ (∀ b ∈ bs, b.p = 0#3) ∧
      bout.got = takenOk (bs.map .data ++ [.abortTok]) :: s.env.bout.got ∧ SinkTakesAll bout ∧
      exec .encode (s.accepted .encode) = .next { s with
        status := s.status.afterFault
        regs := { s.regs with errcode := 3#8, errinfo := c.setWidth 32 }
        work := { s.work.idle with op := 0x04#8 }
        env := { s.env.closed with cin := ⟨false, [], later⟩, bout := bout } }

/-! ### DECODE -/

/-- R200, R201, R204 to R208, R210: DECODE with a tree walks the meaningful bits of its byte tokens, left on 0, right on 1. If the walk stays in
the tree and `end` follows, `COUT` gets the symbols of the leaves reached, then `end`; the command completes and `TRUNC` says whether the cursor
was away from the root. If a bit selects an absent child, `COUT` gets the symbols before it, then `abort`, and the fault is `WALK_OFF` with the
node's index, whatever follows on `BIN`: further bytes, `end`, `fail` or nothing yet. No table changes. -/
def Obligations.DecodeWalksTheTree : Prop :=
  ∀ (s : State) (r : Nat) (bs : List ByteTok) (rest : List (SrcTok ByteTok)) (later : List (List (SrcTok ByteTok))),
    s.tab.root = some r → s.env.bin.upcoming = (bs.map .data ++ rest) :: later → SinkTakesAll s.env.cout →
    ∃ cout : SinkPort Symbol, SinkTakesAll cout ∧
      (∀ ys cur, rest = [.endTok] → walk s.tab.node r r (streamBits bs) = (ys, .atNode cur) →
        cout.got = takenOk (ys.map .data ++ [.endTok]) :: s.env.cout.got ∧
        exec .decode (s.accepted .decode) = .next { s with
          status := s.status.afterDone (cur != r)
          work := { s.work.idle with op := 0x05#8 }
          env := { s.env.closed with bin := ⟨false, [], later⟩, cout := cout } }) ∧
      (∀ ys cur, walk s.tab.node r r (streamBits bs) = (ys, .offNode cur) →
        cout.got = takenOk (ys.map .data ++ [.abortTok]) :: s.env.cout.got ∧
        exec .decode (s.accepted .decode) = .next { s with
          status := s.status.afterFault
          regs := { s.regs with errcode := 4#8, errinfo := BitVec.ofNat 32 cur }
          work := { s.work.idle with op := 0x05#8 }
          env := { s.env.closed with bin := ⟨false, [], later⟩, cout := cout } })

/-- R202, R149: with an absent tree DECODE writes `end` on `COUT`, reads no token of `BIN`, leaves `TRUNC = 0` and completes; the instance is closed unread. -/
def Obligations.DecodeWithAbsentTree : Prop :=
  ∀ s : State, s.tab.root = none → SinkTakesAll s.env.cout →
    ∃ cout : SinkPort Symbol, cout.got = takenOk [.endTok] :: s.env.cout.got ∧
      exec .decode (s.accepted .decode) = .next { s with
        status := s.status.afterDone false
        work := { s.work.idle with op := 0x05#8 }
        env := { s.env.closed with bin := ⟨false, [], s.env.bin.upcoming.tail⟩, cout := cout } }

/-- R207, R209, R151: in a tree that satisfies R40, the walk runs off exactly when the tree has one symbol and a 0 bit is read, and then at node 1, the synthetic root; so on a
tree of two or more symbols DECODE completes whatever the bits are. With one symbol, m bits of 1 give the symbol m times. -/
def Obligations.WalkOffOnlyInOneSymbolTrees : Prop :=
  ∀ (t : Tables) (r : Nat) (bits : List Bool), TreeOk t → t.root = some r →
    ((∃ ys cur, walk t.node r r bits = (ys, .offNode cur)) ↔ leafCount t = 1 ∧ false ∈ bits) ∧
    (∀ ys cur, walk t.node r r bits = (ys, .offNode cur) → cur = 1) ∧
    (leafCount t = 1 → ∀ m, walk t.node r r (List.replicate m true) =
      (List.replicate m (nodeAt t.node 0).sym, .atNode r))

/-- R74, R190, R210, R262: a source that delivers `fail` makes ENCODE and DECODE record `STREAM` with the source's identifier, after the whole bytes, or the symbols, that
were complete before it, and then `abort`. -/
def Obligations.SourceFailureAborts : Prop :=
  (∀ (s : State) (xs : List Symbol) (later : List (List (SrcTok Symbol))),
    s.env.cin.upcoming = streamOf xs .failTok :: later → SinkTakesAll s.env.bout →
    (∀ x ∈ xs, (s.tab.codeAt x).len ≠ 0) →
    ∃ (bs : List ByteTok) (bout : SinkPort ByteTok),
      streamBits bs = (codesOf s.tab xs).take (8 * ((codesOf s.tab xs).length / 8)) ∧ (∀ b ∈ bs, b.p = 0#3) ∧
      bout.got = takenOk (bs.map .data ++ [.abortTok]) :: s.env.bout.got ∧ SinkTakesAll bout ∧
      exec .encode (s.accepted .encode) = .next { s with
        status := s.status.afterFault
        regs := { s.regs with errcode := 5#8, errinfo := 0#32 }
        work := { s.work.idle with op := 0x04#8 }
        env := { s.env.closed with cin := ⟨false, [], later⟩, bout := bout } }) ∧
  ∀ (s : State) (r : Nat) (bs : List ByteTok) (ys : List Symbol) (cur : Nat) (later : List (List (SrcTok ByteTok))),
    s.tab.root = some r → s.env.bin.upcoming = streamOf bs .failTok :: later → SinkTakesAll s.env.cout →
    walk s.tab.node r r (streamBits bs) = (ys, .atNode cur) →
    ∃ cout : SinkPort Symbol, cout.got = takenOk (ys.map .data ++ [.abortTok]) :: s.env.cout.got ∧
      exec .decode (s.accepted .decode) = .next { s with
        status := s.status.afterFault
        regs := { s.regs with errcode := 5#8, errinfo := 1#32 }
        work := { s.work.idle with op := 0x05#8 }
        env := { s.env.closed with bin := ⟨false, [], later⟩, cout := cout } }

/-! ### The pipeline -/

/-- R205, R211 (its last step): on a state whose code table was derived from its tree, walking the codes of a symbol sequence gives the sequence back and ends at the
root. -/
def Obligations.WalkingTheCodesGivesTheSymbols : Prop :=
  ∀ (t : Tables) (r : Nat) (xs : List Symbol), TreeOk t → t.root = some r → t = t.withCodes →
    codeLenFault Config.maxlen t = none → (∀ c ∈ xs, (t.codeAt c).len ≠ 0) →
    walk t.node r r (codesOf t xs) = (xs, .atNode r)

/-- R211, the round-trip law: COUNT on `xs`, BUILD, DERIVE, ENCODE on `xs`, then DECODE of the byte tokens that ENCODE wrote. No command faults (given that no code is longer than `MAXLEN`,
R170), `COUT` receives exactly `xs` and `end`, and `TRUNC = 0`. `xs` may be empty. -/
def Obligations.PipelineRoundTrip : Prop :=
  ∀ (s : State) (xs : List Symbol) (later : List (List (SrcTok Symbol))),
    s.status.err = false → xs.length ≤ Config.cntmax →
    s.env.cin.upcoming = streamOf xs .endTok :: streamOf xs .endTok :: later →
    SinkTakesAll s.env.bout → SinkTakesAll s.env.cout →
    ∃ s1 s2, exec .count (s.accepted .count) = .next s1 ∧ exec .build (s1.accepted .build) = .next s2 ∧
      s1.status.done = true ∧ s2.status.done = true ∧
      (codeLenFault Config.maxlen s2.tab = none →
        ∃ (s3 s4 : State) (bs : List ByteTok),
          exec .derive (s2.accepted .derive) = .next s3 ∧ exec .encode (s3.accepted .encode) = .next s4 ∧
          s3.status.done = true ∧ s4.status.done = true ∧
          s4.env.bout.got = takenOk (bs.map .data ++ [.endTok]) :: s.env.bout.got ∧
          ∀ laterB, ∃ s5,
            exec .decode ({ s4 with env := { s4.env with
              bin := { s4.env.bin with upcoming := streamOf bs .endTok :: laterB } } }.accepted .decode) = .next s5 ∧
            s5.env.cout.got = takenOk (xs.map .data ++ [.endTok]) :: s.env.cout.got ∧
            s5.status.done = true ∧ s5.status.err = false ∧ s5.status.trunc = false)
end

