-- ==== Sys2Proof/Laws/State.lean ====
section
/-! SUPPORT. One lemma per field per update (true by rfl, tagged simp), so that no later proof unfolds a record update. -/

namespace Sys2Proof.Machine


/-! ### The machine -/

@[simp] theorem State_accept_status (s : State) (w : Word) (i : Instr) : (s.accept w i).status = s.status.accepted := rfl
@[simp] theorem State_accept_regs (s : State) (w : Word) (i : Instr) : (s.accept w i).regs = s.regs := rfl
@[simp] theorem State_accept_tab (s : State) (w : Word) (i : Instr) : (s.accept w i).tab = s.tab := rfl
@[simp] theorem State_accept_work (s : State) (w : Word) (i : Instr) : (s.accept w i).work = { s.work.idle with op := w.extractLsb' 0 8 } := rfl
@[simp] theorem State_accept_env (s : State) (w : Word) (i : Instr) : (s.accept w i).env = s.env.opened i := rfl
@[simp] theorem State_accept_script (s : State) (w : Word) (i : Instr) : (s.accept w i).script = s.script := rfl
@[simp] theorem State_accept_reads (s : State) (w : Word) (i : Instr) : (s.accept w i).reads = s.reads := rfl
@[simp] theorem State_accept_draws (s : State) (w : Word) (i : Instr) : (s.accept w i).draws = s.draws := rfl
@[simp] theorem State_accepted_status (s : State) (i : Instr) : (s.accepted i).status = s.status.accepted := rfl
@[simp] theorem State_accepted_regs (s : State) (i : Instr) : (s.accepted i).regs = s.regs := rfl
@[simp] theorem State_accepted_tab (s : State) (i : Instr) : (s.accepted i).tab = s.tab := rfl
@[simp] theorem State_accepted_work (s : State) (i : Instr) : (s.accepted i).work = { s.work.idle with op := (Sys2Proof.encode i).extractLsb' 0 8 } := rfl
@[simp] theorem State_accepted_env (s : State) (i : Instr) : (s.accepted i).env = s.env.opened i := rfl
@[simp] theorem State_accepted_script (s : State) (i : Instr) : (s.accepted i).script = s.script := rfl
@[simp] theorem State_accepted_reads (s : State) (i : Instr) : (s.accepted i).reads = s.reads := rfl
@[simp] theorem State_accepted_draws (s : State) (i : Instr) : (s.accepted i).draws = s.draws := rfl
@[simp] theorem State_reject_status (s : State) : (s.reject).status = s.status.rejected := rfl
@[simp] theorem State_reject_regs (s : State) : (s.reject).regs = s.regs := rfl
@[simp] theorem State_reject_tab (s : State) : (s.reject).tab = s.tab := rfl
@[simp] theorem State_reject_work (s : State) : (s.reject).work = s.work := rfl
@[simp] theorem State_reject_env (s : State) : (s.reject).env = s.env := rfl
@[simp] theorem State_reject_script (s : State) : (s.reject).script = s.script := rfl
@[simp] theorem State_reject_reads (s : State) : (s.reject).reads = s.reads := rfl
@[simp] theorem State_reject_draws (s : State) : (s.reject).draws = s.draws := rfl
@[simp] theorem State_complete_status (s : State) : (s.complete).status = s.status.completed := rfl
@[simp] theorem State_complete_regs (s : State) : (s.complete).regs = s.regs := rfl
@[simp] theorem State_complete_tab (s : State) : (s.complete).tab = s.tab := rfl
@[simp] theorem State_complete_work (s : State) : (s.complete).work = s.work.idle := rfl
@[simp] theorem State_complete_env (s : State) : (s.complete).env = s.env.closed := rfl
@[simp] theorem State_complete_script (s : State) : (s.complete).script = s.script := rfl
@[simp] theorem State_complete_reads (s : State) : (s.complete).reads = s.reads := rfl
@[simp] theorem State_complete_draws (s : State) : (s.complete).draws = s.draws := rfl
@[simp] theorem State_takeFault_status (s : State) (code : FaultCode) (info : Word) : (s.takeFault code info).status = s.status.faulted := rfl
@[simp] theorem State_takeFault_regs (s : State) (code : FaultCode) (info : Word) : (s.takeFault code info).regs = { s.regs with errcode := code.code, errinfo := info } := rfl
@[simp] theorem State_takeFault_tab (s : State) (code : FaultCode) (info : Word) : (s.takeFault code info).tab = s.tab := rfl
@[simp] theorem State_takeFault_work (s : State) (code : FaultCode) (info : Word) : (s.takeFault code info).work = s.work.idle := rfl
@[simp] theorem State_takeFault_env (s : State) (code : FaultCode) (info : Word) : (s.takeFault code info).env = s.env.closed := rfl
@[simp] theorem State_takeFault_script (s : State) (code : FaultCode) (info : Word) : (s.takeFault code info).script = s.script := rfl
@[simp] theorem State_takeFault_reads (s : State) (code : FaultCode) (info : Word) : (s.takeFault code info).reads = s.reads := rfl
@[simp] theorem State_takeFault_draws (s : State) (code : FaultCode) (info : Word) : (s.takeFault code info).draws = s.draws := rfl
@[simp] theorem State_leaveFault_status (s : State) : (s.leaveFault).status = s.status.errCleared := rfl
@[simp] theorem State_leaveFault_regs (s : State) : (s.leaveFault).regs = { s.regs with errcode := 0#8, errinfo := 0#32 } := rfl
@[simp] theorem State_leaveFault_tab (s : State) : (s.leaveFault).tab = s.tab := rfl
@[simp] theorem State_leaveFault_work (s : State) : (s.leaveFault).work = s.work := rfl
@[simp] theorem State_leaveFault_env (s : State) : (s.leaveFault).env = s.env := rfl
@[simp] theorem State_leaveFault_script (s : State) : (s.leaveFault).script = s.script := rfl
@[simp] theorem State_leaveFault_reads (s : State) : (s.leaveFault).reads = s.reads := rfl
@[simp] theorem State_leaveFault_draws (s : State) : (s.leaveFault).draws = s.draws := rfl
@[simp] theorem State_hardReset_status (s : State) : (s.hardReset).status = Status.reset := rfl
@[simp] theorem State_hardReset_regs (s : State) : (s.hardReset).regs = Regs.reset := rfl
@[simp] theorem State_hardReset_tab (s : State) : (s.hardReset).tab = Tables.reset := rfl
@[simp] theorem State_hardReset_work (s : State) : (s.hardReset).work = Work.reset := rfl
@[simp] theorem State_hardReset_env (s : State) : (s.hardReset).env = s.env.closed := rfl
@[simp] theorem State_hardReset_script (s : State) : (s.hardReset).script = s.script := rfl
@[simp] theorem State_hardReset_reads (s : State) : (s.hardReset).reads = s.reads := rfl
@[simp] theorem State_hardReset_draws (s : State) : (s.hardReset).draws = s.draws := rfl
@[simp] theorem State_goto_status (s : State) (p : Phase) : (s.goto p).status = s.status := rfl
@[simp] theorem State_goto_regs (s : State) (p : Phase) : (s.goto p).regs = s.regs := rfl
@[simp] theorem State_goto_tab (s : State) (p : Phase) : (s.goto p).tab = s.tab := rfl
@[simp] theorem State_goto_work (s : State) (p : Phase) : (s.goto p).work = { s.work with phase := p } := rfl
@[simp] theorem State_goto_env (s : State) (p : Phase) : (s.goto p).env = s.env := rfl
@[simp] theorem State_goto_script (s : State) (p : Phase) : (s.goto p).script = s.script := rfl
@[simp] theorem State_goto_reads (s : State) (p : Phase) : (s.goto p).reads = s.reads := rfl
@[simp] theorem State_goto_draws (s : State) (p : Phase) : (s.goto p).draws = s.draws := rfl
@[simp] theorem State_build_status (s : State) : (s.build).status = s.status.completed := rfl
@[simp] theorem State_build_regs (s : State) : (s.build).regs = s.regs := rfl
@[simp] theorem State_build_tab (s : State) : (s.build).tab = s.tab.withTree := rfl
@[simp] theorem State_build_work (s : State) : (s.build).work = s.work.idle := rfl
@[simp] theorem State_build_env (s : State) : (s.build).env = s.env.closed := rfl
@[simp] theorem State_build_script (s : State) : (s.build).script = s.script := rfl
@[simp] theorem State_build_reads (s : State) : (s.build).reads = s.reads := rfl
@[simp] theorem State_build_draws (s : State) : (s.build).draws = s.draws := rfl
@[simp] theorem State_pushBit_status (s : State) (b : Bool) : (s.pushBit b).status = s.status := rfl
@[simp] theorem State_pushBit_regs (s : State) (b : Bool) : (s.pushBit b).regs = s.regs := rfl
@[simp] theorem State_pushBit_tab (s : State) (b : Bool) : (s.pushBit b).tab = s.tab := rfl
@[simp] theorem State_pushBit_work (s : State) (b : Bool) : (s.pushBit b).work = { s.work with bitbuf := setBit s.work.bitbuf (7 - s.work.bitcnt) b, bitcnt := s.work.bitcnt + 1 } := rfl
@[simp] theorem State_pushBit_env (s : State) (b : Bool) : (s.pushBit b).env = s.env := rfl
@[simp] theorem State_pushBit_script (s : State) (b : Bool) : (s.pushBit b).script = s.script := rfl
@[simp] theorem State_pushBit_reads (s : State) (b : Bool) : (s.pushBit b).reads = s.reads := rfl
@[simp] theorem State_pushBit_draws (s : State) (b : Bool) : (s.pushBit b).draws = s.draws := rfl
@[simp] theorem State_clearBitBuf_status (s : State) : (s.clearBitBuf).status = s.status := rfl
@[simp] theorem State_clearBitBuf_regs (s : State) : (s.clearBitBuf).regs = s.regs := rfl
@[simp] theorem State_clearBitBuf_tab (s : State) : (s.clearBitBuf).tab = s.tab := rfl
@[simp] theorem State_clearBitBuf_work (s : State) : (s.clearBitBuf).work = { s.work with bitbuf := 0#8, bitcnt := 0 } := rfl
@[simp] theorem State_clearBitBuf_env (s : State) : (s.clearBitBuf).env = s.env := rfl
@[simp] theorem State_clearBitBuf_script (s : State) : (s.clearBitBuf).script = s.script := rfl
@[simp] theorem State_clearBitBuf_reads (s : State) : (s.clearBitBuf).reads = s.reads := rfl
@[simp] theorem State_clearBitBuf_draws (s : State) : (s.clearBitBuf).draws = s.draws := rfl
@[simp] theorem State_loadByte_status (s : State) (t : ByteTok) : (s.loadByte t).status = s.status := rfl
@[simp] theorem State_loadByte_regs (s : State) (t : ByteTok) : (s.loadByte t).regs = s.regs := rfl
@[simp] theorem State_loadByte_tab (s : State) (t : ByteTok) : (s.loadByte t).tab = s.tab := rfl
@[simp] theorem State_loadByte_work (s : State) (t : ByteTok) : (s.loadByte t).work = { s.work with bitbuf := t.d, bitcnt := 8 - t.p.toNat } := rfl
@[simp] theorem State_loadByte_env (s : State) (t : ByteTok) : (s.loadByte t).env = s.env := rfl
@[simp] theorem State_loadByte_script (s : State) (t : ByteTok) : (s.loadByte t).script = s.script := rfl
@[simp] theorem State_loadByte_reads (s : State) (t : ByteTok) : (s.loadByte t).reads = s.reads := rfl
@[simp] theorem State_loadByte_draws (s : State) (t : ByteTok) : (s.loadByte t).draws = s.draws := rfl
@[simp] theorem State_shiftBit_status (s : State) : (s.shiftBit).status = s.status := rfl
@[simp] theorem State_shiftBit_regs (s : State) : (s.shiftBit).regs = s.regs := rfl
@[simp] theorem State_shiftBit_tab (s : State) : (s.shiftBit).tab = s.tab := rfl
@[simp] theorem State_shiftBit_work (s : State) : (s.shiftBit).work = { s.work with bitbuf := s.work.bitbuf <<< 1, bitcnt := s.work.bitcnt - 1 } := rfl
@[simp] theorem State_shiftBit_env (s : State) : (s.shiftBit).env = s.env := rfl
@[simp] theorem State_shiftBit_script (s : State) : (s.shiftBit).script = s.script := rfl
@[simp] theorem State_shiftBit_reads (s : State) : (s.shiftBit).reads = s.reads := rfl
@[simp] theorem State_shiftBit_draws (s : State) : (s.shiftBit).draws = s.draws := rfl
@[simp] theorem State_setCur_status (s : State) (i : Option Nat) : (s.setCur i).status = s.status := rfl
@[simp] theorem State_setCur_regs (s : State) (i : Option Nat) : (s.setCur i).regs = s.regs := rfl
@[simp] theorem State_setCur_tab (s : State) (i : Option Nat) : (s.setCur i).tab = s.tab := rfl
@[simp] theorem State_setCur_work (s : State) (i : Option Nat) : (s.setCur i).work = { s.work with cur := i } := rfl
@[simp] theorem State_setCur_env (s : State) (i : Option Nat) : (s.setCur i).env = s.env := rfl
@[simp] theorem State_setCur_script (s : State) (i : Option Nat) : (s.setCur i).script = s.script := rfl
@[simp] theorem State_setCur_reads (s : State) (i : Option Nat) : (s.setCur i).reads = s.reads := rfl
@[simp] theorem State_setCur_draws (s : State) (i : Option Nat) : (s.setCur i).draws = s.draws := rfl
@[simp] theorem State_hostRead_status (s : State) (off : Nat) : (s.hostRead off).status = s.status := rfl
@[simp] theorem State_hostRead_regs (s : State) (off : Nat) : (s.hostRead off).regs = s.regs := rfl
@[simp] theorem State_hostRead_tab (s : State) (off : Nat) : (s.hostRead off).tab = s.tab := rfl
@[simp] theorem State_hostRead_work (s : State) (off : Nat) : (s.hostRead off).work = s.work := rfl
@[simp] theorem State_hostRead_env (s : State) (off : Nat) : (s.hostRead off).env = s.env := rfl
@[simp] theorem State_hostRead_script (s : State) (off : Nat) : (s.hostRead off).script = s.script := rfl
@[simp] theorem State_hostRead_reads (s : State) (off : Nat) : (s.hostRead off).reads = ⟨off, s.readValue (regAt off)⟩ :: s.reads := rfl
@[simp] theorem State_hostRead_draws (s : State) (off : Nat) : (s.hostRead off).draws = (if s.readIsFree (regAt off) then s.draws + 1 else s.draws) := rfl

/-! ### The working registers -/

@[simp] theorem Work_idle_op (w : Work) : (w.idle).op = w.op := rfl
@[simp] theorem Work_idle_pq (w : Work) : (w.idle).pq = [] := rfl
@[simp] theorem Work_idle_bitbuf (w : Work) : (w.idle).bitbuf = 0#8 := rfl
@[simp] theorem Work_idle_bitcnt (w : Work) : (w.idle).bitcnt = 0 := rfl
@[simp] theorem Work_idle_cur (w : Work) : (w.idle).cur = none := rfl
@[simp] theorem Work_idle_phase (w : Work) : (w.idle).phase = .start := rfl

/-! ### The flags -/

@[simp] theorem Status_accepted_busy (f : Status) : (f.accepted).busy = true := rfl
@[simp] theorem Status_accepted_done (f : Status) : (f.accepted).done = false := rfl
@[simp] theorem Status_accepted_err (f : Status) : (f.accepted).err = f.err := rfl
@[simp] theorem Status_accepted_rej (f : Status) : (f.accepted).rej = f.rej := rfl
@[simp] theorem Status_accepted_trunc (f : Status) : (f.accepted).trunc = false := rfl
@[simp] theorem Status_rejected_busy (f : Status) : (f.rejected).busy = f.busy := rfl
@[simp] theorem Status_rejected_done (f : Status) : (f.rejected).done = f.done := rfl
@[simp] theorem Status_rejected_err (f : Status) : (f.rejected).err = f.err := rfl
@[simp] theorem Status_rejected_rej (f : Status) : (f.rejected).rej = true := rfl
@[simp] theorem Status_rejected_trunc (f : Status) : (f.rejected).trunc = f.trunc := rfl
@[simp] theorem Status_completed_busy (f : Status) : (f.completed).busy = false := rfl
@[simp] theorem Status_completed_done (f : Status) : (f.completed).done = true := rfl
@[simp] theorem Status_completed_err (f : Status) : (f.completed).err = f.err := rfl
@[simp] theorem Status_completed_rej (f : Status) : (f.completed).rej = f.rej := rfl
@[simp] theorem Status_completed_trunc (f : Status) : (f.completed).trunc = f.trunc := rfl
@[simp] theorem Status_faulted_busy (f : Status) : (f.faulted).busy = false := rfl
@[simp] theorem Status_faulted_done (f : Status) : (f.faulted).done = false := rfl
@[simp] theorem Status_faulted_err (f : Status) : (f.faulted).err = true := rfl
@[simp] theorem Status_faulted_rej (f : Status) : (f.faulted).rej = f.rej := rfl
@[simp] theorem Status_faulted_trunc (f : Status) : (f.faulted).trunc = f.trunc := rfl
@[simp] theorem Status_errCleared_busy (f : Status) : (f.errCleared).busy = f.busy := rfl
@[simp] theorem Status_errCleared_done (f : Status) : (f.errCleared).done = f.done := rfl
@[simp] theorem Status_errCleared_err (f : Status) : (f.errCleared).err = false := rfl
@[simp] theorem Status_errCleared_rej (f : Status) : (f.errCleared).rej = f.rej := rfl
@[simp] theorem Status_errCleared_trunc (f : Status) : (f.errCleared).trunc = f.trunc := rfl
@[simp] theorem Status_withTrunc_busy (f : Status) (t : Bool) : (f.withTrunc t).busy = f.busy := rfl
@[simp] theorem Status_withTrunc_done (f : Status) (t : Bool) : (f.withTrunc t).done = f.done := rfl
@[simp] theorem Status_withTrunc_err (f : Status) (t : Bool) : (f.withTrunc t).err = f.err := rfl
@[simp] theorem Status_withTrunc_rej (f : Status) (t : Bool) : (f.withTrunc t).rej = f.rej := rfl
@[simp] theorem Status_withTrunc_trunc (f : Status) (t : Bool) : (f.withTrunc t).trunc = t := rfl
@[simp] theorem Status_hostWritten_busy (f : Status) (v : Word) : (f.hostWritten v).busy = f.busy := rfl
@[simp] theorem Status_hostWritten_done (f : Status) (v : Word) : (f.hostWritten v).done = (f.done && !v.getLsbD 1) := rfl
@[simp] theorem Status_hostWritten_err (f : Status) (v : Word) : (f.hostWritten v).err = f.err := rfl
@[simp] theorem Status_hostWritten_rej (f : Status) (v : Word) : (f.hostWritten v).rej = (f.rej && !v.getLsbD 3) := rfl
@[simp] theorem Status_hostWritten_trunc (f : Status) (v : Word) : (f.hostWritten v).trunc = f.trunc := rfl

/-! ### The tables -/

@[simp] theorem Tables_setFreq_freq (t : Tables) (c : Symbol) (v : Word) : (t.setFreq c v).freq = Memory.write 0#32 t.freq c.toNat v := rfl
@[simp] theorem Tables_setFreq_node (t : Tables) (c : Symbol) (v : Word) : (t.setFreq c v).node = t.node := rfl
@[simp] theorem Tables_setFreq_root (t : Tables) (c : Symbol) (v : Word) : (t.setFreq c v).root = t.root := rfl
@[simp] theorem Tables_setFreq_nnodes (t : Tables) (c : Symbol) (v : Word) : (t.setFreq c v).nnodes = t.nnodes := rfl
@[simp] theorem Tables_setFreq_code (t : Tables) (c : Symbol) (v : Word) : (t.setFreq c v).code = t.code := rfl
@[simp] theorem Tables_setFreq_ncodes (t : Tables) (c : Symbol) (v : Word) : (t.setFreq c v).ncodes = t.ncodes := rfl
@[simp] theorem Tables_countSymbol_freq (t : Tables) (c : Symbol) : (t.countSymbol c).freq = Memory.write 0#32 t.freq c.toNat (t.freqAt c + 1#32) := rfl
@[simp] theorem Tables_countSymbol_node (t : Tables) (c : Symbol) : (t.countSymbol c).node = t.node := rfl
@[simp] theorem Tables_countSymbol_root (t : Tables) (c : Symbol) : (t.countSymbol c).root = t.root := rfl
@[simp] theorem Tables_countSymbol_nnodes (t : Tables) (c : Symbol) : (t.countSymbol c).nnodes = t.nnodes := rfl
@[simp] theorem Tables_countSymbol_code (t : Tables) (c : Symbol) : (t.countSymbol c).code = t.code := rfl
@[simp] theorem Tables_countSymbol_ncodes (t : Tables) (c : Symbol) : (t.countSymbol c).ncodes = t.ncodes := rfl
@[simp] theorem Tables_emptyFreq_freq (t : Tables) : (t.emptyFreq).freq = [] := rfl
@[simp] theorem Tables_emptyFreq_node (t : Tables) : (t.emptyFreq).node = t.node := rfl
@[simp] theorem Tables_emptyFreq_root (t : Tables) : (t.emptyFreq).root = t.root := rfl
@[simp] theorem Tables_emptyFreq_nnodes (t : Tables) : (t.emptyFreq).nnodes = t.nnodes := rfl
@[simp] theorem Tables_emptyFreq_code (t : Tables) : (t.emptyFreq).code = t.code := rfl
@[simp] theorem Tables_emptyFreq_ncodes (t : Tables) : (t.emptyFreq).ncodes = t.ncodes := rfl
@[simp] theorem Tables_emptyCode_freq (t : Tables) : (t.emptyCode).freq = t.freq := rfl
@[simp] theorem Tables_emptyCode_node (t : Tables) : (t.emptyCode).node = t.node := rfl
@[simp] theorem Tables_emptyCode_root (t : Tables) : (t.emptyCode).root = t.root := rfl
@[simp] theorem Tables_emptyCode_nnodes (t : Tables) : (t.emptyCode).nnodes = t.nnodes := rfl
@[simp] theorem Tables_emptyCode_code (t : Tables) : (t.emptyCode).code = [] := rfl
@[simp] theorem Tables_emptyCode_ncodes (t : Tables) : (t.emptyCode).ncodes = 0 := rfl
@[simp] theorem Tables_dropTree_freq (t : Tables) : (t.dropTree).freq = t.freq := rfl
@[simp] theorem Tables_dropTree_node (t : Tables) : (t.dropTree).node = [] := rfl
@[simp] theorem Tables_dropTree_root (t : Tables) : (t.dropTree).root = none := rfl
@[simp] theorem Tables_dropTree_nnodes (t : Tables) : (t.dropTree).nnodes = 0 := rfl
@[simp] theorem Tables_dropTree_code (t : Tables) : (t.dropTree).code = t.code := rfl
@[simp] theorem Tables_dropTree_ncodes (t : Tables) : (t.dropTree).ncodes = t.ncodes := rfl
@[simp] theorem Tables_withTree_freq (t : Tables) : (t.withTree).freq = t.freq := rfl
@[simp] theorem Tables_withTree_node (t : Tables) : (t.withTree).node = (buildTree t.freq).1 := rfl
@[simp] theorem Tables_withTree_root (t : Tables) : (t.withTree).root = (buildTree t.freq).2.1 := rfl
@[simp] theorem Tables_withTree_nnodes (t : Tables) : (t.withTree).nnodes = (buildTree t.freq).1.length := rfl
@[simp] theorem Tables_withTree_code (t : Tables) : (t.withTree).code = [] := rfl
@[simp] theorem Tables_withTree_ncodes (t : Tables) : (t.withTree).ncodes = 0 := rfl
@[simp] theorem Tables_withCodes_freq (t : Tables) : (t.withCodes).freq = t.freq := rfl
@[simp] theorem Tables_withCodes_node (t : Tables) : (t.withCodes).node = t.node := rfl
@[simp] theorem Tables_withCodes_root (t : Tables) : (t.withCodes).root = t.root := rfl
@[simp] theorem Tables_withCodes_nnodes (t : Tables) : (t.withCodes).nnodes = t.nnodes := rfl
@[simp] theorem Tables_withCodes_code (t : Tables) : (t.withCodes).code = codeTable t.node (leafPaths t.node t.root) := rfl
@[simp] theorem Tables_withCodes_ncodes (t : Tables) : (t.withCodes).ncodes = (leafPaths t.node t.root).length := rfl

/-! ### The source ports -/

@[simp] theorem SourcePort_opened_isOpen {α : Type} (p : SourcePort α) : (p.opened).isOpen = true := rfl
@[simp] theorem SourcePort_opened_avail {α : Type} (p : SourcePort α) : (p.opened).avail = p.upcoming.headD [] := rfl
@[simp] theorem SourcePort_opened_upcoming {α : Type} (p : SourcePort α) : (p.opened).upcoming = p.upcoming.tail := rfl
@[simp] theorem SourcePort_closed_isOpen {α : Type} (p : SourcePort α) : (p.closed).isOpen = false := rfl
@[simp] theorem SourcePort_closed_avail {α : Type} (p : SourcePort α) : (p.closed).avail = [] := rfl
@[simp] theorem SourcePort_closed_upcoming {α : Type} (p : SourcePort α) : (p.closed).upcoming = p.upcoming := rfl
@[simp] theorem SourcePort_prepare_isOpen {α : Type} (p : SourcePort α) (ts : List (SrcTok α)) : (p.prepare ts).isOpen = p.isOpen := rfl
@[simp] theorem SourcePort_prepare_avail {α : Type} (p : SourcePort α) (ts : List (SrcTok α)) : (p.prepare ts).avail = p.avail := rfl
@[simp] theorem SourcePort_prepare_upcoming {α : Type} (p : SourcePort α) (ts : List (SrcTok α)) : (p.prepare ts).upcoming = p.upcoming ++ [ts] := rfl

/-! ### The sink ports -/

@[simp] theorem SinkPort_opened_answers {α : Type} (p : SinkPort α) : (p.opened).answers = p.answers := rfl
@[simp] theorem SinkPort_opened_thereafter {α : Type} (p : SinkPort α) : (p.opened).thereafter = p.thereafter := rfl
@[simp] theorem SinkPort_opened_got {α : Type} (p : SinkPort α) : (p.opened).got = [] :: p.got := rfl
@[simp] theorem SinkPort_answer_answers {α : Type} (p : SinkPort α) (as : List Answer) (a : Option Answer) : (p.answer as a).answers = as := rfl
@[simp] theorem SinkPort_answer_thereafter {α : Type} (p : SinkPort α) (as : List Answer) (a : Option Answer) : (p.answer as a).thereafter = a := rfl
@[simp] theorem SinkPort_answer_got {α : Type} (p : SinkPort α) (as : List Answer) (a : Option Answer) : (p.answer as a).got = p.got := rfl

/-! ### The environment -/

@[simp] theorem Env_closed_cin (e : Env) : (e.closed).cin = e.cin.closed := rfl
@[simp] theorem Env_closed_bin (e : Env) : (e.closed).bin = e.bin.closed := rfl
@[simp] theorem Env_closed_bout (e : Env) : (e.closed).bout = e.bout := rfl
@[simp] theorem Env_closed_cout (e : Env) : (e.closed).cout = e.cout := rfl

end Sys2Proof.Machine
end

