-- ==== Sys2Proof/Laws/Memory.lean ====
section
/-! SUPPORT. The laws of the canonical memories: read after write, and that every write keeps the form. -/

namespace Sys2Proof.Machine

variable {α : Type} {d : α}

@[simp] theorem Memory_read_nil (a : Nat) : Memory.read d [] a = d := rfl

theorem Memory_read_cons (k : Nat) (v : α) (m : Memory α) (a : Nat) :
    Memory.read d ((k, v) :: m) a = if k = a then v else Memory.read d m a := rfl

/-- An index below every listed one reads as the unlisted value. -/
theorem Memory_read_of_lt (m : Memory α) (a : Nat) (h : ∀ e ∈ m, a < e.1) : Memory.read d m a = d := by
  induction m with
  | nil => rfl
  | cons e m ih =>
    obtain ⟨k, v⟩ := e
    have hk : a < k := h (k, v) (by simp)
    rw [Memory_read_cons, if_neg (by omega)]
    exact ih fun e he => h e (by simp [he])

theorem Memory_wf_nil (n : Nat) : Memory.wf n d ([] : Memory α) := by simp [Memory.wf]

theorem Memory_wf_cons {n : Nat} {e : Nat × α} {m : Memory α} :
    Memory.wf n d (e :: m) ↔ (∀ x ∈ m, e.1 < x.1) ∧ e.1 < n ∧ e.2 ≠ d ∧ Memory.wf n d m := by
  simp only [Memory.wf, List.pairwise_cons, List.forall_mem_cons]
  tauto

variable [DecidableEq α]

/-- Every entry after a write is the new one or was there before. -/
theorem Memory_mem_write {m : Memory α} {a : Nat} {v : α} {e : Nat × α} (h : e ∈ Memory.write d m a v) :
    (e = (a, v) ∧ v ≠ d) ∨ e ∈ m := by
  induction m with
  | nil =>
    simp only [Memory.write] at h
    split at h <;> simp_all
  | cons x m ih =>
    obtain ⟨k, w⟩ := x
    simp only [Memory.write] at h
    split at h
    · split at h <;> simp_all
    · split at h
      · split at h
        · exact .inr (List.mem_cons_of_mem _ h)
        · simp_all; tauto
      · simp only [List.mem_cons] at h ⊢
        rcases h with h | h
        · exact .inr (.inl h)
        · rcases ih h with h | h
          · exact .inl h
          · exact .inr (.inr h)

/-- A write keeps the canonical form. -/
theorem Memory_write_wf {n : Nat} {m : Memory α} {a : Nat} {v : α} (hm : Memory.wf n d m) (ha : a < n) :
    Memory.wf n d (Memory.write d m a v) := by
  induction m with
  | nil =>
    simp only [Memory.write]
    split
    · exact hm
    · exact Memory_wf_cons.2 ⟨by simp, ha, ‹_›, hm⟩
  | cons x m ih =>
    obtain ⟨k, w⟩ := x
    obtain ⟨hlt, hk, hw, hm'⟩ := Memory_wf_cons.1 hm
    simp only [Memory.write]
    split
    · next hak =>
      split
      · exact hm
      · refine Memory_wf_cons.2 ⟨?_, ha, ‹_›, hm⟩
        intro y hy
        rcases List.mem_cons.1 hy with rfl | hy
        · exact hak
        · exact lt_trans hak (hlt y hy)
    · split
      · next hak =>
        subst hak
        split
        · exact hm'
        · exact Memory_wf_cons.2 ⟨hlt, ha, ‹_›, hm'⟩
      · refine Memory_wf_cons.2 ⟨?_, hk, hw, ih hm'⟩
        intro y hy
        rcases Memory_mem_write hy with ⟨rfl, -⟩ | hy
        · show k < a; omega
        · exact hlt y hy

/-- A write leaves every other index alone. -/
theorem Memory_read_write_ne {m : Memory α} {a b : Nat} {v : α} (h : b ≠ a) :
    Memory.read d (Memory.write d m a v) b = Memory.read d m b := by
  induction m with
  | nil =>
    simp only [Memory.write]
    split
    · rfl
    · rw [Memory_read_cons, if_neg (Ne.symm h)]
  | cons x m ih =>
    obtain ⟨k, w⟩ := x
    simp only [Memory.write]
    split
    · split
      · rfl
      · rw [Memory_read_cons, if_neg (Ne.symm h)]
    · split
      · next hak =>
        subst hak
        split <;> simp [Memory_read_cons, Ne.symm h]
      · simp [Memory_read_cons, ih]

/-- A read of the written index gives the written item. -/
theorem Memory_read_write_same {n : Nat} {m : Memory α} {a : Nat} {v : α} (hm : Memory.wf n d m) :
    Memory.read d (Memory.write d m a v) a = v := by
  induction m with
  | nil =>
    simp only [Memory.write]
    split
    · next h => simp [h]
    · simp [Memory_read_cons]
  | cons x m ih =>
    obtain ⟨k, w⟩ := x
    obtain ⟨hlt, -, -, hm'⟩ := Memory_wf_cons.1 hm
    simp only [Memory.write]
    split
    · next hak =>
      split
      · next hv =>
        rw [hv]
        refine Memory_read_of_lt _ _ fun e he => ?_
        rcases List.mem_cons.1 he with rfl | he
        · exact hak
        · exact lt_trans hak (hlt e he)
      · simp [Memory_read_cons]
    · split
      · next hak =>
        subst hak
        split
        · next hv => rw [hv]; exact Memory_read_of_lt _ _ hlt
        · simp [Memory_read_cons]
      · rw [Memory_read_cons, if_neg (by omega)]
        exact ih hm'

theorem Memory_read_write {n : Nat} {m : Memory α} {a b : Nat} {v : α} (hm : Memory.wf n d m) :
    Memory.read d (Memory.write d m a v) b = if b = a then v else Memory.read d m b := by
  split
  · next h => rw [h]; exact Memory_read_write_same hm
  · next h => exact Memory_read_write_ne h

omit [DecidableEq α] in
/-- An entry of a canonical memory is what its index reads as. -/
theorem Memory_read_of_mem {n : Nat} {m : Memory α} (hm : Memory.wf n d m) {a : Nat} {v : α} (h : (a, v) ∈ m) :
    Memory.read d m a = v := by
  induction m with
  | nil => simp at h
  | cons x m ih =>
    obtain ⟨k, w⟩ := x
    obtain ⟨hlt, -, -, hm'⟩ := Memory_wf_cons.1 hm
    rw [Memory_read_cons]
    rcases List.mem_cons.1 h with h | h
    · simp only [Prod.mk.injEq] at h
      simp [h.1, h.2]
    · have : k < a := hlt _ h
      rw [if_neg (by omega)]
      exact ih hm' h

omit [DecidableEq α] in
/-- An index that does not read as the unlisted value is listed. -/
theorem Memory_mem_of_read {m : Memory α} {a : Nat} (h : Memory.read d m a ≠ d) :
    (a, Memory.read d m a) ∈ m := by
  induction m with
  | nil => simp at h
  | cons x m ih =>
    obtain ⟨k, w⟩ := x
    rw [Memory_read_cons] at h ⊢
    split
    · next hk => simp [hk]
    · next hk =>
      rw [if_neg hk] at h
      exact List.mem_cons_of_mem _ (ih h)

omit [DecidableEq α] in
/-- Canonical memories with the same items are the same list. -/
theorem Memory_ext {n : Nat} {m m' : Memory α} (hm : Memory.wf n d m) (hm' : Memory.wf n d m')
    (h : ∀ a, Memory.read d m a = Memory.read d m' a) : m = m' := by
  have key : ∀ {m m' : Memory α}, Memory.wf n d m → Memory.wf n d m' →
      (∀ a, Memory.read d m a = Memory.read d m' a) → ∀ e ∈ m, e ∈ m' := by
    intro m m' hm hm' h e he
    have h1 := Memory_read_of_mem hm (a := e.1) (v := e.2) he
    have h2 : Memory.read d m' e.1 ≠ d := by rw [← h, h1]; exact (hm.2 e he).2
    have h3 := Memory_mem_of_read h2
    rwa [← h, h1] at h3
  refine List.Perm.eq_of_pairwise (le := fun x y => x.1 < y.1) ?_ hm.1 hm'.1 ?_
  · intro a b _ _ hab hba
    omega
  · have nd : ∀ {m : Memory α}, Memory.wf n d m → m.Nodup := fun hm =>
      hm.1.imp fun hxy heq => by subst heq; exact lt_irrefl _ hxy
    exact (List.perm_ext_iff_of_nodup (nd hm) (nd hm')).2 fun e =>
      ⟨key hm hm' h e, key hm' hm (fun a => (h a).symm) e⟩

/-! ### The tables' two memories stay canonical under every operation on them -/

theorem MemOk_reset : MemOk Tables.reset := ⟨Memory_wf_nil _, Memory_wf_nil _⟩

theorem MemOk_setFreq {t : Tables} (h : MemOk t) (c : Symbol) (v : Word) : MemOk (t.setFreq c v) :=
  ⟨Memory_write_wf h.1 c.isLt, h.2⟩

theorem MemOk_countSymbol {t : Tables} (h : MemOk t) (c : Symbol) : MemOk (t.countSymbol c) := MemOk_setFreq h _ _

theorem MemOk_emptyFreq {t : Tables} (h : MemOk t) : MemOk t.emptyFreq := ⟨Memory_wf_nil _, h.2⟩

theorem MemOk_emptyCode {t : Tables} (h : MemOk t) : MemOk t.emptyCode := ⟨h.1, Memory_wf_nil _⟩

theorem MemOk_dropTree {t : Tables} (h : MemOk t) : MemOk t.dropTree := h

theorem MemOk_withTree {t : Tables} (h : MemOk t) : MemOk t.withTree := ⟨h.1, Memory_wf_nil _⟩

theorem codeTable_wf (node : List Node) (ps : List (Nat × List Bool)) :
    Memory.wf Config.nsym CodeEntry.empty (codeTable node ps) := by
  have key : ∀ (ps : List (Nat × List Bool)) (m : Memory CodeEntry), Memory.wf Config.nsym CodeEntry.empty m →
      Memory.wf Config.nsym CodeEntry.empty (ps.foldl (recordCode node) m) := by
    intro ps
    induction ps with
    | nil => exact fun _ h => h
    | cons x ps ih => exact fun m h => ih _ (Memory_write_wf h (nodeAt node x.1).sym.isLt)
  exact key ps [] (Memory_wf_nil _)

theorem MemOk_withCodes {t : Tables} (h : MemOk t) : MemOk t.withCodes := ⟨h.1, codeTable_wf _ _⟩

end Sys2Proof.Machine
end

