-- ==== Sys2Proof/Laws/Run.lean ====
section
/-! SUPPORT. What the core's run of steps does, said once: what every step keeps, the run keeps; a run with enough steps does
not depend on how many; and what each shared port operation can answer. -/

namespace Sys2Proof.Machine

@[simp] theorem runMicro_zero (f : State → Micro) (s : State) : runMicro f 0 s = s := rfl

theorem runMicro_more {f : State → Micro} {s s' : State} (h : f s = .more s') (n : Nat) :
    runMicro f (n + 1) s = runMicro f n s' := by rw [runMicro, h]

theorem runMicro_hold {f : State → Micro} {s : State} (h : f s = .hold) (n : Nat) : runMicro f n s = s := by
  cases n with
  | zero => rfl
  | succ n => rw [runMicro, h]

theorem runMicro_done {f : State → Micro} {s s' : State} (h : f s = .done s') (n : Nat) :
    runMicro f (n + 1) s = s' := by rw [runMicro, h]

/-- The states a step of the core can lead to. -/
def Micro.Leads (m : Micro) (P : State → Prop) : Prop :=
  match m with
  | .more s => P s
  | .hold => True
  | .done s => P s

@[simp] theorem Micro_leads_more (s : State) (P : State → Prop) : (Micro.more s).Leads P = P s := rfl
@[simp] theorem Micro_leads_hold (P : State → Prop) : Micro.hold.Leads P = True := rfl
@[simp] theorem Micro_leads_done (s : State) (P : State → Prop) : (Micro.done s).Leads P = P s := rfl

/-- What every step of the core keeps, its run keeps. -/
theorem runMicro_keeps {f : State → Micro} {P : State → Prop} (h : ∀ s, P s → (f s).Leads P) :
    ∀ (n : Nat) (s : State), P s → P (runMicro f n s)
  | 0, _, hs => hs
  | n + 1, s, hs => by
    have hf := h s hs
    rw [runMicro]
    split
    · next heq => rw [heq] at hf; exact runMicro_keeps h n _ hf
    · exact hs
    · next heq => rw [heq] at hf; exact hf

/-- A relation that every step of the core keeps to the state it started from, its run keeps. -/
theorem runMicro_keeps_of {f : State → Micro} {R : State → State → Prop} (hr : ∀ s, R s s)
    (ht : ∀ a b c, R a b → R b c → R a c) (h : ∀ s, (f s).Leads (R s)) (n : Nat) (s : State) :
    R s (runMicro f n s) := by
  refine runMicro_keeps (P := R s) (fun s' hs' => ?_) n s (hr s)
  have hf := h s'
  cases hm : f s' with
  | more t => rw [hm] at hf; exact ht _ _ _ hs' hf
  | hold => trivial
  | done t => rw [hm] at hf; exact ht _ _ _ hs' hf

/-- The core stands still: the command has ended in `s`, or a port holds it. -/
def Rests (f : State → Micro) (s : State) : Prop := s.status.busy = false ∨ f s = .hold

/-- A run with at least as many steps as a measure that every step lowers comes to rest. -/
theorem runMicro_rests {f : State → Micro} (m : State → Nat) (P : State → Prop)
    (hk : ∀ s s', P s → f s = .more s' → P s')
    (hm : ∀ s s', P s → f s = .more s' → m s' < m s)
    (hd : ∀ s s', P s → f s = .done s' → s'.status.busy = false) :
    ∀ (n : Nat) (s : State), P s → m s < n → Rests f (runMicro f n s)
  | 0, _, _, h => by omega
  | n + 1, s, hp, h => by
    rw [runMicro]
    split
    · next heq => exact runMicro_rests m P hk hm hd n _ (hk _ _ hp heq) (by have := hm _ _ hp heq; omega)
    · next heq => exact .inr heq
    · next heq => exact .inl (hd _ _ hp heq)

/-! ### What the port operations answer -/

theorem SourcePort_read_nil {α : Type} {p : SourcePort α} (h : p.avail = []) : p.read = none := by
  simp [SourcePort.read, h]

theorem SourcePort_read_cons {α : Type} {p : SourcePort α} {t : SrcTok α} {ts : List (SrcTok α)} (h : p.avail = t :: ts) :
    p.read = some (t, { p with avail := ts }) := by simp [SourcePort.read, h]

theorem SourcePort_read_eq_some {α : Type} {p p' : SourcePort α} {t : SrcTok α} :
    p.read = some (t, p') ↔ ∃ ts, p.avail = t :: ts ∧ p' = { p with avail := ts } := by
  cases h : p.avail with
  | nil => simp [SourcePort.read, h]
  | cons x xs =>
    simp only [SourcePort.read, h, Option.some.injEq, Prod.mk.injEq, List.cons.injEq]
    constructor
    · rintro ⟨rfl, rfl⟩
      exact ⟨xs, ⟨rfl, rfl⟩, rfl⟩
    · rintro ⟨ts, ⟨rfl, rfl⟩, rfl⟩
      exact ⟨rfl, rfl⟩

/-- A sink that takes everything takes this token, answers `ok`, records it, and stays so. -/
theorem SinkPort_write_takesAll {α : Type} {p : SinkPort α} (h : SinkTakesAll p) (t : SinkTok α) :
    ∃ p', p.write t = some (.ok, p') ∧ SinkTakesAll p' ∧ p'.got = recordTaken ⟨t, .ok⟩ p.got := by
  obtain ⟨ha, ht⟩ := h
  cases hp : p.answers with
  | nil => exact ⟨{ p with got := recordTaken ⟨t, .ok⟩ p.got }, by simp [SinkPort.write, hp, ht], ⟨by simp [hp], ht⟩, rfl⟩
  | cons a as =>
    have : a = .ok := ha a (by simp [hp])
    subst this
    exact ⟨{ p with answers := as, got := recordTaken ⟨t, .ok⟩ p.got }, by simp [SinkPort.write, hp],
      ⟨fun a h => ha a (by simp [hp, h]), ht⟩, rfl⟩

/-- Everything a sink's write can do. -/
theorem SinkPort_write_eq_some {α : Type} {p p' : SinkPort α} {t : SinkTok α} {a : Answer} (h : p.write t = some (a, p')) :
    p'.got = recordTaken ⟨t, a⟩ p.got ∧ p'.thereafter = p.thereafter ∧
      ((p.answers = a :: p'.answers) ∨ (p.answers = [] ∧ p'.answers = [] ∧ p.thereafter = some a)) := by
  unfold SinkPort.write at h
  split at h
  · next heq =>
    simp only [Option.some.injEq, Prod.mk.injEq] at h
    obtain ⟨rfl, rfl⟩ := h
    exact ⟨rfl, rfl, .inl heq⟩
  · next heq =>
    split at h
    · next heq' =>
      simp only [Option.some.injEq, Prod.mk.injEq] at h
      obtain ⟨rfl, rfl⟩ := h
      exact ⟨rfl, rfl, .inr ⟨heq, heq, heq'⟩⟩
    · simp at h

theorem State_readCin_eq_some {s s' : State} {t : SrcTok Symbol} (h : s.readCin = some (t, s')) :
    ∃ ts, s.env.cin.avail = t :: ts ∧ s' = { s with env := { s.env with cin := { s.env.cin with avail := ts } } } := by
  simp only [State.readCin, Option.map_eq_some_iff] at h
  obtain ⟨⟨t', p'⟩, hr, heq⟩ := h
  obtain ⟨ts, hts, rfl⟩ := SourcePort_read_eq_some.1 hr
  simp only [Prod.mk.injEq] at heq
  obtain ⟨rfl, rfl⟩ := heq
  exact ⟨ts, hts, rfl⟩

theorem State_readBin_eq_some {s s' : State} {t : SrcTok ByteTok} (h : s.readBin = some (t, s')) :
    ∃ ts, s.env.bin.avail = t :: ts ∧ s' = { s with env := { s.env with bin := { s.env.bin with avail := ts } } } := by
  simp only [State.readBin, Option.map_eq_some_iff] at h
  obtain ⟨⟨t', p'⟩, hr, heq⟩ := h
  obtain ⟨ts, hts, rfl⟩ := SourcePort_read_eq_some.1 hr
  simp only [Prod.mk.injEq] at heq
  obtain ⟨rfl, rfl⟩ := heq
  exact ⟨ts, hts, rfl⟩

theorem State_readCin_nil {s : State} (h : s.env.cin.avail = []) : s.readCin = none := by
  simp [State.readCin, SourcePort_read_nil h]

theorem State_readBin_nil {s : State} (h : s.env.bin.avail = []) : s.readBin = none := by
  simp [State.readBin, SourcePort_read_nil h]

theorem State_readCin_cons {s : State} {t : SrcTok Symbol} {ts : List (SrcTok Symbol)} (h : s.env.cin.avail = t :: ts) :
    s.readCin = some (t, { s with env := { s.env with cin := { s.env.cin with avail := ts } } }) := by
  simp [State.readCin, SourcePort_read_cons h]

theorem State_readBin_cons {s : State} {t : SrcTok ByteTok} {ts : List (SrcTok ByteTok)} (h : s.env.bin.avail = t :: ts) :
    s.readBin = some (t, { s with env := { s.env with bin := { s.env.bin with avail := ts } } }) := by
  simp [State.readBin, SourcePort_read_cons h]

/-- A write on `BOUT` changes the sink only. -/
theorem State_writeBout_eq_some {s s' : State} {t : SinkTok ByteTok} {a : Answer} (h : s.writeBout t = some (a, s')) :
    ∃ p, s.env.bout.write t = some (a, p) ∧ s' = { s with env := { s.env with bout := p } } := by
  simp only [State.writeBout, Option.map_eq_some_iff] at h
  obtain ⟨⟨a', p'⟩, hr, heq⟩ := h
  simp only [Prod.mk.injEq] at heq
  obtain ⟨rfl, rfl⟩ := heq
  exact ⟨p', hr, rfl⟩

/-- A write on `COUT` changes the sink only. -/
theorem State_writeCout_eq_some {s s' : State} {t : SinkTok Symbol} {a : Answer} (h : s.writeCout t = some (a, s')) :
    ∃ p, s.env.cout.write t = some (a, p) ∧ s' = { s with env := { s.env with cout := p } } := by
  simp only [State.writeCout, Option.map_eq_some_iff] at h
  obtain ⟨⟨a', p'⟩, hr, heq⟩ := h
  simp only [Prod.mk.injEq] at heq
  obtain ⟨rfl, rfl⟩ := heq
  exact ⟨p', hr, rfl⟩

end Sys2Proof.Machine
end

