-- ==== Sys2Proof/Laws/Keeps.lean ====
section
/-! SUPPORT. What the commands are made of, said once: whatever the small updates of a streaming command keep, its steps and its
whole run keep. Every invariant and every frame of COUNT, ENCODE and DECODE goes through these. -/

namespace Sys2Proof.Machine

/-- Another list of available tokens on `CIN`: what `SrcRead` leaves. -/
def State.withCinAvail (s : State) (ts : List (SrcTok Symbol)) : State :=
  { s with env := { s.env with cin := { s.env.cin with avail := ts } } }

/-- Another list of available tokens on `BIN`. -/
def State.withBinAvail (s : State) (ts : List (SrcTok ByteTok)) : State :=
  { s with env := { s.env with bin := { s.env.bin with avail := ts } } }

/-- Another sink behind `BOUT`: what `SinkWrite` leaves. -/
def State.withBout (s : State) (p : SinkPort ByteTok) : State := { s with env := { s.env with bout := p } }

/-- Another sink behind `COUT`. -/
def State.withCout (s : State) (p : SinkPort Symbol) : State := { s with env := { s.env with cout := p } }

/-- Another `TRUNC`. -/
def State.withTruncFlag (s : State) (t : Bool) : State := { s with status := s.status.withTrunc t }

/-- Another frequency table. -/
def State.withTab (s : State) (t : Tables) : State := { s with tab := t }

variable {P : State → Prop}

/-- Raising a fault only moves to another place of the pseudocode. -/
theorem raise_leads {s : State} {a : Bool} {code : FaultCode} {info : Word} (hgoto : ∀ p, P (s.goto p)) :
    (s.raise a code info).Leads P := hgoto _

theorem sinkWritten_bout_leads {s : State} {t : SinkTok ByteTok} {id : Word} {k : State → Micro}
    (hfail : ∀ p, s.env.bout.write t = some (.fail, p) → P ((s.withBout p).goto (.record .stream id)))
    (hok : ∀ p, s.env.bout.write t = some (.ok, p) → (k (s.withBout p)).Leads P) :
    (sinkWritten (s.writeBout t) id k).Leads P := by
  unfold sinkWritten
  split
  · trivial
  · next h => obtain ⟨p, hp, rfl⟩ := State_writeBout_eq_some h; exact hfail p hp
  · next h => obtain ⟨p, hp, rfl⟩ := State_writeBout_eq_some h; exact hok p hp

theorem sinkWritten_cout_leads {s : State} {t : SinkTok Symbol} {id : Word} {k : State → Micro}
    (hfail : ∀ p, s.env.cout.write t = some (.fail, p) → P ((s.withCout p).goto (.record .stream id)))
    (hok : ∀ p, s.env.cout.write t = some (.ok, p) → (k (s.withCout p)).Leads P) :
    (sinkWritten (s.writeCout t) id k).Leads P := by
  unfold sinkWritten
  split
  · trivial
  · next h => obtain ⟨p, hp, rfl⟩ := State_writeCout_eq_some h; exact hfail p hp
  · next h => obtain ⟨p, hp, rfl⟩ := State_writeCout_eq_some h; exact hok p hp

theorem abortTaken_bout_leads {s : State} {t : SinkTok ByteTok} {code : FaultCode} {info : Word}
    (h : ∀ a p, s.env.bout.write t = some (a, p) → P ((s.withBout p).goto (.record code info))) :
    (abortTaken (s.writeBout t) code info).Leads P := by
  unfold abortTaken
  split
  · trivial
  · next heq => obtain ⟨p, hp, rfl⟩ := State_writeBout_eq_some heq; exact h _ p hp

theorem abortTaken_cout_leads {s : State} {t : SinkTok Symbol} {code : FaultCode} {info : Word}
    (h : ∀ a p, s.env.cout.write t = some (a, p) → P ((s.withCout p).goto (.record code info))) :
    (abortTaken (s.writeCout t) code info).Leads P := by
  unfold abortTaken
  split
  · trivial
  · next heq => obtain ⟨p, hp, rfl⟩ := State_writeCout_eq_some heq; exact h _ p hp

/-- A step of COUNT is made of these updates. -/
theorem countStep_leads (hgoto : ∀ s p, P s → P (s.goto p)) (hempty : ∀ s : State, P s → P (s.withTab s.tab.emptyFreq))
    (hcount : ∀ (s : State) c, P s → P (s.withTab (s.tab.countSymbol c)))
    (hread : ∀ (s : State) t ts, s.env.cin.avail = t :: ts → P s → P (s.withCinAvail ts))
    (hfault : ∀ s code info, P s → P (s.takeFault code info)) (hdone : ∀ s, P s → P s.complete)
    (s : State) (hs : P s) : (countStep s).Leads P := by
  unfold countStep
  split
  · unfold countLoop
    split
    · trivial
    · next h =>
      obtain ⟨ts, hav, rfl⟩ := State_readCin_eq_some h
      have h1 := hread s _ ts hav hs
      unfold countToken
      split
      · exact hgoto _ _ h1
      · exact raise_leads fun _ => hgoto _ _ h1
      · split
        · exact raise_leads fun _ => hgoto _ _ h1
        · exact hgoto _ _ (hcount _ _ h1)
  · exact hdone s hs
  · exact hfault _ _ _ hs
  · exact hgoto _ _ (hempty s hs)

/-- A step of ENCODE is made of these updates. -/
theorem encodeStep_leads (hgoto : ∀ s p, P s → P (s.goto p))
    (hpush : ∀ (s : State) b, s.work.bitcnt ≠ 8 → P s → P (s.pushBit b)) (hclear : ∀ s : State, P s → P s.clearBitBuf)
    (hread : ∀ (s : State) t ts, s.env.cin.avail = t :: ts → P s → P (s.withCinAvail ts))
    (hsink : ∀ (s : State) t a p, s.env.bout.write t = some (a, p) → P s → P (s.withBout p))
    (hfault : ∀ s code info, P s → P (s.takeFault code info)) (hdone : ∀ s, P s → P s.complete)
    (s : State) (hs : P s) : (encodeStep s).Leads P := by
  have hbuf : (writeBitBuf s).Leads P :=
    sinkWritten_bout_leads (fun p hp => hgoto _ _ (hsink _ _ _ _ hp hs)) fun p hp => hclear _ (hsink _ _ _ _ hp hs)
  unfold encodeStep
  split
  · unfold encodeLoop
    split
    · exact hbuf
    · next h8 =>
      split
      · exact hgoto _ _ (hpush _ _ h8 hs)
      · split
        · trivial
        · next h =>
          obtain ⟨ts, hav, rfl⟩ := State_readCin_eq_some h
          have h1 := hread s _ ts hav hs
          unfold encodeToken
          split
          · exact raise_leads fun _ => hgoto _ _ h1
          · exact hgoto _ _ h1
          · split
            · exact raise_leads fun _ => hgoto _ _ h1
            · exact hgoto _ _ h1
  · unfold encodeWriteEnd
    split
    · exact sinkWritten_bout_leads (fun p hp => hgoto _ _ (hsink _ _ _ _ hp hs)) fun p hp => hgoto _ _ (hsink _ _ _ _ hp hs)
    · exact hbuf
  · exact abortTaken_bout_leads fun a p hp => hgoto _ _ (hsink _ _ _ _ hp hs)
  · exact hdone s hs
  · exact hfault _ _ _ hs
  · exact hgoto _ _ hs

/-- A step of DECODE is made of these updates. -/
theorem decodeStep_leads (hgoto : ∀ s p, P s → P (s.goto p)) (hload : ∀ (s : State) t, P s → P (s.loadByte t))
    (hshift : ∀ s : State, P s → P s.shiftBit) (hcur : ∀ (s : State) i, P s → P (s.setCur i))
    (hread : ∀ (s : State) t ts, s.env.bin.avail = t :: ts → P s → P (s.withBinAvail ts))
    (hsink : ∀ (s : State) t a p, s.env.cout.write t = some (a, p) → P s → P (s.withCout p))
    (hfault : ∀ s code info, P s → P (s.takeFault code info))
    (hdone : ∀ (s : State) t, P s → P (s.withTruncFlag t).complete)
    (s : State) (hs : P s) : (decodeStep s).Leads P := by
  unfold decodeStep
  split
  · unfold decodeLoop
    split
    · split
      · trivial
      · next h =>
        obtain ⟨ts, hav, rfl⟩ := State_readBin_eq_some h
        have h1 := hread s _ ts hav hs
        unfold decodeToken
        split
        · exact hgoto _ _ h1
        · exact raise_leads fun _ => hgoto _ _ h1
        · exact hload _ _ h1
    · have h1 := hshift s hs
      unfold walkBit
      split
      · exact raise_leads fun _ => hgoto _ _ h1
      · dsimp only
        split
        · exact hgoto _ _ (hcur _ _ h1)
        · exact hcur _ _ h1
  · exact sinkWritten_cout_leads (fun p hp => hgoto _ _ (hsink _ _ _ _ hp hs))
      fun p hp => hgoto _ _ (hcur _ _ (hsink _ _ _ _ hp hs))
  · exact sinkWritten_cout_leads (fun p hp => hgoto _ _ (hsink _ _ _ _ hp hs)) fun p hp => hgoto _ _ (hsink _ _ _ _ hp hs)
  · exact abortTaken_cout_leads fun a p hp => hgoto _ _ (hsink _ _ _ _ hp hs)
  · exact hdone s _ hs
  · exact hfault _ _ _ hs
  · unfold decodeStart
    split
    · exact hgoto _ _ hs
    · exact hgoto _ _ (hcur _ _ hs)

/-- `exec` always answers a next state: no command of the table stops. -/
theorem exec_next (i : Instr) (s : State) : ∃ t, exec i s = .next t := by
  cases i
  case build =>
    simp only [exec, execBuild]
    split
    · exact ⟨_, rfl⟩
    · split <;> exact ⟨_, rfl⟩
  case derive =>
    simp only [exec, execDerive]
    split <;> exact ⟨_, rfl⟩
  all_goals exact ⟨_, rfl⟩

/-- A single core step always answers a next state too. -/
theorem coreStep_next (i : Instr) (s : State) : ∃ t, coreStep i s = .next t := by
  cases i
  case nop => exact exec_next .nop s
  case build => exact exec_next .build s
  case derive => exact exec_next .derive s
  case clear => exact exec_next .clear s
  all_goals exact ⟨_, rfl⟩

/-- What a step of the core leads to, its state after the step has; a held step leaves the state as it was. -/
theorem Micro_after_of_leads {m : Micro} {s : State} {P : State → Prop} (h : m.Leads P) (hs : P s) : P (m.after s) := by
  cases m with
  | more t => exact h
  | hold => exact hs
  | done t => exact h

/-- Everything BUILD can do (R140, R142). -/
theorem execBuild_cases (s : State) :
    (∃ sym, negativeEntry s.tab.freq = some sym ∧ execBuild s = .next (s.takeFault .invalidInput (BitVec.ofNat 32 sym))) ∨
    (negativeEntry s.tab.freq = none ∧ Config.cntmax < freqSum s.tab.freq ∧
      execBuild s = .next (s.takeFault .invalidInput 0xFFFFFFFF#32)) ∨
    (negativeEntry s.tab.freq = none ∧ freqSum s.tab.freq ≤ Config.cntmax ∧ execBuild s = .next s.build) := by
  unfold execBuild
  cases h : negativeEntry s.tab.freq with
  | some sym => exact .inl ⟨sym, rfl, rfl⟩
  | none =>
    by_cases hc : Config.cntmax < freqSum s.tab.freq
    · exact .inr (.inl ⟨rfl, hc, by simp [hc]⟩)
    · exact .inr (.inr ⟨rfl, by omega, by simp [hc]⟩)

/-- Everything DERIVE can do (R165, R170). -/
theorem execDerive_cases (s : State) :
    (∃ c, codeLenFault Config.maxlen s.tab = some c ∧
      execDerive s = .next ((s.withTab s.tab.emptyCode).takeFault .codeLen c.zext)) ∨
    (codeLenFault Config.maxlen s.tab = none ∧ execDerive s = .next (s.withTab s.tab.withCodes).complete) := by
  unfold execDerive
  cases h : codeLenFault Config.maxlen s.tab with
  | some c => exact .inl ⟨c, rfl, rfl⟩
  | none => exact .inr ⟨rfl, rfl⟩

end Sys2Proof.Machine
end

