-- ==== Sys2Proof/Laws/Queue.lean ====
section
/-! SUPPORT. The sum BUILD validates, and its priority queue, each said once: the sum over the listed entries is the sum over all
symbols; the queue order is a strict total order; `queueMin` finds the first element and `removeMin` takes it out. -/

namespace Sys2Proof.Machine

/-- The sum over the listed entries is the sum over every index. -/
theorem freqSum_eq_sum_range {n : Nat} {m : Memory Word} (hm : Memory.wf n 0#32 m) :
    freqSum m = ((List.range n).map fun i => (Memory.read 0#32 m i).toNat).sum := by
  have key : ((List.range n).map fun i => (Memory.read 0#32 m i).toNat).sum =
      ∑ i ∈ Finset.range n, (Memory.read 0#32 m i).toNat := rfl
  rw [key]
  clear key
  induction m with
  | nil => simp [freqSum]
  | cons e m ih =>
    obtain ⟨k, v⟩ := e
    obtain ⟨hlt, hk, -, hm'⟩ := Memory_wf_cons.1 hm
    have h0 : Memory.read 0#32 m k = 0#32 := Memory_read_of_lt _ _ hlt
    have h1 : ∀ i, (Memory.read 0#32 ((k, v) :: m) i).toNat =
        (if i = k then v.toNat else 0) + (Memory.read 0#32 m i).toNat := by
      intro i
      rw [Memory_read_cons]
      by_cases h : k = i
      · subst h; simp [h0]
      · simp [h, Ne.symm h]
    simp only [h1, Finset.sum_add_distrib, ← ih hm']
    have hk' : k < n := hk
    simp [freqSum, hk']

/-- `freqSum` is the exact sum of R142. -/
theorem freqSum_eq_totalFreq {t : Tables} (h : MemOk t) : freqSum t.freq = totalFreq t := freqSum_eq_sum_range h.1

/-! ### The queue order (R15, R147) -/

theorem queueBefore_iff {node : List Node} {i j : Nat} :
    queueBefore node i j = true ↔
      (nodeAt node i).w < (nodeAt node j).w ∨ ((nodeAt node i).w = (nodeAt node j).w ∧ i < j) := by
  simp [queueBefore]

theorem queueBefore_irrefl (node : List Node) (i : Nat) : queueBefore node i i = false := by simp [queueBefore]

theorem queueBefore_trans {node : List Node} {i j k : Nat} (h1 : queueBefore node i j = true)
    (h2 : queueBefore node j k = true) : queueBefore node i k = true := by
  rw [queueBefore_iff] at *
  omega

theorem queueBefore_total {node : List Node} {i j : Nat} (h : i ≠ j) (hf : queueBefore node i j = false) :
    queueBefore node j i = true := by
  rw [queueBefore_iff]
  have : ¬ queueBefore node i j = true := by simp [hf]
  rw [queueBefore_iff] at this
  omega

theorem queueMin_eq_none {node : List Node} {q : List Nat} : queueMin node q = none ↔ q = [] := by
  cases q with
  | nil => simp [queueMin]
  | cons i is =>
    simp only [queueMin, reduceCtorEq, iff_false]
    split
    · simp
    · split <;> simp

/-- What `queueMin` finds is in the queue and comes before every other element. -/
theorem queueMin_spec {node : List Node} {q : List Nat} {m : Nat} (h : queueMin node q = some m) :
    m ∈ q ∧ ∀ i ∈ q, i ≠ m → queueBefore node m i = true := by
  induction q generalizing m with
  | nil => simp [queueMin] at h
  | cons i is ih =>
    simp only [queueMin] at h
    split at h
    · next hn =>
      rw [queueMin_eq_none.1 hn]
      simp only [Option.some.injEq] at h
      subst h
      simp
    · next j hj =>
      obtain ⟨hmem, hall⟩ := ih hj
      split at h
      · next hb =>
        simp only [Option.some.injEq] at h
        subst h
        refine ⟨by simp, fun x hx hne => ?_⟩
        rcases List.mem_cons.1 hx with rfl | hx
        · exact absurd rfl hne
        · by_cases hxj : x = j
          · rw [hxj]; exact hb
          · exact queueBefore_trans hb (hall x hx hxj)
      · next hb =>
        simp only [Option.some.injEq] at h
        subst h
        refine ⟨by simp [hmem], fun x hx hne => ?_⟩
        rcases List.mem_cons.1 hx with rfl | hx
        · exact queueBefore_total hne (by simpa using hb)
        · exact hall x hx hne

/-- `removeMin` takes out one element, the first; it changes no node. -/
theorem removeMin_spec {a a' : Arena} {i : Nat} (h : a.removeMin = some (i, a')) :
    i ∈ a.pq ∧ (∀ j ∈ a.pq, j ≠ i → queueBefore a.node i j = true) ∧ a' = { a with pq := a.pq.erase i } := by
  simp only [Arena.removeMin, Option.map_eq_some_iff, Prod.mk.injEq] at h
  obtain ⟨m, hm, rfl, rfl⟩ := h
  exact ⟨(queueMin_spec hm).1, (queueMin_spec hm).2, rfl⟩

theorem removeMin_isSome {a : Arena} (h : a.pq ≠ []) : ∃ i a', a.removeMin = some (i, a') := by
  cases hq : queueMin a.node a.pq with
  | none => exact absurd (queueMin_eq_none.1 hq) h
  | some m => exact ⟨m, { a with pq := a.pq.erase m }, by simp [Arena.removeMin, hq]⟩

/-- One pass of the combine loop, as long as two elements are in the queue (R144, R145): the first two leave it, the node over
them, the first on the left, is made and enters it. -/
theorem combineStep_spec {a : Arena} (hd : a.pq.Nodup) (h : 1 < a.pq.length) :
    ∃ x y, x ∈ a.pq ∧ (∀ j ∈ a.pq, j ≠ x → queueBefore a.node x j = true) ∧ y ∈ a.pq ∧ y ≠ x ∧
      (∀ j ∈ a.pq, j ≠ x → j ≠ y → queueBefore a.node y j = true) ∧
      combineStep a = ⟨a.node ++ [innerNode a.node x y], (a.pq.erase x).erase y ++ [a.node.length]⟩ := by
  obtain ⟨x, a1, hx⟩ := removeMin_isSome (a := a) (by rintro h0; simp [h0] at h)
  obtain ⟨hxm, hxall, rfl⟩ := removeMin_spec hx
  have hlen : (a.pq.erase x).length = a.pq.length - 1 := List.length_erase_of_mem hxm
  obtain ⟨y, a2, hy⟩ := removeMin_isSome (a := { a with pq := a.pq.erase x }) (by
    intro h0
    have : (a.pq.erase x).length = 0 := by simpa using h0
    omega)
  obtain ⟨hym, hyall, rfl⟩ := removeMin_spec hy
  have hym' := (hd.mem_erase_iff).1 hym
  refine ⟨x, y, hxm, hxall, hym'.2, hym'.1, fun j hj hjx hjy => hyall j ((hd.mem_erase_iff).2 ⟨hjx, hj⟩) hjy, ?_⟩
  simp only [combineStep, hx, hy]
  rfl

end Sys2Proof.Machine
end

