-- ==== Sys2Proof/Laws/Tree.lean ====
section
/-! SUPPORT. Paths in a tree, said once: indexes fall along every path, so a path is never longer than the root's index. -/

namespace Sys2Proof.Machine

/-- In a tree whose children stand below their parents, a path to node `i` from node `r` has at most `r - i` bits. -/
theorem PathTo_length_of_childBelow {node : List Node} {r n : Nat} (hr : r < n)
    (hb : ∀ i < n, ∀ b, ∀ c ∈ childOf (nodeAt node i) b, c < i) {i : Nat} {p : List Bool} (h : PathTo node r i p) :
    i + p.length ≤ r := by
  induction h with
  | root => simp
  | @child i c p b _ hc ih =>
    have := hb i (by omega) b c (by simp [hc])
    simp only [List.length_append, List.length_cons, List.length_nil]
    omega

/-- The same for a tree that satisfies R40. -/
theorem PathTo_length {t : Tables} (ht : TreeOk t) {r i : Nat} {p : List Bool} (hr : r < t.nnodes)
    (h : PathTo t.node r i p) : i + p.length ≤ r := PathTo_length_of_childBelow hr ht.childBelow h

end Sys2Proof.Machine
end

