-- ==== Sys2Proof/Tests/Slice0.lean ====
section
/-! SUPPORT. The model's own tests: ill-formed terms refused, words written out from the spec's encodings, one or two small runs a
command with the values of spec/95_test_vectors.md and of the rules' own examples, and for every statement of the certificates
a concrete state and operands that meet its hypotheses. -/

namespace Sys2Proof.Tests

open Sys2Proof Sys2Proof.Machine

set_option Elab.async false

/-! ### Well-formedness: terms the interface cannot express are refused -/

theorem test_wf_unaligned_read : (HostOp.read 0x02).wf = false := by decide
theorem test_wf_unaligned_write : (HostOp.write 0x07 0#32).wf = false := by decide
theorem test_wf_beyond_space : (HostOp.write 0x100 0#32).wf = false := by decide
theorem test_wf_last_offset : (HostOp.read 0xFC).wf = true := by decide
theorem test_wf_token_after_end : streamWf [SrcTok.data (0x61#16), .endTok, .data 0x62#16] = false := by decide
theorem test_wf_token_after_fail : streamWf [SrcTok.failTok, SrcTok.data (0x61#16)] = false := by decide
theorem test_wf_stream : streamWf [SrcTok.data (0x61#16), .endTok] = true := by decide
theorem test_wf_commands : [Instr.nop, .count, .build, .derive, .encode, .decode, .clear].all Instr.wf = true := by decide

/-! ### Decoding: words written out from R100 and R101 -/

theorem test_decode_nop : decodeTableWord 32 0b00000000000000000000000000000000 = some .nop := by decide
theorem test_decode_count : decodeTableWord 32 0b00000000000000000000000000000001 = some .count := by decide
theorem test_decode_build : decodeTableWord 32 0b00000000000000000000000000000010 = some .build := by decide
theorem test_decode_derive : decodeTableWord 32 0b00000000000000000000000000000011 = some .derive := by decide
theorem test_decode_encode : decodeTableWord 32 0b00000000000000000000000000000100 = some .encode := by decide
theorem test_decode_decode : decodeTableWord 32 0b00000000000000000000000000000101 = some .decode := by decide
theorem test_decode_clear : decodeTableWord 32 0b00000000000000000000000000000110 = some .clear := by decide
theorem test_decode_opcode_seven : decodeTableWord 32 0x00000007 = none := by decide
theorem test_decode_reserved_bit : decodeTableWord 32 0x80000001 = none := by decide
theorem test_decode_short_nbits : decodeTableWord 8 0x05 = some .decode := by decide

/-- R114: `byte(0xDC, 1)` is `0b001_11011100`; R112: kinds. -/
theorem test_beat_byte : boutBeat (.data ⟨0xDC#8, 1#3⟩) = ⟨0#2, 0b00111011100#11⟩ ∧
    binTok ⟨0#2, 0b00111011100#11⟩ = .data ⟨0xDC#8, 1#3⟩ ∧ binTok ⟨3#2, 0#11⟩ = .failTok := by decide

/-- R112: `end` and `abort` on `COUT`. -/
theorem test_beat_cout_terminators : coutBeat .endTok = ⟨1#2, 0#16⟩ ∧ coutBeat .abortTok = ⟨2#2, 0#16⟩ := by decide

/-! ### Helpers -/

/-- The state `exec` answers; `exec_next` says it always answers one. -/
def after (i : Instr) (s : State) : State :=
  match exec i s with
  | .next t => t
  | .fault _ => s
  | .refused _ => s

theorem exec_after (i : Instr) (s : State) : exec i s = .next (after i s) := by
  obtain ⟨t, h⟩ := exec_next i s
  rw [h, after, h]

/-- The reset state with these tables, streams on the sources, and script. -/
def st (tab : Tables) (cin : List (SrcTok Symbol)) (bin : List (SrcTok ByteTok)) (script : List Event) : State :=
  { State.reset with
    tab := tab
    env := { Env.reset with cin := ⟨false, [], [cin]⟩, bin := ⟨false, [], [bin]⟩ }
    script := script }

/-- A command accepted in such a state and run. -/
def run (i : Instr) (tab : Tables) (cin : List (SrcTok Symbol)) (bin : List (SrcTok ByteTok)) : State :=
  after i ((st tab cin bin []).accepted i)

/-- The tables for "ab" (spec/95, T7; R192 (g)). -/
def tabAB : Tables :=
  ⟨[(0x61, 1#32), (0x62, 1#32)],
   [⟨1, true, 0x61#16, none, none⟩, ⟨1, true, 0x62#16, none, none⟩, ⟨2, false, 0#16, some 0, some 1⟩],
   some 2, 3, [(0x61, ⟨1, 0#64⟩), (0x62, ⟨1, 1#64⟩)], 2⟩

/-- The tables for "aaaa": one key (R150, R169). -/
def tabA : Tables :=
  ⟨[(0x61, 4#32)], [⟨4, true, 0x61#16, none, none⟩, ⟨4, false, 0#16, none, some 0⟩], some 1, 2, [(0x61, ⟨1, 1#64⟩)], 1⟩

/-- The tables for "abracadabra" (R130, R156, R165). -/
def tabAbra : Tables :=
  ⟨[(0x61, 5#32), (0x62, 2#32), (0x63, 1#32), (0x64, 1#32), (0x72, 2#32)],
   [⟨5, true, 0x61#16, none, none⟩, ⟨2, true, 0x62#16, none, none⟩, ⟨1, true, 0x63#16, none, none⟩,
    ⟨1, true, 0x64#16, none, none⟩, ⟨2, true, 0x72#16, none, none⟩, ⟨2, false, 0#16, some 2, some 3⟩,
    ⟨4, false, 0#16, some 1, some 4⟩, ⟨6, false, 0#16, some 5, some 6⟩, ⟨11, false, 0#16, some 0, some 7⟩],
   some 8, 9,
   [(0x61, ⟨1, 0x0#64⟩), (0x62, ⟨3, 0x3#64⟩), (0x63, ⟨3, 0x1#64⟩), (0x64, ⟨3, 0x5#64⟩), (0x72, ⟨3, 0x7#64⟩)], 5⟩

/-- "abracadabra". -/
def abra : List Symbol := [0x61#16, 0x62#16, 0x72#16, 0x61#16, 0x63#16, 0x61#16, 0x64#16, 0x61#16, 0x62#16, 0x72#16, 0x61#16]

/-- Its compressed form (R194). -/
def abraBytes : List ByteTok := [⟨0x6E#8, 0#3⟩, ⟨0x8A#8, 0#3⟩, ⟨0xDC#8, 1#3⟩]

/-! ### The commands -/

/-- R224. -/
theorem test_nop : (run .nop tabAbra [] []).status.toWord = 0x2#32 ∧ (run .nop tabAbra [] []).tab = tabAbra := by
  decide +kernel

/-- R130: the frequencies of "abracadabra". -/
theorem test_count : (run .count Tables.reset (streamOf abra .endTok) []).tab.freq = tabAbra.freq := by decide +kernel

/-- R262: a source that cannot be opened. -/
theorem test_count_stream_fault :
    (run .count tabAbra [.failTok] []).status.toWord = 0x4#32 ∧ (run .count tabAbra [.failTok] []).regs.errcode = 5#8 ∧
    (run .count tabAbra [.failTok] []).tab = { tabAbra with freq := [] } := by decide +kernel

/-- R156: the tree of "abracadabra"; the code table is emptied (R146). -/
theorem test_build : (run .build { Tables.reset with freq := tabAbra.freq, code := tabA.code, ncodes := 1 } [] []).tab =
    { tabAbra with code := [], ncodes := 0 } := by decide +kernel

/-- R258: the sum of two entries of `0x40000000` is too large; the tables stay. -/
theorem test_build_sum_fault :
    (run .build { tabAbra with freq := [(0, 0x40000000#32), (1, 0x40000000#32)] } [] []).regs.errinfo = 0xFFFFFFFF#32 ∧
    (run .build { tabAbra with freq := [(0, 0x40000000#32), (1, 0x40000000#32)] } [] []).tab.code = tabAbra.code := by
  decide +kernel

/-- R165: the codes of "abracadabra". -/
theorem test_derive : (run .derive { tabAbra with code := [], ncodes := 0 } [] []).tab = tabAbra := by decide +kernel

/-- R261: with `MAXLEN = 2` the lowest too deep leaf is node 1, symbol `0x0062`. -/
theorem test_derive_too_deep : codeLenFault 2 tabAbra = some 0x62#16 := by decide +kernel

/-- R194. -/
theorem test_encode : (run .encode tabAbra (streamOf abra .endTok) []).env.bout.got =
    [takenOk (abraBytes.map .data ++ [.endTok])] := by decide +kernel

/-- R192 (g), R259: "abz" with the table of "ab". -/
theorem test_encode_no_code :
    (run .encode tabAB (streamOf [0x61#16, 0x62#16, 0x7A#16] .endTok) []).env.bout.got = [takenOk [.abortTok]] ∧
    (run .encode tabAB (streamOf [0x61#16, 0x62#16, 0x7A#16] .endTok) []).regs.errinfo = 0x7A#32 := by decide +kernel

/-- R212. -/
theorem test_decode : (run .decode tabAbra [] (streamOf abraBytes .endTok)).env.cout.got =
    [takenOk (abra.map .data ++ [.endTok])] := by decide +kernel

/-- R260: bits `1 0` on the one-symbol tree. -/
theorem test_decode_walk_off :
    (run .decode tabA [] (streamOf [⟨0xB0#8, 4#3⟩] .endTok)).env.cout.got = [takenOk [.data 0x61#16, .abortTok]] ∧
    (run .decode tabA [] (streamOf [⟨0xB0#8, 4#3⟩] .endTok)).regs.errinfo = 1#32 := by decide +kernel

/-- R225: after a `NO_CODE` fault. -/
theorem test_clear :
    after .clear ((run .encode tabAB (streamOf [0x7A#16] .endTok) []).accepted .clear) =
      { State.reset with
        status := ⟨false, true, false, false, false⟩
        work := { Work.reset with op := 0x06#8 }
        env := (run .encode tabAB (streamOf [0x7A#16] .endTok) []).env } := by decide +kernel

/-! ### Host operations and steps -/

/-- R257: `WR CMD, 0x00000101` from reset. -/
theorem test_illegal_command : (State.reset.hostOp (.write 0x04 0x101#32)).status.toWord = 0x4#32 ∧
    (State.reset.hostOp (.write 0x04 0x101#32)).regs.errinfo = 0x101#32 := by decide

/-- R106: `CODE_BITS` of the code `110`. -/
theorem test_code_bits : readReg .codeBits ((st tabAbra [] [] []).hostOp (.write 0x44 0x62#32)) = 0x3#32 := by decide +kernel

/-- R35: `NODE_INFO` of a leaf. -/
theorem test_node_info : readReg .nodeInfo ((st tabAbra [] [] []).hostOp (.write 0x30 4#32)) = 0x80000072#32 := by
  decide +kernel

/-- The command word is accepted by the first step, and the core runs it with the second. -/
theorem test_two_steps :
    Host.Core.run Sys2Proof.core 2 (st tabAbra [] [] [.host (.write 0x04 0x0#32), .core]) =
      .next { st tabAbra [] [] [] with status := ⟨false, true, false, false, false⟩ } := by rfl

/-- R235: after three core steps of ENCODE on the empty stream the sink holds `end` and `STATUS` still reads `BUSY`; the fourth step ends
the command. -/
theorem test_end_is_a_step_of_its_own :
    let s := fun n => Host.Core.run Sys2Proof.core n
      ((st tabAB [.endTok] [] [.host (.write 0x04 0x4#32), .coreStep, .coreStep, .coreStep, .host (.read 0x08), .coreStep]))
    (∃ t, s 5 = .next t ∧ t.env.bout.got = [takenOk [.endTok]] ∧ t.reads = [⟨0x08, 0x1#32⟩]) ∧
    ∃ t, s 6 = .next t ∧ t.status.toWord = 0x2#32 := ⟨⟨_, rfl, by decide +kernel⟩, _, rfl, by decide +kernel⟩

/-- R38: an entry with bit 31 set is no key. -/
theorem test_negative_entry_is_no_key : ¬ IsKey { Tables.reset with freq := [(0x41, 0xFFFFFFFF#32)] } 0x41#16 ∧
    IsKey { Tables.reset with freq := [(0x41, 0x7FFFFFFF#32)] } 0x41#16 := by unfold IsKey; decide +kernel

/-! ### Witnesses: the hypotheses of the statements can be met -/

/-- R40 in three parts, each of which can be decided on a concrete tree. -/
theorem treeOk_of {t : Tables}
    (hshape : t.nnodes = t.node.length ∧
      ((t.nnodes = 0 ∧ t.root = none) ∨ (t.nnodes = 2 ∧ leafCount t = 1) ∨ (2 ≤ leafCount t ∧ t.nnodes = 2 * leafCount t - 1)) ∧
      t.nnodes ≤ Config.maxnodes ∧ (∀ i < t.nnodes, ((nodeAt t.node i).leaf = true ↔ i < leafCount t)) ∧
      ∀ j < leafCount t, ∀ i < j, (nodeAt t.node i).sym < (nodeAt t.node j).sym)
    (hrefs : (0 < t.nnodes → t.root = some (t.nnodes - 1)) ∧
      (∀ i < t.nnodes, ∀ b, (childOf (nodeAt t.node i) b).all (fun c => decide (c < i)) = true) ∧
      (∀ c < t.nnodes - 1, (childRefs t.node).count (some c) = 1) ∧
      (2 ≤ leafCount t → ∀ i < t.nnodes, leafCount t ≤ i →
        (nodeAt t.node i).left.isSome = true ∧ (nodeAt t.node i).right.isSome = true) ∧
      (leafCount t = 1 → (nodeAt t.node 1).left = none ∧ (nodeAt t.node 1).right = some 0) ∧
      ∀ i < leafCount t, (nodeAt t.node i).left = none ∧ (nodeAt t.node i).right = none)
    (hdata : (∀ i < t.nnodes, leafCount t ≤ i →
        (nodeAt t.node i).w = weightOf t.node (nodeAt t.node i).left + weightOf t.node (nodeAt t.node i).right) ∧
      (∀ i < t.nnodes, leafCount t ≤ i → (nodeAt t.node i).sym = 0) ∧
      ∀ i < t.nnodes, 1 ≤ (nodeAt t.node i).w ∧ (nodeAt t.node i).w ≤ Config.cntmax) : TreeOk t := by
  obtain ⟨h1, h2, h3, h4, h5⟩ := hshape
  obtain ⟨h6, h7, h8, h9, h10, h12⟩ := hrefs
  obtain ⟨h11, h13, h14⟩ := hdata
  have h7' : ∀ i < t.nnodes, ∀ b, ∀ c ∈ childOf (nodeAt t.node i) b, c < i := by
    intro i hi b c hc
    have := h7 i hi b
    rw [Option.mem_def.1 hc] at this
    simpa using this
  exact ⟨h1, h2, h3, h4, h5, h6, h7', h8, h9, h10, h11, h12, h13, h14⟩

theorem treeOk_ab : TreeOk tabAB := treeOk_of (by decide +kernel) (by decide +kernel) (by decide +kernel)
theorem treeOk_a : TreeOk tabA := treeOk_of (by decide +kernel) (by decide +kernel) (by decide +kernel)
theorem treeOk_abra : TreeOk tabAbra := treeOk_of (by decide +kernel) (by decide +kernel) (by decide +kernel)
theorem treeOk_reset : TreeOk Tables.reset := treeOk_of (by decide +kernel) (by decide +kernel) (by decide +kernel)

theorem memOk_ab : MemOk tabAB := by unfold MemOk; decide +kernel
theorem codesOk_ab : CodesOk tabAB := .inr (by decide +kernel)

/-- Every idle state with these tables, no error and an idle environment is one the invariant allows. -/
theorem inv_st {tab : Tables} (hm : MemOk tab) (ht : TreeOk tab) (hc : CodesOk tab) (c : List (SrcTok Symbol))
    (b : List (SrcTok ByteTok)) (es : List Event) : Inv (st tab c b es) where
  flags := by constructor <;> simp [st, State.reset, Status.reset, Regs.reset]
  quiet := by constructor <;> intro _ <;> first | rfl | exact ⟨rfl, rfl⟩
  op := by intro h; simp [st, State.reset, Status.reset] at h
  bitcnt := by simp [BitcntOk, st, State.reset, Work.reset]
  mem := hm
  tree := ht
  codes := hc

theorem inv_ab (c : List (SrcTok Symbol)) (b : List (SrcTok ByteTok)) (es : List Event) : Inv (st tabAB c b es) :=
  inv_st memOk_ab treeOk_ab codesOk_ab c b es

/-- The state `st tabAB` with a command accepted. -/
def busyAB (i : Instr) (es : List Event) : State := { (st tabAB [] [] []).accepted i with script := es }

/-- The state `st tabAB` in the fault state. -/
def faultAB (es : List Event) : State :=
  { st tabAB [] [] es with
    status := ⟨false, false, true, false, false⟩, regs := { Regs.reset with errcode := 3#8, errinfo := 0x7A#32 } }

theorem wit_RejectedCommandOnlySetsRej :
    ((busyAB .count [.host (.write 0x04 0x6#32)]).script = [.host (.write 0x04 0x6#32)] ∧
      (busyAB .count [.host (.write 0x04 0x6#32)]).status.busy = true) ∧
    ((faultAB [.host (.write 0x04 0x7#32)]).script = [.host (.write 0x04 0x7#32)] ∧
      (faultAB [.host (.write 0x04 0x7#32)]).status.err = true ∧ 0x7#32 ≠ 0x6#32) := by decide +kernel

theorem wit_IllegalCommandWordFaults :
    (st tabAB [] [] [.host (.write 0x04 0x7#32)]).status.busy = false ∧
    (st tabAB [] [] [.host (.write 0x04 0x7#32)]).status.err = false ∧
    QuietOk (st tabAB [] [] [.host (.write 0x04 0x7#32)]) ∧ ∀ i : Instr, 0x7#32 ≠ encode i :=
  ⟨rfl, rfl, (inv_ab _ _ _).quiet, by intro i; cases i <;> decide⟩

theorem wit_LegalCommandWordIsAccepted :
    ((st tabAB [] [] [.host (.write 0x04 (encode .encode))]).status.busy = false ∧
      (st tabAB [] [] [.host (.write 0x04 (encode .encode))]).status.err = false) ∧
    ((faultAB [.host (.write 0x04 (encode .clear))]).status.busy = false ∧
      (faultAB [.host (.write 0x04 (encode .clear))]).status.err = true) := by decide +kernel

theorem wit_IndexRegistersReadBack : ∀ off ∈ [0x14, 0x28, 0x30, 0x44, 0x48],
    (st tabAB [] [] [.host (.write off 0xFFFFFFFF#32)]).script = .host (.write off 0xFFFFFFFF#32) :: [] := by
  intro off _
  rfl

theorem wit_host_writes : (st tabAB [] [] [.host (.write 0x08 0xA#32)]).script = .host (.write 0x08 0xA#32) :: [] ∧
    (st tabAB [] [] [.host (.read 0x00)]).script = .host (.read 0x00) :: [] ∧
    (st tabAB [] [] [.reset]).script = .reset :: [] := by decide +kernel

theorem wit_ReservedAndReadOnlyWritesDoNothing :
    offsetWf 0x24 = true ∧ offsetWf 0x54 = true ∧ offsetWf 0xFC = true ∧ offsetWf 0x08 = true ∧
    [0x00, 0x0C, 0x10, 0x18, 0x1C, 0x20, 0x34, 0x38, 0x3C, 0x40, 0x4C, 0x50].all offsetWf = true := by decide

theorem wit_HostReadHasNoSideEffect :
    (offsetWf 0x18 = true ∧ (busyAB .nop [.host (.read 0x18)]).status.busy = true ∧
      (busyAB .nop [.host (.read 0x18)]).script = .host (.read 0x18) :: []) ∧
    (offsetWf 0x50 = true ∧ offsetWf 0x54 = true ∧ (0x54 : Nat) ≤ 0x54) ∧
    (offsetWf 0xFC = true ∧ (st tabAB [] [] [.host (.read 0xFC)]).status.busy = false) := by decide +kernel

theorem wit_FreqDataWindow :
    (busyAB .nop [.host (.write 0x2C 5#32)]).status.busy = true ∧
    (st tabAB [] [] [.host (.write 0x2C 0#32)]).status.busy = false ∧ MemOk (st tabAB [] [] [.host (.write 0x2C 0#32)]).tab :=
  ⟨rfl, rfl, memOk_ab⟩

theorem wit_NodeWindows :
    TreeOk (st tabAB [] [] []).tab ∧
    (st tabAB [] [] []).tab.nnodes ≤ ((st tabAB [] [] []).hostOp (.write 0x30 3#32)).regs.nodeIdx.toNat ∧
    (2 < (st tabAB [] [] []).tab.nnodes ∧ ((st tabAB [] [] []).hostOp (.write 0x30 2#32)).regs.nodeIdx.toNat = 2 ∧
      (nodeAt tabAB.node 2).left = some 0 ∧ (nodeAt tabAB.node 2).right = some 1) ∧
    (nodeAt tabAB.node 0).left = none ∧ (nodeAt tabAB.node 0).right = none :=
  ⟨treeOk_ab, by decide +kernel⟩

theorem wit_CodeWindows : 31 < 32 ∧
    64 ≤ 32 * ((st tabAB [] [] []).hostOp (.write 0x48 2#32)).regs.codeWsel.toNat ∧
    ((st tabAB [] [] []).tab.codeAt 0x61#16).len ≤ 64 := by decide +kernel

theorem wit_InterruptOutputLevel : FlagsOk (faultAB []) := by constructor <;> simp [faultAB]

theorem wit_InexpressibleAccessRefused : (0x02 % 4 ≠ 0 ∧ 0x100 ≤ 0x100) ∧
    (st tabAB [] [] [.host (.read 0x02)]).script = .host (.read 0x02) :: [] ∧
    (st tabAB [] [] [.host (.write 0x100 0#32)]).script = .host (.write 0x100 0#32) :: [] := by decide +kernel

theorem wit_StepRunsTheDecodedCommand :
    ((busyAB .build [.core]).status.busy = true ∧ decodeOpcode (busyAB .build [.core]).work.op = .ok .build ∧
      (busyAB .build []).script = []) ∧
    ((st tabAB [] [] [.core]).status.busy = false ∧ (st tabAB [] [] []).script = []) := by
  refine ⟨⟨rfl, rfl, rfl⟩, rfl, rfl⟩

/-- Inhabited invariant and a step that changes something: the acceptance of ENCODE. -/
theorem wit_step_invariants : ∃ t, Inv (st tabAB [] [] [.host (.write 0x04 (encode .encode))]) ∧
    step (st tabAB [] [] [.host (.write 0x04 (encode .encode))]) = .next t ∧ t.status.busy = true :=
  ⟨_, inv_ab _ _ _, rfl, by decide +kernel⟩

theorem wit_NoStepStops : Inv (st tabAB [] [] [.host (.read 0x00)]) ∧ NextEventOk (st tabAB [] [] [.host (.read 0x00)]) := by
  refine ⟨inv_ab _ _ _, ?_⟩
  intro op es h
  have : op = .read 0x00 := by
    simp only [st, List.cons.injEq, Event.host.injEq] at h
    exact h.1.symm
  subst this
  decide

theorem inv_fault (es : List Event) : Inv (faultAB es) where
  flags := by constructor <;> simp [faultAB]
  quiet := by constructor <;> intro _ <;> first | rfl | exact ⟨rfl, rfl⟩
  op := by intro h; simp [faultAB] at h
  bitcnt := by simp [BitcntOk, faultAB, st, State.reset, Work.reset]
  mem := memOk_ab
  tree := treeOk_ab
  codes := codesOk_ab

/-- The hypotheses of `PlainR49IsKeptByEveryStep`, at the state where its conclusion fails: CLEAR is presented after a fault. -/
theorem wit_PlainR49IsKeptByEveryStep : ∃ t, Inv (faultAB [.host (.write 0x04 (encode .clear))]) ∧
    PlainR49 (faultAB [.host (.write 0x04 (encode .clear))]) ∧
    step (faultAB [.host (.write 0x04 (encode .clear))]) = .next t :=
  ⟨_, inv_fault _, by unfold PlainR49; decide, rfl⟩

/-- The two ways out of the fault state. -/
theorem wit_FaultStateLeftOnlyByClearOrReset :
    (∃ t, step (faultAB [.reset]) = .next t ∧ (faultAB [.reset]).status.err = true ∧ t.status.err = false) ∧
    (∃ t, step ((faultAB []).accepted .clear) = .next t ∧ ((faultAB []).accepted .clear).status.err = true ∧
      t.status.err = false) :=
  ⟨⟨_, rfl, by decide, by decide⟩, ⟨_, rfl, by decide, by decide⟩⟩

theorem wit_FaultsDoNotNest : ∃ t, FlagsOk (faultAB [.host (.write 0x04 0x7#32)]) ∧
    step (faultAB [.host (.write 0x04 0x7#32)]) = .next t ∧ (faultAB [.host (.write 0x04 0x7#32)]).status.err = true ∧
    t.status.err = true :=
  ⟨_, (inv_fault _).flags, rfl, by decide, by decide⟩

/-- BUILD, DERIVE, CLEAR, reset and a host write change what the two statements about writers speak of. -/
theorem wit_writers :
    (∃ t, step (busyAB .clear []) = .next t ∧ t.tab.node ≠ (busyAB .clear []).tab.node ∧
      t.tab.freq ≠ (busyAB .clear []).tab.freq ∧ t.tab.code ≠ (busyAB .clear []).tab.code) ∧
    (∃ t, step (st tabAB [] [] [.reset]) = .next t ∧ t.tab.root ≠ tabAB.root) ∧
    (∃ t, step (st tabAB [] [] [.host (.write 0x2C 5#32)]) = .next t ∧ t.tab.freq ≠ tabAB.freq) :=
  ⟨⟨_, rfl, by decide +kernel⟩, ⟨_, rfl, by decide +kernel⟩, ⟨_, rfl, by decide +kernel⟩⟩

theorem wit_WhoWritesTheControlBits :
    (∀ x ∈ [(0x14, 1), (0x28, 2), (0x30, 3), (0x44, 4), (0x48, 5)],
      ((st tabAB [] [] []).hostOp (.write x.1 1#32)).regs ≠ (st tabAB [] [] []).regs) ∧
    ((st tabAB [] [] []).hostOp (.write 0x04 0#32)).status.busy = true ∧
    ((faultAB []).hostOp (.write 0x04 0#32)).status.rej = true ∧
    ((busyAB .nop []).hostOp (.write 0x2C 0#32)).status.rej = true ∧
    ((busyAB .nop []).hostOp (.write 0x2C 0#32) |>.hostOp (.write 0x08 8#32)).status.rej = false := by decide +kernel

/-- Every command answers from `st tabAB`: the hypothesis of the two frames, and of the statements about a present tree. -/
theorem wit_CommandFrames : ∀ i : Instr, exec i (st tabAB [] [] []) = .next (after i (st tabAB [] [] [])) :=
  fun i => exec_after i _

/-- A sink that is not ready. -/
def stuckSink {α : Type} : SinkPort α := ⟨[], none, [[]]⟩

/-- A running command at this place, with this many bits in the buffer, no token available and sinks that are not ready. -/
def stuckAB (p : Phase) (cnt : Nat) : State :=
  { busyAB .encode [] with
    work := { Work.reset with phase := p, bitcnt := cnt }
    env := { (busyAB .encode []).env with bout := stuckSink, cout := stuckSink } }

/-- The hypotheses hold at every place of the pseudocodes, so at the eight that the statement names. -/
theorem wit_WaitingChangesNothing (p : Phase) (cnt : Nat) :
    (stuckAB p cnt).work.phase = p ∧ (stuckAB p cnt).work.bitcnt = cnt ∧ (stuckAB p cnt).env.cin.avail = [] ∧
    (stuckAB p cnt).env.bin.avail = [] ∧
    (stuckAB p cnt).env.bout.answers = [] ∧ (stuckAB p cnt).env.bout.thereafter = none ∧
    (stuckAB p cnt).env.cout.answers = [] ∧ (stuckAB p cnt).env.cout.thereafter = none :=
  ⟨rfl, rfl, rfl, rfl, rfl, rfl, rfl, rfl⟩

/-- A stream that has no terminator yet holds COUNT, ENCODE and DECODE with `BUSY = 1`; so do sinks that are not ready at `end` and at
`abort`. -/
theorem wit_TokensInPiecesMakeNoDifference :
    ((run .count tabAB [.data 0x61#16] []).status.busy = true ∧ (run .encode tabAB [.data 0x61#16] []).status.busy = true ∧
      (run .decode tabAB [] [.data ⟨0x80#8, 7#3⟩]).status.busy = true) ∧
    ((stuckAB .encodeEnd 0).env.bout.thereafter = none ∧ (after .encode (stuckAB .encodeEnd 0)).status.busy = true) ∧
    ((stuckAB (.abort .walkOff 1#32) 0).env.cout.thereafter = none ∧
      (after .decode (stuckAB (.abort .walkOff 1#32) 0)).status.busy = true) := by decide +kernel

/-- Single steps of a command that goes on, and of one that ends. -/
theorem wit_CoreStepsAddUpToTheRun :
    (∃ t, (busyAB .count []).status.busy = true ∧ coreStep .count (busyAB .count []) = .next t ∧ t.status.busy = true) ∧
    (∃ t, (stuckAB .finish 0).status.busy = true ∧ coreStep .encode (stuckAB .finish 0) = .next t ∧ t.status.busy = false) :=
  ⟨⟨_, rfl, rfl, rfl⟩, _, rfl, rfl, rfl⟩

/-- A path of 65 branches to the only leaf, node 0. -/
def tabDeep : Tables :=
  { Tables.reset with
    node := ⟨1, true, 0x61#16, none, none⟩ :: (List.range 65).map fun i => ⟨1, false, 0#16, none, some i⟩
    root := some 65
    nnodes := 66 }

/-- The one whole run of a command is a run of it. -/
theorem runOf_after (i : Instr) (s : State) : RunOf i s (after i (s.accepted i)) :=
  .core .accepted rfl (exec_after i _)

/-- A run that a source held, in which the host read `STATUS` and the source then failed. -/
def resumed : State :=
  after .encode (((run .encode tabAB [.data 0x61#16] []).hostOp (.read 0x08)).envOp (.moreCin [⟨2#2, 0#16⟩]))

theorem wit_resumed : RunOf .encode (st tabAB [.data 0x61#16] [] []) resumed ∧ resumed.status.busy = false ∧
    resumed.regs.errcode = 5#8 := by
  have hb : (run .encode tabAB [.data 0x61#16] []).status.busy = true := by decide +kernel
  exact ⟨.core (.env (.host (runOf_after _ _) hb (.read 0x08)) hb (.moreCin [⟨2#2, 0#16⟩])) hb (exec_after _ _),
    by decide +kernel⟩

/-- Every command that can fault does so from some state without a fault (`runOf_after`: these are runs). -/
theorem wit_FaultsOfEachCommand :
    (run .count tabAB [.failTok] []).regs.errcode = 5#8 ∧
    (run .build { Tables.reset with freq := [(0x41, 0xFFFFFFFF#32)] } [] []).regs.errcode = 2#8 ∧
    (run .derive tabDeep [] []).regs.errcode = 7#8 ∧
    (run .encode tabAB [.data 0x7A#16] []).regs.errcode = 3#8 ∧
    (run .decode tabA [] [.data ⟨0x00#8, 7#3⟩]).regs.errcode = 4#8 := by decide +kernel

/-- ENCODE and DECODE with a sink that answers `fail` to the write number `n` (counted from 0). -/
def withFail (s : State) (n : Nat) : State :=
  { s with env := { s.env with
      bout := ⟨List.replicate n .ok ++ [.fail], some .ok, []⟩, cout := ⟨List.replicate n .ok ++ [.fail], some .ok, []⟩ } }

/-- The three ends of `EverySinkInstanceIsTerminated` (`runOf_after`, `wit_resumed`): `end`, `abort`, and a write answered `fail` (here the `end` itself). -/
theorem wit_EverySinkInstanceIsTerminated :
    (run .encode tabAB (streamOf [0x61#16] .endTok) []).status.toWord = 0x2#32 ∧
    (run .encode tabAB (streamOf [0x7A#16] .endTok) []).status.toWord = 0x4#32 ∧
    (after .encode ((withFail (st tabAB (streamOf [0x61#16] .endTok) [] []) 1).accepted .encode)).regs.errinfo = 2#32 ∧
    (run .decode tabAB [] (streamOf [⟨0x80#8, 7#3⟩] .endTok)).status.toWord = 0x2#32 ∧
    (run .decode tabA [] (streamOf [⟨0x00#8, 7#3⟩] .endTok)).status.toWord = 0x4#32 ∧
    (after .decode ((withFail (st tabAB [] (streamOf [⟨0x80#8, 7#3⟩] .endTok) []) 1).accepted .decode)).regs.errinfo = 3#32 := by
  decide +kernel

theorem wit_Nop_Clear : QuietOk (st tabAB [] [] []) ∧ (st tabAB [] [] []).status.busy = false ∧
    QuietOk (faultAB []) ∧ (faultAB []).status.busy = false :=
  ⟨(inv_ab _ _ _).quiet, rfl, (inv_fault _).quiet, rfl⟩

theorem upcoming_st (t : Tables) (c : List (SrcTok Symbol)) : (st t c [] []).env.cin.upcoming = c :: [] := rfl

/-- There are streams of `CNTMAX` symbols. -/
theorem exists_length (n : Nat) : ∃ xs : List Symbol, xs.length = n := ⟨List.replicate n 0x61#16, List.length_replicate⟩

/-- The longest stream COUNT takes (R137 (c)). -/
theorem wit_CountCountsEverySymbol : ∃ xs : List Symbol,
    (st tabAB (streamOf xs .endTok) [] []).env.cin.upcoming = streamOf xs .endTok :: [] ∧ xs.length ≤ Config.cntmax ∧
    Config.cntmax ≤ xs.length := by
  obtain ⟨xs, h⟩ := exists_length Config.cntmax
  exact ⟨xs, upcoming_st _ _, h.le, h.ge⟩

theorem wit_CountFaultsKeepPartialCounts :
    (∃ xs : List Symbol, (st tabAB (streamOf xs .failTok) [] []).env.cin.upcoming = streamOf xs .failTok :: [] ∧
      xs.length ≤ Config.cntmax) ∧
    (∃ xs : List Symbol, (st tabAB (streamOf xs (.data 0x62#16) ++ [.endTok]) [] []).env.cin.upcoming =
      (streamOf xs (.data 0x62#16) ++ [.endTok]) :: [] ∧ xs.length = Config.cntmax) := by
  obtain ⟨xs, h⟩ := exists_length Config.cntmax
  exact ⟨⟨[], upcoming_st _ _, Nat.zero_le _⟩, xs, upcoming_st _ _, h⟩

theorem wit_CountIgnoresOrder :
    (∀ c : Symbol, [0x61#16, 0x62#16].count c = [0x62#16, 0x61#16].count c) ∧ [0x61#16, 0x62#16].length ≤ Config.cntmax ∧
    (st tabAB (streamOf [0x61#16, 0x62#16] .endTok) [] []).env.cin.upcoming = streamOf [0x61#16, 0x62#16] .endTok :: [] ∧
    exec .count ((st tabAB (streamOf [0x61#16, 0x62#16] .endTok) [] []).accepted .count) =
      .next (run .count tabAB (streamOf [0x61#16, 0x62#16] .endTok) []) :=
  ⟨fun c => List.Perm.count_eq (List.Perm.swap _ _ _) c, by decide, rfl, exec_after _ _⟩

/-- A negative entry; and two entries whose sum is just above `CNTMAX` (R157 (h), (i)). -/
theorem wit_BuildRejectsInvalidFrequencies :
    (MemOk { tabAB with freq := [(0, 0x80000000#32)] } ∧
      (Tables.freqAt { tabAB with freq := [(0, 0x80000000#32)] } 0#16).msb = true ∧ ∀ d : Symbol, ¬ d < 0#16) ∧
    (MemOk { tabAB with freq := [(0, 0x40000000#32), (1, 0x40000000#32)] } ∧
      (∀ c : Symbol, (Tables.freqAt { tabAB with freq := [(0, 0x40000000#32), (1, 0x40000000#32)] } c).msb = false) ∧
      Config.cntmax < totalFreq { tabAB with freq := [(0, 0x40000000#32), (1, 0x40000000#32)] }) := by
  have hm : MemOk { tabAB with freq := [(0, 0x40000000#32), (1, 0x40000000#32)] } := by unfold MemOk; decide +kernel
  refine ⟨⟨by unfold MemOk; decide +kernel, by decide +kernel, by intro d; simp⟩, hm, fun c => ?_, ?_⟩
  · simp only [Tables.freqAt, Memory_read_cons, Memory_read_nil]
    split
    · decide
    · split <;> decide
  · rw [← freqSum_eq_totalFreq hm]
    decide +kernel

theorem freqValid_of {t : Tables} (hm : MemOk t) (hn : ∀ e ∈ t.freq, e.2.msb = false) (hs : freqSum t.freq ≤ Config.cntmax) :
    FreqValid t := by
  refine ⟨fun c => ?_, by rwa [← freqSum_eq_totalFreq hm]⟩
  by_cases h : Memory.read 0#32 t.freq c.toNat = 0#32
  · show (Memory.read 0#32 t.freq c.toNat).msb = false
    rw [h]; decide
  · have hmem := Memory_mem_of_read h
    exact hn (c.toNat, Memory.read 0#32 t.freq c.toNat) hmem

theorem freqValid_ab : FreqValid tabAB := freqValid_of memOk_ab (by decide +kernel) (by decide +kernel)

/-- No key, one key with the largest count (R157 (g)), two keys. -/
theorem wit_BuildMakesOneLeafPerKey :
    (MemOk Tables.reset ∧ FreqValid Tables.reset) ∧
    (MemOk { Tables.reset with freq := [(0xFFFF, 0x7FFFFFFF#32)] } ∧
      FreqValid { Tables.reset with freq := [(0xFFFF, 0x7FFFFFFF#32)] }) ∧
    (MemOk tabAB ∧ FreqValid tabAB) := by
  have h0 : MemOk Tables.reset := by unfold MemOk; decide +kernel
  have h1 : MemOk { Tables.reset with freq := [(0xFFFF, 0x7FFFFFFF#32)] } := by unfold MemOk; decide +kernel
  exact ⟨⟨h0, freqValid_of h0 (by decide +kernel) (by decide +kernel)⟩,
    ⟨h1, freqValid_of h1 (by decide +kernel) (by decide +kernel)⟩, memOk_ab, freqValid_ab⟩

theorem wit_BuildCombinesTheTwoLeast : MemOk (st tabAB [] [] []).tab ∧ FreqValid (st tabAB [] [] []).tab ∧
    exec .build ((st tabAB [] [] []).accepted .build) = .next (run .build tabAB [] []) ∧
    2 ≤ leafCount (run .build tabAB [] []).tab :=
  ⟨memOk_ab, freqValid_ab, exec_after _ _, by decide +kernel⟩

theorem wit_DeriveStoresEveryLeafPath : TreeOk tabAbra ∧
    (∀ r i p, tabAbra.root = some r → (nodeAt tabAbra.node i).leaf = true → PathTo tabAbra.node r i p →
      p.length ≤ Config.maxlen) ∧
    TreeOk Tables.reset ∧ Tables.reset.root = none := by
  refine ⟨treeOk_abra, fun r i p hr _ hp => ?_, treeOk_reset, rfl⟩
  have h8 : r = 8 := by
    have : some 8 = some r := hr
    simpa using this.symm
  subst h8
  have := PathTo_length treeOk_abra (by decide +kernel) hp
  show p.length ≤ 64
  omega

/-- Node 0 of the tree of "abracadabra" has the one path `0`: its only parent is the root. -/
theorem path_abra_zero {q : List Bool} (h : PathTo tabAbra.node 8 0 q) : q = [false] := by
  generalize hz : (0 : Nat) = z at h
  cases h with
  | root => cases hz
  | @child i _ p b hp hc =>
    subst hz
    have hlen := PathTo_length treeOk_abra (by decide +kernel) hp
    have key : ∀ i < 9, ∀ b, childOf (nodeAt tabAbra.node i) b = some 0 → i = 8 ∧ b = false := by decide +kernel
    obtain ⟨rfl, rfl⟩ := key i (by omega) b hc
    rw [List.eq_nil_of_length_eq_zero (by omega : p.length = 0)]
    rfl

/-- R261: `MAXLEN = 2`, where leaf 1 is too deep and leaf 0 is not; and a path of 65 branches for the parameter's own value. -/
theorem wit_DeriveRejectsTooDeepLeaves :
    (TreeOk tabAbra ∧ tabAbra.root = some 8 ∧ (nodeAt tabAbra.node 1).leaf = true ∧
      PathTo tabAbra.node 8 1 [true, true, false] ∧ 2 < [true, true, false].length ∧
      ∀ i < 1, ∀ q, (nodeAt tabAbra.node i).leaf = true → PathTo tabAbra.node 8 i q → q.length ≤ 2) ∧
    codeLenFault Config.maxlen tabDeep = some 0x61#16 := by
  refine ⟨⟨treeOk_abra, rfl, rfl, ?_, by decide, fun i hi q _ hp => ?_⟩, by decide +kernel⟩
  · exact .child (b := false) (.child (b := true) (.child (b := true) .root (c := 7) rfl) (c := 6) rfl) rfl
  · obtain rfl : i = 0 := by omega
    rw [path_abra_zero hp]
    decide

theorem wit_DerivedCodesArePrefixFree : TreeOk (st tabAB [] [] []).tab ∧
    exec .derive ((st tabAB [] [] []).accepted .derive) = .next (run .derive tabAB [] []) ∧
    (run .derive tabAB [] []).status.done = true ∧ 0 < ((run .derive tabAB [] []).tab.codeAt 0x61#16).len ∧
    0 < ((run .derive tabAB [] []).tab.codeAt 0x62#16).len :=
  ⟨treeOk_ab, exec_after _ _, by decide +kernel⟩

theorem sinkTakesAll_reset : SinkTakesAll Env.reset.bout ∧ SinkTakesAll Env.reset.cout := by
  simp [SinkTakesAll, Env.reset]

/-- A stream of symbols with codes, and a symbol without one (R192 (g)). -/
theorem wit_Encode : SinkTakesAll (st tabAB [] [] []).env.bout ∧ SinkTakesAll (st tabAB [] [] []).env.cout ∧
    (tabAB.codeAt 0x61#16).len ≠ 0 ∧ (tabAB.codeAt 0x62#16).len ≠ 0 ∧ (tabAB.codeAt 0x7A#16).len = 0 :=
  ⟨sinkTakesAll_reset.1, sinkTakesAll_reset.2, by decide +kernel⟩

/-- A walk that stays in the tree, and one that leaves it, on a stream that then fails. -/
theorem wit_DecodeWalksTheTree :
    (st tabA [] ([⟨0xB0#8, 4#3⟩].map .data ++ [.failTok]) []).env.bin.upcoming = ([⟨0xB0#8, 4#3⟩].map .data ++ [.failTok]) :: [] ∧
    (run .decode tabA [] ([⟨0xB0#8, 4#3⟩].map .data ++ [.failTok])).regs.errcode = 4#8 ∧ tabA.root = some 1 ∧
    walk tabA.node 1 1 (streamBits [⟨0xF0#8, 4#3⟩]) = (List.replicate 4 0x61#16, .atNode 1) ∧
    walk tabA.node 1 1 (streamBits [⟨0xB0#8, 4#3⟩]) = ([0x61#16], .offNode 1) ∧
    (st Tables.reset [] [] []).tab.root = none := by decide +kernel

theorem wit_WalkOffOnlyInOneSymbolTrees : (TreeOk tabA ∧ tabA.root = some 1 ∧ leafCount tabA = 1) ∧
    (TreeOk tabAB ∧ tabAB.root = some 2 ∧ leafCount tabAB = 2) :=
  ⟨⟨treeOk_a, by decide +kernel⟩, treeOk_ab, by decide +kernel⟩

theorem wit_WalkingTheCodesGivesTheSymbols : TreeOk tabAB ∧ tabAB.root = some 2 ∧ tabAB = tabAB.withCodes ∧
    codeLenFault Config.maxlen tabAB = none ∧ (tabAB.codeAt 0x61#16).len ≠ 0 ∧ (tabAB.codeAt 0x62#16).len ≠ 0 :=
  ⟨treeOk_ab, by decide +kernel⟩

/-- The round trip starts from any state without a fault, here with the stream prepared twice, and no code is too long. -/
theorem wit_PipelineRoundTrip :
    let s := { st tabAB [] [] [] with env := { Env.reset with cin := ⟨false, [], [streamOf abra .endTok, streamOf abra .endTok]⟩ } }
    s.status.err = false ∧ abra.length ≤ Config.cntmax ∧
    s.env.cin.upcoming = streamOf abra .endTok :: streamOf abra .endTok :: [] ∧
    codeLenFault Config.maxlen (after .build ((after .count (s.accepted .count)).accepted .build)).tab = none := by
  decide +kernel

end Sys2Proof.Tests
end

section
/-! PROOFS. What a command keeps while it runs, one lemma per update: `Kept`. -/

namespace Sys2Proof.Machine

open Sys2Proof

/-! ### What a command does -/

/-- What a command other than CLEAR can make of the tables. -/
inductive TabMove : Instr → Tables → Tables → Prop
  | same (i : Instr) (t : Tables) : TabMove i t t
  | counted {t : Tables} {freq : Memory Word} (hwf : Memory.wf Config.nsym 0#32 t.freq → Memory.wf Config.nsym 0#32 freq) :
      TabMove .count t { t with freq := freq }
  | built {t : Tables} (hneg : negativeEntry t.freq = none) (hsum : freqSum t.freq ≤ Config.cntmax) :
      TabMove .build t t.withTree
  | derived {t : Tables} (hlen : codeLenFault Config.maxlen t = none) : TabMove .derive t t.withCodes
  | tooDeep (t : Tables) : TabMove .derive t t.emptyCode

theorem TabMove.freq_eq {i : Instr} {t t' : Tables} (h : TabMove i t t') (hi : i ≠ .count) : t'.freq = t.freq := by
  cases h with
  | counted => exact absurd rfl hi
  | same | built | derived | tooDeep => rfl

theorem TabMove.code_eq {i : Instr} {t t' : Tables} (h : TabMove i t t') (hb : i ≠ .build) (hd : i ≠ .derive) :
    t'.code = t.code ∧ t'.ncodes = t.ncodes := by
  cases h with
  | same | counted => exact ⟨rfl, rfl⟩
  | built => exact absurd rfl hb
  | derived | tooDeep => exact absurd rfl hd

/-- The state `u` of the command `i`, begun in `s`, before its flags, its fault record and its ports are settled at its end. -/
structure Kept (i : Instr) (s u : State) : Prop where
  busy : u.status.busy = s.status.busy
  done : u.status.done = s.status.done
  err : u.status.err = s.status.err
  rej : u.status.rej = s.status.rej
  trunc : i ≠ .decode → u.status.trunc = s.status.trunc
  regs : u.regs = s.regs
  op : u.work.op = s.work.op
  bitcnt : BitcntOk s → BitcntOk u
  tab : TabMove i s.tab u.tab
  script : u.script = s.script
  reads : u.reads = s.reads
  draws : u.draws = s.draws
  cinUpcoming : u.env.cin.upcoming = s.env.cin.upcoming
  binUpcoming : u.env.bin.upcoming = s.env.bin.upcoming
  cin : i ≠ .count → i ≠ .encode → u.env.cin = s.env.cin
  bin : i ≠ .decode → u.env.bin = s.env.bin
  bout : i ≠ .encode → u.env.bout = s.env.bout
  cout : i ≠ .decode → u.env.cout = s.env.cout

variable {i : Instr} {s u : State}

theorem Kept.refl (i : Instr) (s : State) : Kept i s s := by
  constructor
  case tab => exact .same _ _
  case bitcnt => exact id
  all_goals intros; rfl

theorem Kept.goto (h : Kept i s u) (p : Phase) : Kept i s (u.goto p) := { h with }

theorem Kept.withTab (h : Kept i s u) {t : Tables} (ht : TabMove i s.tab t) : Kept i s (u.withTab t) := { h with tab := ht }

theorem Kept.withCinAvail (h : Kept i s u) (hi : i = .count ∨ i = .encode) (ts : List (SrcTok Symbol)) :
    Kept i s (u.withCinAvail ts) := { h with cin := fun h1 h2 => by tauto }

theorem Kept.withBinAvail (h : Kept .decode s u) (ts : List (SrcTok ByteTok)) :
    Kept .decode s (u.withBinAvail ts) := { h with bin := fun hi => absurd rfl hi }

theorem Kept.withBout (h : Kept .encode s u) (p : SinkPort ByteTok) : Kept .encode s (u.withBout p) :=
  { h with bout := fun hi => absurd rfl hi }

theorem Kept.withCout (h : Kept .decode s u) (p : SinkPort Symbol) : Kept .decode s (u.withCout p) :=
  { h with cout := fun hi => absurd rfl hi }

theorem Kept.withTruncFlag (h : Kept .decode s u) (b : Bool) : Kept .decode s (u.withTruncFlag b) :=
  { h with trunc := fun hi => absurd rfl hi }

theorem Kept.pushBit (h : Kept i s u) (hu : u.work.bitcnt ≠ 8) (b : Bool) : Kept i s (u.pushBit b) :=
  { h with bitcnt := fun hs => by have := h.bitcnt hs; simp only [BitcntOk, State_pushBit_work] at *; omega }

theorem Kept.clearBitBuf (h : Kept i s u) : Kept i s u.clearBitBuf := { h with bitcnt := fun _ => Nat.zero_le 8 }

theorem Kept.loadByte (h : Kept i s u) (t : ByteTok) : Kept i s (u.loadByte t) :=
  { h with bitcnt := fun _ => Nat.sub_le 8 _ }

theorem Kept.shiftBit (h : Kept i s u) : Kept i s u.shiftBit :=
  { h with bitcnt := fun hs => (Nat.sub_le _ 1).trans (h.bitcnt hs) }

theorem Kept.setCur (h : Kept i s u) (c : Option Nat) : Kept i s (u.setCur c) := { h with }

theorem TabMove.emptyFreq {t t' : Tables} (h : TabMove .count t t') : TabMove .count t t'.emptyFreq := by
  cases h with
  | same | counted => exact .counted fun _ => Memory_wf_nil _

theorem TabMove.countSymbol {t t' : Tables} (h : TabMove .count t t') (c : Symbol) : TabMove .count t (t'.countSymbol c) := by
  cases h with
  | same => exact .counted fun h => Memory_write_wf h c.isLt
  | counted hwf => exact .counted fun h => Memory_write_wf (hwf h) c.isLt

end Sys2Proof.Machine

end

section
/-! PROOFS. What the core's move does to a command that runs, one step or a whole run: `CommandMove`. -/

namespace Sys2Proof.Machine

open Sys2Proof

/-- Everything a command can do in one move of the core, whether the move is one step or a whole run (R222, R225, R235, R256):
it goes on from a later place, completes, or takes a fault; and CLEAR, which ends at once, empties the tables. -/
inductive CommandMove (i : Instr) (s : State) : State → Prop
  | runs {u : State} (h : Kept i s u) : CommandMove i s u
  | completes {u : State} (hi : i ≠ .clear) (h : Kept i s u) : CommandMove i s u.complete
  | faults {u : State} {code : FaultCode} {info : Word} (hi : i ≠ .clear) (h : Kept i s u) :
      CommandMove i s (u.takeFault code info)
  | clears (hi : i = .clear) : CommandMove i s (s.withTab Tables.reset).leaveFault.complete

/-- Where a step of the core leads: `P` where the command goes on, `Q` where it has ended. -/
def Micro.Goes (m : Micro) (P Q : State → Prop) : Prop :=
  match m with
  | .more s => P s
  | .hold => True
  | .done s => Q s

theorem Micro_goes_of_leads {m : Micro} {P Q : State → Prop} (hPQ : ∀ s, P s → Q s) (h : m.Leads P) : m.Goes P Q := by
  cases m with
  | more s => exact h
  | hold => trivial
  | done s => exact hPQ s h

theorem Micro_after_of_goes {m : Micro} {P Q : State → Prop} (hPQ : ∀ s, P s → Q s) (h : m.Goes P Q) {s : State} (hs : P s) :
    Q (m.after s) := by
  cases m with
  | more t => exact hPQ t h
  | hold => exact hPQ s hs
  | done t => exact h

theorem runMicro_of_goes {f : State → Micro} {P Q : State → Prop} (hPQ : ∀ s, P s → Q s) (hf : ∀ s, P s → (f s).Goes P Q) :
    ∀ (n : Nat) (s : State), P s → Q (runMicro f n s)
  | 0, s, hs => hPQ s hs
  | n + 1, s, hs => by
    have h := hf s hs
    rw [runMicro]
    split
    · next heq => rw [heq] at h; exact runMicro_of_goes hPQ hf n _ h
    · exact hPQ s hs
    · next heq => rw [heq] at h; exact h

/-! ### The steps of the streaming commands -/

variable {s u : State}

theorem countLoop_kept (h : Kept .count s u) (total : Nat) : (countLoop total u).Leads (Kept .count s) := by
  unfold countLoop
  split
  · trivial
  · next hr =>
    obtain ⟨ts, -, rfl⟩ := State_readCin_eq_some hr
    have h1 := h.withCinAvail (.inl rfl) ts
    unfold countToken
    split
    · exact h1.goto _
    · exact raise_leads h1.goto
    · split
      · exact raise_leads h1.goto
      · exact (h1.withTab (h1.tab.countSymbol _)).goto _

theorem countStep_goes (h : Kept .count s u) : (countStep u).Goes (Kept .count s) (CommandMove .count s) := by
  unfold countStep
  split
  · exact Micro_goes_of_leads (fun _ => .runs) (countLoop_kept h _)
  · exact .completes nofun h
  · exact .faults nofun h
  · exact (h.withTab h.tab.emptyFreq).goto _

theorem writeBitBuf_kept (h : Kept .encode s u) : (writeBitBuf u).Leads (Kept .encode s) :=
  sinkWritten_bout_leads (fun p _ => (h.withBout p).goto _) fun p _ => (h.withBout p).clearBitBuf

theorem encodeLoop_kept (h : Kept .encode s u) (bits : List Bool) : (encodeLoop bits u).Leads (Kept .encode s) := by
  unfold encodeLoop
  split
  · exact writeBitBuf_kept h
  · next hcnt =>
    split
    · exact (h.pushBit hcnt _).goto _
    · split
      · trivial
      · next hr =>
        obtain ⟨ts, -, rfl⟩ := State_readCin_eq_some hr
        have h1 := h.withCinAvail (.inr rfl) ts
        unfold encodeToken
        split
        · exact raise_leads h1.goto
        · exact h1.goto _
        · split
          · exact raise_leads h1.goto
          · exact h1.goto _

theorem encodeWriteEnd_kept (h : Kept .encode s u) : (encodeWriteEnd u).Leads (Kept .encode s) := by
  unfold encodeWriteEnd
  split
  · exact sinkWritten_bout_leads (fun p _ => (h.withBout p).goto _) fun p _ => (h.withBout p).goto _
  · exact writeBitBuf_kept h

theorem encodeStep_goes (h : Kept .encode s u) : (encodeStep u).Goes (Kept .encode s) (CommandMove .encode s) := by
  unfold encodeStep
  split
  · exact Micro_goes_of_leads (fun _ => .runs) (encodeLoop_kept h _)
  · exact Micro_goes_of_leads (fun _ => .runs) (encodeWriteEnd_kept h)
  · exact Micro_goes_of_leads (fun _ => .runs) (abortTaken_bout_leads fun _ p _ => (h.withBout p).goto _)
  · exact .completes nofun h
  · exact .faults nofun h
  · exact h.goto _

theorem walkBit_kept (h : Kept .decode s u) (b : Bool) : (walkBit b u).Leads (Kept .decode s) := by
  unfold walkBit
  split
  · exact raise_leads h.goto
  · dsimp only
    split
    · exact (h.setCur _).goto _
    · exact h.setCur _

theorem decodeLoop_kept (h : Kept .decode s u) : (decodeLoop u).Leads (Kept .decode s) := by
  unfold decodeLoop
  split
  · split
    · trivial
    · next hr =>
      obtain ⟨ts, -, rfl⟩ := State_readBin_eq_some hr
      have h1 := h.withBinAvail ts
      unfold decodeToken
      split
      · exact h1.goto _
      · exact raise_leads h1.goto
      · exact h1.loadByte _
  · exact walkBit_kept h.shiftBit _

theorem decodeStart_kept (h : Kept .decode s u) : (decodeStart u).Leads (Kept .decode s) := by
  unfold decodeStart
  split
  · exact h.goto _
  · exact (h.setCur _).goto _

theorem decodeStep_goes (h : Kept .decode s u) : (decodeStep u).Goes (Kept .decode s) (CommandMove .decode s) := by
  have hp : ∀ v, Kept .decode s v → CommandMove .decode s v := fun _ => .runs
  unfold decodeStep
  split
  · exact Micro_goes_of_leads hp (decodeLoop_kept h)
  · exact Micro_goes_of_leads hp <|
      sinkWritten_cout_leads (fun p _ => (h.withCout p).goto _) fun p _ => ((h.withCout p).setCur _).goto _
  · exact Micro_goes_of_leads hp <|
      sinkWritten_cout_leads (fun p _ => (h.withCout p).goto _) fun p _ => (h.withCout p).goto _
  · exact Micro_goes_of_leads hp (abortTaken_cout_leads fun _ p _ => (h.withCout p).goto _)
  · exact .completes nofun (h.withTruncFlag _)
  · exact .faults nofun h
  · exact Micro_goes_of_leads hp (decodeStart_kept h)

/-! ### The commands -/

theorem execBuild_move {t : State} (h : execBuild s = .next t) : CommandMove .build s t := by
  have hs := Kept.refl .build s
  rcases execBuild_cases s with ⟨sym, -, he⟩ | ⟨-, -, he⟩ | ⟨hneg, hsum, he⟩ <;> cases he.symm.trans h
  · exact .faults nofun hs
  · exact .faults nofun hs
  · exact .completes (u := s.withTab s.tab.withTree) nofun (hs.withTab (.built hneg hsum))

theorem execDerive_move {t : State} (h : execDerive s = .next t) : CommandMove .derive s t := by
  have hs := Kept.refl .derive s
  rcases execDerive_cases s with ⟨c, -, he⟩ | ⟨hlen, he⟩ <;> cases he.symm.trans h
  · exact .faults nofun (hs.withTab (.tooDeep _))
  · exact .completes nofun (hs.withTab (.derived hlen))

/-- What the run of a command can do. -/
theorem exec_move {i : Instr} {t : State} (h : exec i s = .next t) : CommandMove i s t := by
  have hs := Kept.refl i s
  cases i with
  | nop => cases h; exact .completes nofun hs
  | count => cases h; exact runMicro_of_goes (fun _ => .runs) (fun _ => countStep_goes) _ _ hs
  | build => exact execBuild_move h
  | derive => exact execDerive_move h
  | encode => cases h; exact runMicro_of_goes (fun _ => .runs) (fun _ => encodeStep_goes) _ _ hs
  | decode => cases h; exact runMicro_of_goes (fun _ => .runs) (fun _ => decodeStep_goes) _ _ hs
  | clear => cases h; exact .clears rfl

/-- What one step of a command can do. -/
theorem coreStep_move {i : Instr} {t : State} (h : coreStep i s = .next t) : CommandMove i s t := by
  have hs := Kept.refl i s
  cases i with
  | nop | build | derive | clear => exact exec_move h
  | count => cases h; exact Micro_after_of_goes (fun _ => .runs) (countStep_goes hs) hs
  | encode => cases h; exact Micro_after_of_goes (fun _ => .runs) (encodeStep_goes hs) hs
  | decode => cases h; exact Micro_after_of_goes (fun _ => .runs) (decodeStep_goes hs) hs

end Sys2Proof.Machine

end

section
/-! PROOFS. The decoder and the encoder agree, what a command word does, and everything a step can do: `StepMove`. -/

namespace Sys2Proof

/-- R101: an opcode is read as a command exactly when it is that command's. -/
theorem decodeOpcode_eq_ok {op : BitVec 8} {i : Instr} : decodeOpcode op = .ok i ↔ op = encodeOpcode i := by
  constructor
  · intro h
    unfold decodeOpcode at h
    split at h <;> cases h <;> exact BitVec.eq_of_toNat_eq (by assumption)
  · rintro rfl
    cases i <;> rfl

theorem extractLsb'_encode (i : Instr) : (encode i).extractLsb' 0 8 = encodeOpcode i := by cases i <;> rfl

/-- R100 to R102: a word is read as a command exactly when it is that command's encoding. -/
theorem decodeWord_eq_ok {w : Word} {i : Instr} : decodeWord w = .ok i ↔ w = encode i := by
  constructor
  · intro h
    unfold decodeWord at h
    split at h
    · next hhigh =>
      rw [encode, ← decodeOpcode_eq_ok.1 h, ← hhigh]
      exact (BitVec.extractLsb'_append_extractLsb' (w := 24) (len := 8)).symm
    · cases h
  · rintro rfl
    cases i <;> rfl

/-- The byte offset of a register (R67); `reserved` has many and gets one of them. -/
def Reg.offset : Reg → Nat
  | .id => 0x00
  | .cmd => 0x04
  | .status => 0x08
  | .errcode => 0x0C
  | .errinfo => 0x10
  | .inten => 0x14
  | .root => 0x18
  | .nnodes => 0x1C
  | .ncodes => 0x20
  | .freqIdx => 0x28
  | .freqData => 0x2C
  | .nodeIdx => 0x30
  | .nodeW => 0x34
  | .nodeInfo => 0x38
  | .nodeL => 0x3C
  | .nodeR => 0x40
  | .codeIdx => 0x44
  | .codeWsel => 0x48
  | .codeLen => 0x4C
  | .codeBits => 0x50
  | .reserved => 0x24

theorem offset_of_regAt {off : Nat} (h : regAt off ≠ .reserved) : off = (regAt off).offset := by
  revert h
  unfold regAt
  split
  case h_21 => exact fun h => absurd rfl h
  all_goals exact fun _ => rfl

end Sys2Proof

namespace Sys2Proof.Machine

open Sys2Proof

/-- What presenting a command word can do (R220, R221): it is rejected, it is illegal, or a command is accepted. -/
theorem presentCommand_cases (s : State) (w : Word) :
    ((s.status.busy = true ∨ s.status.err = true ∧ w ≠ encode .clear) ∧ s.presentCommand w = s.reject) ∨
    (s.status.busy = false ∧ s.status.err = false ∧ s.presentCommand w = s.takeFault .illegalCmd w) ∨
    ∃ i, s.status.busy = false ∧ (s.status.err = false ∨ i = .clear) ∧ w = encode i ∧ s.presentCommand w = s.accepted i := by
  unfold State.presentCommand
  split
  · next hrej => exact .inl ⟨by simpa using hrej, rfl⟩
  · next hrej =>
    obtain ⟨hb, he⟩ : s.status.busy = false ∧ (s.status.err = true → w = encode .clear) := by simpa using hrej
    right
    split
    · next hd =>
      have hw : w ≠ encode .clear := by rintro rfl; cases hd
      exact .inl ⟨hb, by simpa [hw] using he, rfl⟩
    · next i hd =>
      obtain rfl := decodeWord_eq_ok.1 hd
      refine .inr ⟨i, hb, ?_, rfl, rfl⟩
      cases herr : s.status.err with
      | false => exact .inl rfl
      | true => exact .inr (Except.ok.inj (hd.symm.trans (decodeWord_eq_ok.2 (he herr))))

/-! ### What a step can do -/

/-- The machine with the event at the head of the script, if there is one, taken off it. -/
def State.popped (s : State) : State := { s with script := s.script.tail }

@[simp] theorem State_popped_status (s : State) : s.popped.status = s.status := rfl
@[simp] theorem State_popped_regs (s : State) : s.popped.regs = s.regs := rfl
@[simp] theorem State_popped_tab (s : State) : s.popped.tab = s.tab := rfl
@[simp] theorem State_popped_work (s : State) : s.popped.work = s.work := rfl
@[simp] theorem State_popped_env (s : State) : s.popped.env = s.env := rfl

theorem State_popped_of_nil {s : State} (h : s.script = []) : s.popped = s := by
  rw [State.popped, h, List.tail_nil, ← h]

theorem State_popped_of_cons {s : State} {e : Event} {es : List Event} (h : s.script = e :: es) :
    s.popped = { s with script := es } := by rw [State.popped, h, List.tail_cons]

/-- Everything a step that answers a next state can do (R235). -/
inductive StepMove (s : State) : State → Prop
  | command {i : Instr} {t : State} (hb : s.status.busy = true) (hi : s.running = .ok i)
      (h : CommandMove i s.popped t) : StepMove s t
  | idle (hb : s.status.busy = false) : StepMove s s.popped
  | host {op : HostOp} {es : List Event} (hs : s.script = .host op :: es) : StepMove s (s.popped.hostOp op)
  | wait {es : List Event} (hs : s.script = .wait :: es) : StepMove s (s.popped.hostWait es)
  | reset {es : List Event} (hs : s.script = .reset :: es) : StepMove s s.popped.hardReset
  | env {op : EnvOp} {es : List Event} (hs : s.script = .env op :: es) : StepMove s (s.popped.envOp op)

theorem coreMove_move {s t : State} (h : coreMove s.popped = .next t) : StepMove s t := by
  unfold coreMove at h
  split at h
  · next hb =>
    split at h
    · next i hi => exact .command hb hi (exec_move h)
    · cases h
  · next hb => cases h; exact .idle (by simpa using hb)

theorem coreStepMove_move {s t : State} (h : coreStepMove s.popped = .next t) : StepMove s t := by
  unfold coreStepMove at h
  split at h
  · next hb =>
    split at h
    · next i hi => exact .command hb hi (coreStep_move h)
    · cases h
  · next hb => cases h; exact .idle (by simpa using hb)

theorem step_move {s t : State} (h : step s = .next t) : StepMove s t := by
  unfold step at h
  split at h
  · next hs => exact coreMove_move ((State_popped_of_nil hs).symm ▸ h)
  · next e es hs =>
    rw [← State_popped_of_cons hs] at h
    cases e with
    | core => exact coreMove_move h
    | coreStep => exact coreStepMove_move h
    | host op =>
      simp only [eventMove, hostMove] at h
      split at h
      · cases h; exact .host hs
      · cases op <;> cases h
    | wait =>
      have hes : s.popped.script = es := by rw [State_popped_of_cons hs]
      rw [eventMove, hes] at h
      cases h
      exact .wait hs
    | reset => cases h; exact .reset hs
    | env op => cases h; exact .env hs

end Sys2Proof.Machine

end

section
/-! PROOFS. The protocol part of the invariant: flags, fault record, working registers and latch (R43 to R46, R49). -/

namespace Sys2Proof.Machine

open Sys2Proof

/-! ### The protocol part of the invariant (R43 to R46, R49) -/

/-- The rules of the flags, the working registers and the latch, without the tables. -/
structure ProtocolOk (s : State) : Prop where
  flags : FlagsOk s
  quiet : QuietOk s
  op : OpOk s
  bitcnt : BitcntOk s

/-- The rules of the flags do not depend on anything else, and hold on when the host clears `DONE`. -/
theorem FlagsOk.congr {s t : State} (h : FlagsOk s) (hbusy : t.status.busy = s.status.busy)
    (hdone : t.status.done = true → s.status.done = true) (herr : t.status.err = s.status.err)
    (hcode : t.regs.errcode = s.regs.errcode) (hinfo : t.regs.errinfo = s.regs.errinfo) (hop : t.work.op = s.work.op) :
    FlagsOk t where
  busyNotDone hb := by have := h.busyNotDone (hbusy ▸ hb); simp_all
  busyErrClear hb he := hop ▸ h.busyErrClear (hbusy ▸ hb) (herr ▸ he)
  errNotDone he := by have := h.errNotDone (herr ▸ he); simp_all
  noErr he := by rw [hcode, hinfo]; exact h.noErr (herr ▸ he)
  errCode he := by rw [hcode]; exact h.errCode (herr ▸ he)

/-- While `BUSY` and `ERR` are both 1, CLEAR is running (R220, R225). -/
theorem FlagsOk.err_of_running {s : State} (h : FlagsOk s) {i : Instr} (hb : s.status.busy = true)
    (hr : s.running = .ok i) (hi : i ≠ .clear) : s.status.err = false := by
  by_contra he
  have hop := h.busyErrClear hb (by simpa using he)
  rw [State.running, hop] at hr
  exact hi (Except.ok.inj hr).symm

/-- What leaves the protocol part as it is: a change of tables, of index registers, of what the environment offers, of `REJ`, or
`DONE` cleared. -/
structure ProtocolKept (s t : State) : Prop where
  busy : t.status.busy = s.status.busy
  done : t.status.done = true → s.status.done = true
  err : t.status.err = s.status.err
  errcode : t.regs.errcode = s.regs.errcode
  errinfo : t.regs.errinfo = s.regs.errinfo
  work : t.work = s.work
  cin : s.env.cin.isOpen = false → t.env.cin.isOpen = false ∧ t.env.cin.avail = s.env.cin.avail
  bin : s.env.bin.isOpen = false → t.env.bin.isOpen = false ∧ t.env.bin.avail = s.env.bin.avail

theorem ProtocolKept.refl (s : State) : ProtocolKept s s := ⟨rfl, id, rfl, rfl, rfl, rfl, (⟨·, rfl⟩), (⟨·, rfl⟩)⟩

theorem ProtocolKept.ok {s t : State} (h : ProtocolKept s t) (hs : ProtocolOk s) : ProtocolOk t where
  flags := hs.flags.congr h.busy h.done h.err h.errcode h.errinfo (by rw [h.work])
  quiet :=
    { work := fun hb => h.work.symm ▸ hs.quiet.work (h.busy ▸ hb)
      cin := fun hb => by
        obtain ⟨ho, ha⟩ := hs.quiet.cin (h.busy ▸ hb)
        exact ⟨(h.cin ho).1, (h.cin ho).2.trans ha⟩
      bin := fun hb => by
        obtain ⟨ho, ha⟩ := hs.quiet.bin (h.busy ▸ hb)
        exact ⟨(h.bin ho).1, (h.bin ho).2.trans ha⟩ }
  op := fun hb => by rw [State.running, h.work]; exact hs.op (h.busy ▸ hb)
  bitcnt := by rw [BitcntOk, h.work]; exact hs.bitcnt

theorem SourcePort_supply_of_closed {α : Type} {p : SourcePort α} (h : p.isOpen = false) (ts : List (SrcTok α)) :
    p.supply ts = p := by simp [SourcePort.supply, h]

theorem envOp_protocolKept (s : State) (op : EnvOp) : ProtocolKept s (s.envOp op) := by
  have h := ProtocolKept.refl s
  cases op with
  | nextCin | nextBin | answerBout | answerCout => exact { h with }
  | moreCin bs => exact { h with cin := fun ho => by simp [State.envOp, SourcePort_supply_of_closed ho, ho] }
  | moreBin bs => exact { h with bin := fun ho => by simp [State.envOp, SourcePort_supply_of_closed ho, ho] }

theorem hostRead_protocolKept (s : State) (off : Nat) : ProtocolKept s (s.hostRead off) := { ProtocolKept.refl s with }

theorem hostWait_protocolKept (s : State) (es : List Event) : ProtocolKept s (s.hostWait es) := by
  unfold State.hostWait
  split
  · exact { ProtocolKept.refl s with }
  · exact hostRead_protocolKept _ _

theorem reject_protocolKept (s : State) : ProtocolKept s s.reject := { ProtocolKept.refl s with }

/-- A host write to any register but `CMD` leaves the protocol part as it is. -/
theorem writeReg_protocolKept (s : State) {r : Reg} (hr : r ≠ .cmd) (v : Word) : ProtocolKept s (s.writeReg r v) := by
  have h := ProtocolKept.refl s
  cases r with
  | cmd => exact absurd rfl hr
  | status => exact { h with done := fun hd => (Bool.and_eq_true_iff.1 hd).1 }
  | freqData =>
    simp only [State.writeReg, State.writeFreqData]
    split
    · exact reject_protocolKept s
    · exact { h with }
  | inten | freqIdx | nodeIdx | codeIdx | codeWsel => exact { h with }
  | _ => exact h

/-- What a host operation does to the protocol part: nothing, or it presents a word that is illegal or accepted. -/
theorem hostOp_protocol (s : State) (op : HostOp) :
    ProtocolKept s (s.hostOp op) ∨ (∃ w, s.hostOp op = s.takeFault .illegalCmd w) ∨
      ∃ i, (s.status.err = false ∨ i = .clear) ∧ s.hostOp op = s.accepted i := by
  cases op with
  | read off => exact .inl (hostRead_protocolKept s off)
  | write off v =>
    by_cases hr : regAt off = .cmd
    · have he : s.hostOp (.write off v) = s.presentCommand v := by rw [State.hostOp, hr, State.writeReg]
      rw [he]
      rcases presentCommand_cases s v with ⟨-, h⟩ | ⟨-, -, h⟩ | ⟨i, -, hi, -, h⟩
      · exact .inl (h ▸ reject_protocolKept s)
      · exact .inr (.inl ⟨v, h⟩)
      · exact .inr (.inr ⟨i, hi, h⟩)
    · exact .inl (writeReg_protocolKept s hr v)

/-- After a fault the protocol part is in order, whatever it was before (R256). -/
theorem takeFault_protocolOk (s : State) (code : FaultCode) (info : Word) : ProtocolOk (s.takeFault code info) where
  flags := by
    refine ⟨nofun, nofun, fun _ => rfl, nofun, fun _ => ?_⟩
    cases code <;> simp [FaultCode.code]
  quiet := ⟨fun _ => rfl, fun _ => ⟨rfl, rfl⟩, fun _ => ⟨rfl, rfl⟩⟩
  op := nofun
  bitcnt := Nat.zero_le 8

/-- After a completion outside the fault state the protocol part is in order (R222). -/
theorem complete_protocolOk {s : State} (he : s.status.err = false) (hcode : s.regs.errcode = 0#8)
    (hinfo : s.regs.errinfo = 0#32) : ProtocolOk s.complete where
  flags :=
    { busyNotDone := nofun
      busyErrClear := nofun
      errNotDone := fun h => absurd (he.symm.trans h) nofun
      noErr := fun _ => ⟨hcode, hinfo⟩
      errCode := fun h => absurd (he.symm.trans h) nofun }
  quiet := ⟨fun _ => rfl, fun _ => ⟨rfl, rfl⟩, fun _ => ⟨rfl, rfl⟩⟩
  op := nofun
  bitcnt := Nat.zero_le 8

theorem hardReset_protocolOk (s : State) : ProtocolOk s.hardReset where
  flags := ⟨nofun, nofun, nofun, fun _ => ⟨rfl, rfl⟩, nofun⟩
  quiet := ⟨fun _ => rfl, fun _ => ⟨rfl, rfl⟩, fun _ => ⟨rfl, rfl⟩⟩
  op := nofun
  bitcnt := Nat.zero_le 8

theorem running_accepted (s : State) (i : Instr) : (s.accepted i).running = .ok i :=
  decodeOpcode_eq_ok.2 (extractLsb'_encode i)

theorem accepted_protocolOk {s : State} (h : FlagsOk s) {i : Instr} (hi : s.status.err = false ∨ i = .clear) :
    ProtocolOk (s.accepted i) where
  flags :=
    { busyNotDone := fun _ => rfl
      busyErrClear := fun _ he => by
        rcases hi with hi | rfl
        · exact absurd (hi.symm.trans he) nofun
        · rfl
      errNotDone := fun _ => rfl
      noErr := h.noErr
      errCode := h.errCode }
  quiet := ⟨nofun, nofun, nofun⟩
  op := fun _ => ⟨i, running_accepted s i⟩
  bitcnt := Nat.zero_le 8

theorem popped_protocolKept (s : State) : ProtocolKept s s.popped := { ProtocolKept.refl s with }

/-- A command keeps the protocol part while it runs and when it ends. -/
theorem CommandMove.protocolOk {i : Instr} {s t : State} (h : CommandMove i s t) (hs : ProtocolOk s)
    (hb : s.status.busy = true) (hr : s.running = .ok i) : ProtocolOk t := by
  cases h with
  | runs h =>
    have hbusy := h.busy.trans hb
    refine ⟨hs.flags.congr h.busy h.done.symm.trans h.err (by rw [h.regs]) (by rw [h.regs]) h.op, ?_, ?_, h.bitcnt hs.bitcnt⟩
    · constructor <;> exact fun hf => absurd (hbusy.symm.trans hf) nofun
    · exact fun _ => ⟨i, by rw [State.running, h.op]; exact hr⟩
  | completes hi h =>
    have he := hs.flags.err_of_running hb hr hi
    obtain ⟨hcode, hinfo⟩ := hs.flags.noErr he
    exact complete_protocolOk (h.err.trans he) (h.regs ▸ hcode) (h.regs ▸ hinfo)
  | faults hi h => exact takeFault_protocolOk _ _ _
  | clears => exact complete_protocolOk rfl rfl rfl

/-- Every step keeps the protocol part. -/
theorem StepMove.protocolOk {s t : State} (h : StepMove s t) (hs : ProtocolOk s) : ProtocolOk t := by
  have hp := (popped_protocolKept s).ok hs
  cases h with
  | command hb hi h => exact h.protocolOk hp hb hi
  | idle => exact hp
  | host =>
    rcases hostOp_protocol s.popped _ with h | ⟨w, h⟩ | ⟨i, hi, h⟩
    · exact h.ok hp
    · exact h ▸ takeFault_protocolOk _ _ _
    · exact h ▸ accepted_protocolOk hp.flags hi
  | wait => exact (hostWait_protocolKept _ _).ok hp
  | reset => exact hardReset_protocolOk _
  | env => exact (envOp_protocolKept _ _).ok hp

/-- R49's first two sentences hold wherever its rules do, or CLEAR is running after a fault. -/
theorem FlagsOk.plainR49_or {s : State} (h : FlagsOk s) :
    PlainR49 s ∨ (s.status.busy = true ∧ s.status.err = true ∧ s.running = .ok .clear) := by
  by_cases hbe : s.status.busy = true ∧ s.status.err = true
  · obtain ⟨hb, he⟩ := hbe
    exact .inr ⟨hb, he, by rw [State.running, h.busyErrClear hb he]; rfl⟩
  · refine .inl ⟨fun hb => ⟨h.busyNotDone hb, ?_⟩, fun he => ⟨?_, h.errNotDone he⟩⟩
    · simpa [hb] using hbe
    · simpa [he] using hbe

end Sys2Proof.Machine

open Sys2Proof Sys2Proof.Machine

/-- Settles O23: each thing a step can do keeps the protocol part. -/
theorem everyStepKeepsTheProtocolRules : Obligations.EveryStepKeepsTheProtocolRules := by
  intro s t hflags hquiet hop hbitcnt hstep
  obtain ⟨hf, hq, ho, hc⟩ := (step_move hstep).protocolOk ⟨hflags, hquiet, hop, hbitcnt⟩
  exact ⟨hf, hq, ho, hc, hf.plainR49_or⟩

end

section
/-! PROOFS. BUILD, first part: the leaves (R142, R143). -/

namespace Sys2Proof.Machine

open Sys2Proof

/-! ### The leaves BUILD makes (R142, R143) -/

/-- The leaves in ascending symbol order, with no child and a weight of at least 1 (R40 (b), (c), (e)). -/
structure LeafList (L : List Node) : Prop where
  leaf : ∀ n ∈ L, n.leaf = true ∧ n.left = none ∧ n.right = none ∧ 1 ≤ n.w
  rising : L.Pairwise fun m n => m.sym < n.sym

/-- The leaf of each entry of a frequency table. -/
def leavesOf (freq : Memory Word) : List Node := freq.map fun e => leafNode e.1 e.2

/-- The weights of some nodes, added up. -/
def weightSum (ns : List Node) : Nat := (ns.map (·.w)).sum

theorem weightSum_leavesOf (freq : Memory Word) : weightSum (leavesOf freq) = freqSum freq := by
  simp [weightSum, leavesOf, freqSum, leafNode, Function.comp_def]

/-- An entry that is neither negative nor the unlisted value is a key (R38, R142). -/
theorem isKeyEntry_of_msb {v : Word} (h0 : v ≠ 0#32) (h : v.msb = false) : isKeyEntry v = true := by
  have hne : v.toNat ≠ 0 := fun hv => h0 (BitVec.eq_of_toNat_eq hv)
  simp only [isKeyEntry, decide_eq_true_eq, BitVec.toInt_eq_msb_cond, h]
  simp only [Bool.false_eq_true, if_false]
  omega

theorem isKeyEntry_of_negativeEntry {n : Nat} {freq : Memory Word} (hm : Memory.wf n 0#32 freq)
    (h : negativeEntry freq = none) : ∀ e ∈ freq, isKeyEntry e.2 = true := by
  intro e he
  refine isKeyEntry_of_msb (hm.2 e he).2 ?_
  simpa using List.find?_eq_none.1 (Option.map_eq_none_iff.1 h) e he

/-- When every entry is a key, the leaves are added in order and each enters the queue. -/
theorem addLeaves_eq {freq : Memory Word} (h : ∀ e ∈ freq, isKeyEntry e.2 = true) (a : Arena) :
    addLeaves freq a = ⟨a.node ++ leavesOf freq, a.pq ++ List.range' a.node.length freq.length⟩ := by
  induction freq generalizing a with
  | nil => simp [addLeaves, leavesOf]
  | cons e freq ih =>
    obtain ⟨sym, n⟩ := e
    have hk : isKeyEntry n = true := h (sym, n) List.mem_cons_self
    rw [addLeaves, if_pos hk, ih fun e he => h e (List.mem_cons_of_mem _ he)]
    simp [Arena.add, leavesOf, List.range'_succ]

theorem leafList_leavesOf {freq : Memory Word} (hm : Memory.wf Config.nsym 0#32 freq) : LeafList (leavesOf freq) where
  leaf := by
    simp only [leavesOf, List.forall_mem_map]
    intro e he
    have : e.2.toNat ≠ 0 := fun h0 => (hm.2 e he).2 (BitVec.eq_of_toNat_eq h0)
    exact ⟨rfl, rfl, rfl, Nat.one_le_iff_ne_zero.2 this⟩
  rising := by
    refine List.pairwise_map.2 (hm.1.imp_of_mem fun {x y} hx hy hxy => ?_)
    have hx' := (hm.2 x hx).1
    have hy' := (hm.2 y hy).1
    simp only [leafNode, BitVec.lt_def, BitVec.toNat_ofNat]
    rwa [Nat.mod_eq_of_lt hx', Nat.mod_eq_of_lt hy']

/-- Symbols in ascending order are at most `NSYM`. -/
theorem LeafList.length_le {L : List Node} (h : LeafList L) : L.length ≤ Config.nsym := by
  have hnd : (L.map fun n => n.sym.toNat).Nodup :=
    List.pairwise_map.2 (h.rising.imp fun hlt => Nat.ne_of_lt hlt)
  have hsub : (L.map fun n => n.sym.toNat) ⊆ List.range Config.nsym := fun x hx => by
    obtain ⟨n, -, rfl⟩ := List.mem_map.1 hx
    exact List.mem_range.2 n.sym.isLt
  have hle := (List.subperm_of_subset hnd hsub).length_le
  rwa [List.length_map, List.length_range] at hle

theorem buildTree_eq_finishTree {freq : Memory Word} (hm : Memory.wf Config.nsym 0#32 freq) (h : negativeEntry freq = none) :
    buildTree freq = finishTree ⟨leavesOf freq, List.range (leavesOf freq).length⟩ := by
  rw [buildTree, addLeaves_eq (isKeyEntry_of_negativeEntry hm h)]
  simp [List.range_eq_range', leavesOf]

end Sys2Proof.Machine

end

section
/-! PROOFS. BUILD, second part: the invariant of the combine loop (R144, R145). -/

namespace Sys2Proof.Machine

open Sys2Proof

/-! ### The combine loop (R144, R145) -/

theorem nodeAt_append_of_lt {node : List Node} {i : Nat} (h : i < node.length) (ns : List Node) :
    nodeAt (node ++ ns) i = nodeAt node i := by
  simp [nodeAt, List.getD_eq_getElem?_getD, List.getElem?_append_left h]

theorem nodeAt_append_length (node : List Node) (n : Node) : nodeAt (node ++ [n]) node.length = n := by simp [nodeAt]

theorem nodeAt_mem {node : List Node} {i : Nat} (h : i < node.length) : nodeAt node i ∈ node := by
  rw [nodeAt, List.getD_eq_getElem _ _ h]
  exact List.getElem_mem h

theorem innerNode_append {node : List Node} {x y : Nat} (hx : x < node.length) (hy : y < node.length) (ns : List Node) :
    innerNode (node ++ ns) x y = innerNode node x y := by
  simp [innerNode, nodeAt_append_of_lt hx, nodeAt_append_of_lt hy]

theorem childRefs_append_inner (node : List Node) (x y : Nat) :
    childRefs (node ++ [innerNode node x y]) = childRefs node ++ [some x, some y] := by simp [childRefs, innerNode]

/-- The weights of the nodes in a queue, added up. -/
def queueWeight (node : List Node) (q : List Nat) : Nat := (q.map fun i => (nodeAt node i).w).sum

theorem queueWeight_append_node {node : List Node} {q : List Nat} (h : ∀ i ∈ q, i < node.length) (ns : List Node) :
    queueWeight (node ++ ns) q = queueWeight node q := by
  unfold queueWeight
  rw [List.map_congr_left fun i hi => by rw [nodeAt_append_of_lt (h i hi)]]

theorem queueWeight_erase (node : List Node) {q : List Nat} {x : Nat} (h : x ∈ q) :
    (nodeAt node x).w + queueWeight node (q.erase x) = queueWeight node q :=
  List.sum_map_erase (fun i => (nodeAt node i).w) h

/-- What holds of the nodes and the queue throughout the combine loop over the leaves `L`: the loop's invariant. -/
structure Combining (L : List Node) (a : Arena) : Prop where
  leaves : ∀ i < L.length, nodeAt a.node i = nodeAt L i
  size : a.node.length + a.pq.length = 2 * L.length
  atLeast : L.length ≤ a.node.length
  nodup : a.pq.Nodup
  below : ∀ i ∈ a.pq, i < a.node.length
  last : a.node.length - 1 ∈ a.pq
  inner : ∀ i < a.node.length, L.length ≤ i → ∃ x < i, ∃ y < i, nodeAt a.node i = innerNode a.node x y
  parents : ∀ c, (childRefs a.node).count (some c) = if c < a.node.length ∧ c ∉ a.pq then 1 else 0
  total : queueWeight a.node a.pq = weightSum L
  weights : ∀ i < a.node.length, 1 ≤ (nodeAt a.node i).w ∧ (nodeAt a.node i).w ≤ weightSum L

theorem nodeAt_range (L : List Node) : (List.range L.length).map (nodeAt L) = L := by
  refine List.ext_getElem (by simp) fun i h1 h2 => ?_
  simp [nodeAt, h2]

theorem queueWeight_range (L : List Node) : queueWeight L (List.range L.length) = weightSum L := by
  conv_rhs => rw [weightSum, ← nodeAt_range L, List.map_map]
  rfl

theorem not_mem_childRefs_of_leafList {L : List Node} (h : LeafList L) : ∀ c, some c ∉ childRefs L := by
  intro c hc
  obtain ⟨n, hn, hc⟩ := List.mem_flatMap.1 hc
  obtain ⟨-, hl, hr, -⟩ := h.leaf n hn
  simp [hl, hr] at hc

theorem combining_leaves {L : List Node} (h : LeafList L) (hne : 0 < L.length) :
    Combining L ⟨L, List.range L.length⟩ where
  leaves _ _ := rfl
  size := by simp; omega
  atLeast := le_rfl
  nodup := List.nodup_range
  below i hi := List.mem_range.1 hi
  last := List.mem_range.2 (by show L.length - 1 < L.length; omega)
  inner i hi hle := absurd hi (by simpa using hle)
  parents c := by
    rw [if_neg fun hc => hc.2 (List.mem_range.2 hc.1)]
    exact List.count_eq_zero.2 (not_mem_childRefs_of_leafList h c)
  total := queueWeight_range L
  weights i hi :=
    ⟨(h.leaf _ (nodeAt_mem hi)).2.2.2, List.single_le_sum (fun _ _ => Nat.zero_le _) _ (List.mem_map_of_mem (nodeAt_mem hi))⟩

theorem count_pair {x y : Nat} (h : x ≠ y) (c : Nat) :
    [some x, some y].count (some c) = if c = x ∨ c = y then 1 else 0 := by
  by_cases hx : c = x
  · subst hx
    simp [Ne.symm h]
  · by_cases hy : c = y
    · subst hy
      simp [h]
    · simp [hx, hy, Ne.symm hx, Ne.symm hy]

/-- When `x` and `y` leave the queue and get a parent that enters it, still exactly the nodes outside the queue have a parent
(R40 (d)). -/
theorem count_childRefs_combine {node : List Node} {q : List Nat} (hd : q.Nodup) (hlt : ∀ i ∈ q, i < node.length)
    (h : ∀ c, (childRefs node).count (some c) = if c < node.length ∧ c ∉ q then 1 else 0) {x y : Nat} (hx : x ∈ q)
    (hy : y ∈ q) (hyx : y ≠ x) (c : Nat) :
    (childRefs (node ++ [innerNode node x y])).count (some c) =
      if c < node.length + 1 ∧ c ∉ (q.erase x).erase y ++ [node.length] then 1 else 0 := by
  have hmem : c ∈ (q.erase x).erase y ++ [node.length] ↔ (c ≠ y ∧ c ≠ x ∧ c ∈ q) ∨ c = node.length := by
    rw [List.mem_append, (hd.erase x).mem_erase_iff, hd.mem_erase_iff, List.mem_singleton]
  rw [childRefs_append_inner, List.count_append, h, count_pair (Ne.symm hyx)]
  by_cases hxy : c = x ∨ c = y
  · have hc : c < node.length ∧ c ∈ q := by rcases hxy with rfl | rfl <;> exact ⟨hlt _ ‹_›, ‹_›⟩
    have hn : c ∉ (q.erase x).erase y ++ [node.length] := fun hm => by
      rcases hmem.1 hm with ⟨hcy, hcx, -⟩ | hcn
      · exact hxy.elim hcx hcy
      · omega
    rw [if_neg fun hq => hq.2 hc.2, if_pos hxy, if_pos ⟨by omega, hn⟩]
  · obtain ⟨hcx, hcy⟩ := not_or.1 hxy
    have hiff : (c < node.length ∧ c ∉ q) ↔ c < node.length + 1 ∧ c ∉ (q.erase x).erase y ++ [node.length] := by
      rw [hmem]
      constructor
      · exact fun ⟨hc, hq⟩ => ⟨by omega, fun hm => hm.elim (fun hm => hq hm.2.2) (by omega)⟩
      · exact fun ⟨hc, hm⟩ => ⟨by have : c ≠ node.length := fun he => hm (.inr he); omega, fun hq => hm (.inl ⟨hcy, hcx, hq⟩)⟩
    rw [if_neg hxy, Nat.add_zero]
    exact if_congr hiff rfl rfl

/-- One pass of the loop keeps its invariant. -/
theorem Combining.step {L : List Node} {a : Arena} (h : Combining L a) (hq : 1 < a.pq.length) :
    Combining L (combineStep a) ∧ (combineStep a).pq.length + 1 = a.pq.length := by
  obtain ⟨x, y, hx, -, hy, hyx, -, he⟩ := combineStep_spec h.nodup hq
  have hxlt := h.below x hx
  have hylt := h.below y hy
  have hy' : y ∈ a.pq.erase x := h.nodup.mem_erase_iff.2 ⟨hyx, hy⟩
  have hrest : ∀ i ∈ (a.pq.erase x).erase y, i < a.node.length := fun i hi =>
    h.below i (List.mem_of_mem_erase (List.mem_of_mem_erase hi))
  have hlen : ((a.pq.erase x).erase y).length + 2 = a.pq.length := by
    rw [List.length_erase_of_mem hy', List.length_erase_of_mem hx]; omega
  have hsum : (nodeAt a.node x).w + ((nodeAt a.node y).w + queueWeight a.node ((a.pq.erase x).erase y)) = weightSum L := by
    rw [queueWeight_erase _ hy', queueWeight_erase _ hx, h.total]
  rw [he]
  refine ⟨?_, by simp; omega⟩
  constructor
  case leaves => exact fun i hi => (nodeAt_append_of_lt (hi.trans_le h.atLeast) _).trans (h.leaves i hi)
  case size => have := h.size; simp; omega
  case atLeast => have := h.atLeast; simp; omega
  case nodup =>
    refine ((h.nodup.erase x).erase y).append (List.nodup_singleton _) ?_
    intro i hi hn
    exact absurd (hrest i hi) (by simp_all)
  case below =>
    intro i hi
    rw [List.length_append, List.length_singleton]
    rcases List.mem_append.1 hi with hi | hi
    · exact Nat.lt_succ_of_lt (hrest i hi)
    · rw [List.mem_singleton.1 hi]; exact Nat.lt_succ_self _
  case last => simp
  case inner =>
    intro i hi hle
    rw [List.length_append, List.length_singleton] at hi
    rcases Nat.lt_succ_iff_lt_or_eq.1 hi with hi | rfl
    · obtain ⟨u, hu, v, hv, hn⟩ := h.inner i hi hle
      exact ⟨u, hu, v, hv, by rw [nodeAt_append_of_lt hi, hn, innerNode_append (hu.trans hi) (hv.trans hi)]⟩
    · exact ⟨x, hxlt, y, hylt, by rw [nodeAt_append_length, innerNode_append hxlt hylt]⟩
  case parents =>
    intro c
    rw [List.length_append, List.length_singleton]
    exact count_childRefs_combine h.nodup h.below h.parents hx hy hyx c
  case total =>
    rw [queueWeight, List.map_append, List.sum_append]
    change queueWeight _ _ + _ = _
    rw [queueWeight_append_node hrest]
    simp [nodeAt_append_length, innerNode]
    omega
  case weights =>
    intro i hi
    rw [List.length_append, List.length_singleton] at hi
    rcases Nat.lt_succ_iff_lt_or_eq.1 hi with hi | rfl
    · rw [nodeAt_append_of_lt hi]; exact h.weights i hi
    · have := h.weights x hxlt
      rw [nodeAt_append_length]
      simp only [innerNode]
      omega

end Sys2Proof.Machine

end

section
/-! PROOFS. BUILD, third part: the whole loop, and the rules of the tree it leaves (R40, R148). -/

namespace Sys2Proof.Machine

open Sys2Proof

/-- The loop keeps its invariant, and with as many passes as elements in the queue it leaves one (R144). -/
theorem Combining.loop {L : List Node} : ∀ (n : Nat) {a : Arena}, Combining L a → a.pq.length ≤ n + 1 →
    Combining L (combineLoop n a) ∧ (combineLoop n a).pq.length = 1
  | 0, a, h, hn => ⟨h, le_antisymm hn (List.length_pos_of_mem h.last)⟩
  | n + 1, a, h, hn => by
    rw [combineLoop]
    split
    · next hq =>
      obtain ⟨h', hlen⟩ := h.step hq
      exact h'.loop n (by omega)
    · next hq => exact ⟨h, le_antisymm (by omega) (List.length_pos_of_mem h.last)⟩

/-- Over two or more leaves, BUILD's nodes and root are what the combine loop leaves (R144, R148). -/
theorem finishTree_of_two_le {L : List Node} (hL : LeafList L) (h2 : 2 ≤ L.length) :
    ∃ a, Combining L a ∧ a.pq = [a.node.length - 1] ∧
      finishTree ⟨L, List.range L.length⟩ = (a.node, some (a.node.length - 1), []) := by
  obtain ⟨k, hk⟩ := Nat.exists_eq_add_of_le' h2
  have hloop := (combining_leaves hL (by omega)).loop L.length (by simp)
  generalize ha : combineLoop L.length ⟨L, List.range L.length⟩ = a at hloop
  obtain ⟨hc, h1⟩ := hloop
  obtain ⟨r, hr⟩ := List.length_eq_one_iff.1 h1
  have hlast : a.node.length - 1 = r := by have := hc.last; rwa [hr, List.mem_singleton] at this
  refine ⟨a, hc, by rw [hr, hlast], ?_⟩
  have hmin : a.removeMin = some (r, { a with pq := [] }) := by simp [Arena.removeMin, hr, queueMin]
  rw [hk] at ha
  simp only [finishTree, hk, ha, hmin, hlast]

/-! ### The tree rules (R40) -/

/-- The absent tree satisfies the rules (R149). -/
theorem TreeOk_absent {t : Tables} (hn : t.node = []) (hr : t.root = none) (hc : t.nnodes = 0) : TreeOk t := by
  have hk : leafCount t = 0 := by simp [leafCount, hn]
  constructor <;> simp [hk, hn, hr, hc]

/-- The one-leaf tree, with the synthetic root above its leaf, satisfies the rules (R150). -/
theorem TreeOk_single {t : Tables} {l : Node} (hL : LeafList [l]) (hn : t.node = [l, syntheticRoot [l]])
    (hr : t.root = some 1) (hc : t.nnodes = 2) (hw : l.w ≤ Config.cntmax) : TreeOk t := by
  obtain ⟨hleaf, hleft, hright, hw1⟩ := hL.leaf l (by simp)
  have h0 : nodeAt t.node 0 = l := by simp [hn, nodeAt]
  have h1 : nodeAt t.node 1 = ⟨l.w, false, 0, none, some 0⟩ := by simp [hn, nodeAt, syntheticRoot]
  have hk : leafCount t = 1 := by simp [leafCount, hn, syntheticRoot, hleaf]
  have hcase : ∀ {P : Nat → Prop}, P 0 → P 1 → ∀ i < t.nnodes, P i := by
    intro P hP0 hP1 i hi
    obtain rfl | rfl : i = 0 ∨ i = 1 := by omega
    · exact hP0
    · exact hP1
  constructor
  case held => simp [hc, hn]
  case sizes => exact .inr (.inl ⟨hc, hk⟩)
  case capacity => rw [hc]; decide
  case leavesFirst => exact hcase (by simp [h0, hleaf, hk]) (by simp [h1, hk])
  case leafOrder => omega
  case rootLast => simp [hr, hc]
  case childBelow =>
    refine hcase (fun b => ?_) fun b => ?_
    · cases b <;> simp [childOf, h0, hleft, hright]
    · cases b <;> simp [childOf, h1]
  case oneParent =>
    intro c hcn
    obtain rfl : c = 0 := by omega
    simp [childRefs, hn, syntheticRoot, hleft, hright]
  case inner => omega
  case single => simp [h1]
  case innerWeight => exact hcase (by omega) (by simp [h0, h1, weightOf])
  case leafChildless =>
    intro i hi
    obtain rfl : i = 0 := by omega
    simp [h0, hleft, hright]
  case innerSym => exact hcase (by omega) (by simp [h1])
  case weights => exact hcase (by simp [h0, hw, hw1]) (by simp [h1, hw, hw1])

theorem Combining.leaf_iff {L : List Node} (hL : LeafList L) {a : Arena} (h : Combining L a) {i : Nat}
    (hi : i < a.node.length) : (nodeAt a.node i).leaf = true ↔ i < L.length := by
  by_cases hk : i < L.length
  · simp [hk, h.leaves i hk, (hL.leaf _ (nodeAt_mem hk)).1]
  · obtain ⟨x, -, y, -, hn⟩ := h.inner i hi (not_lt.1 hk)
    simp [hk, hn, innerNode]

theorem Combining.leafCount {t : Tables} {L : List Node} (hL : LeafList L) {q : List Nat} (h : Combining L ⟨t.node, q⟩) :
    leafCount t = L.length := by
  have hle : L.length ≤ t.node.length := h.atLeast
  obtain ⟨m, hm⟩ := Nat.exists_eq_add_of_le hle
  have hcount : Machine.leafCount t = (List.range t.node.length).countP fun i => decide (i < L.length) := by
    rw [Machine.leafCount, ← List.countP_eq_length_filter]
    conv_lhs => rw [← nodeAt_range t.node, List.countP_map]
    refine List.countP_congr fun i hi => ?_
    simpa using h.leaf_iff hL (List.mem_range.1 hi)
  have hlow : (List.range L.length).countP (fun i => decide (i < L.length)) = L.length := by
    rw [List.countP_eq_length.2 fun i hi => by simpa using hi, List.length_range]
  have hhigh : ((List.range m).map (L.length + ·)).countP (fun i => decide (i < L.length)) = 0 :=
    List.countP_eq_zero.2 (by simp)
  rw [hcount, hm, List.range_add, List.countP_append, hlow, hhigh, Nat.add_zero]

/-- The tree the combine loop leaves satisfies the rules (R144 to R148). -/
theorem TreeOk_of_combining {t : Tables} {L : List Node} (hL : LeafList L) (h2 : 2 ≤ L.length)
    (h : Combining L ⟨t.node, [t.node.length - 1]⟩) (hr : t.root = some (t.node.length - 1)) (hc : t.nnodes = t.node.length)
    (hw : weightSum L ≤ Config.cntmax) : TreeOk t := by
  have hk : leafCount t = L.length := h.leafCount hL
  have hsize : t.node.length + 1 = 2 * L.length := h.size
  have hleaf : ∀ i < L.length, nodeAt t.node i = nodeAt L i := h.leaves
  have hchildless : ∀ i < L.length, (nodeAt t.node i).left = none ∧ (nodeAt t.node i).right = none := fun i hi => by
    obtain ⟨-, hl, hr, -⟩ := hL.leaf _ (nodeAt_mem hi)
    rw [hleaf i hi]
    exact ⟨hl, hr⟩
  have hinner : ∀ i < t.nnodes, L.length ≤ i → ∃ x < i, ∃ y < i, nodeAt t.node i = innerNode t.node x y :=
    fun i hi => h.inner i (hc ▸ hi)
  constructor
  case held => exact hc
  case sizes => right; right; omega
  case capacity =>
    have hcap := hL.length_le
    simp only [Config.maxnodes] at *
    omega
  case leavesFirst => exact fun i hi => hk ▸ h.leaf_iff hL (hc ▸ hi)
  case leafOrder =>
    intro j hj i hij
    rw [hk] at hj
    rw [hleaf j hj, hleaf i (hij.trans hj)]
    simpa [nodeAt, hj, hij.trans hj] using List.pairwise_iff_getElem.1 hL.rising i j (hij.trans hj) hj hij
  case rootLast => exact fun _ => hc ▸ hr
  case childBelow =>
    intro i hi b c hcb
    by_cases hik : i < L.length
    · cases b <;> simp [childOf, hchildless i hik] at hcb
    · obtain ⟨x, hx, y, hy, hn⟩ := hinner i hi (not_lt.1 hik)
      cases b <;> simp [childOf, hn, innerNode] at hcb <;> omega
  case oneParent =>
    intro c hcn
    rw [hc] at hcn
    exact (h.parents c).trans (if_pos ⟨by show c < t.node.length; omega, by simp; omega⟩)
  case inner =>
    intro _ i hi hki
    obtain ⟨x, -, y, -, hn⟩ := hinner i hi (hk ▸ hki)
    simp [hn, innerNode]
  case single => omega
  case innerWeight =>
    intro i hi hki
    obtain ⟨x, -, y, -, hn⟩ := hinner i hi (hk ▸ hki)
    simp [hn, innerNode, weightOf]
  case leafChildless => exact hk ▸ hchildless
  case innerSym =>
    intro i hi hki
    obtain ⟨x, -, y, -, hn⟩ := hinner i hi (hk ▸ hki)
    simp [hn, innerNode]
  case weights =>
    intro i hi
    obtain ⟨h1, hle⟩ := h.weights i (hc ▸ hi)
    exact ⟨h1, hle.trans hw⟩

end Sys2Proof.Machine

end

section
/-! PROOFS. The tables along a step: the tree, the code table, and who writes them. -/

namespace Sys2Proof.Machine

open Sys2Proof

/-- What BUILD makes of a table that passed its validation: the absent tree, the one-leaf tree, or what the combine loop leaves
(R149, R150, R144). -/
theorem buildTree_cases {freq : Memory Word} (hm : Memory.wf Config.nsym 0#32 freq) (h : negativeEntry freq = none) :
    (leavesOf freq = [] ∧ buildTree freq = ([], none, [])) ∨
    (∃ l, leavesOf freq = [l] ∧ buildTree freq = ([l, syntheticRoot [l]], some 1, [0])) ∨
    (2 ≤ (leavesOf freq).length ∧ ∃ a, Combining (leavesOf freq) a ∧ a.pq = [a.node.length - 1] ∧
      buildTree freq = (a.node, some (a.node.length - 1), [])) := by
  rw [buildTree_eq_finishTree hm h]
  cases hL : leavesOf freq with
  | nil => exact .inl ⟨rfl, rfl⟩
  | cons l ls =>
    cases ls with
    | nil => exact .inr (.inl ⟨l, rfl, rfl⟩)
    | cons l' ls =>
      have hlen : 2 ≤ (l :: l' :: ls).length := by simp
      exact .inr (.inr ⟨hlen, finishTree_of_two_le (hL ▸ leafList_leavesOf hm) hlen⟩)

/-- BUILD's tree satisfies the rules of R40. -/
theorem TreeOk_withTree {t : Tables} (hm : MemOk t) (hneg : negativeEntry t.freq = none)
    (hsum : freqSum t.freq ≤ Config.cntmax) : TreeOk t.withTree := by
  have hL := leafList_leavesOf hm.1
  rw [← weightSum_leavesOf] at hsum
  rcases buildTree_cases hm.1 hneg with ⟨-, hb⟩ | ⟨l, hl, hb⟩ | ⟨h2, a, hc, hq, hb⟩
  · apply TreeOk_absent <;> simp [hb]
  · rw [hl] at hL hsum
    exact TreeOk_single hL (by simp [hb]) (by simp [hb]) (by simp [hb]) (by simpa [weightSum] using hsum)
  · have hn : t.withTree.node = a.node := by simp [hb]
    refine TreeOk_of_combining hL h2 ?_ (by simp [hb]) rfl hsum
    rw [hn, ← hq]
    exact hc

/-- The root of BUILD's tree weighs what the entries add up to (R40 (h)). -/
theorem rootWeight_buildTree {freq : Memory Word} (hm : Memory.wf Config.nsym 0#32 freq) (hneg : negativeEntry freq = none) :
    weightOf (buildTree freq).1 (buildTree freq).2.1 = freqSum freq := by
  rw [← weightSum_leavesOf]
  rcases buildTree_cases hm hneg with ⟨hl, hb⟩ | ⟨l, hl, hb⟩ | ⟨-, a, hc, hq, hb⟩
  · rw [hb, hl]; rfl
  · rw [hb, hl]; simp [weightOf, weightSum, nodeAt, syntheticRoot]
  · have := hc.total
    rw [hq] at this
    rw [hb]
    simpa [queueWeight, weightOf] using this

/-! ### The tables along a step -/

/-- Everything a step can make of the tables (R38, R39, R41). -/
inductive TabStep (s : State) : Tables → Prop
  | same : TabStep s s.tab
  | command {i : Instr} {t : Tables} (hb : s.status.busy = true) (hi : s.running = .ok i) (h : TabMove i s.tab t) : TabStep s t
  | clear (hb : s.status.busy = true) (hi : s.running = .ok .clear) : TabStep s Tables.reset
  | reset {es : List Event} (hs : s.script = .reset :: es) : TabStep s Tables.reset
  | write {v : Word} {es : List Event} (hs : s.script = .host (.write 0x2C v) :: es) (hb : s.status.busy = false) :
      TabStep s (s.tab.setFreq s.regs.freqIdx v)

theorem presentCommand_tab (s : State) (w : Word) : (s.presentCommand w).tab = s.tab := by
  rcases presentCommand_cases s w with ⟨-, h⟩ | ⟨-, -, h⟩ | ⟨i, -, -, -, h⟩ <;> rw [h] <;> rfl

/-- The host changes the tables by a write to `FREQ_DATA` only, and not while a command runs (R228). -/
theorem hostOp_tab (s : State) (op : HostOp) :
    (s.hostOp op).tab = s.tab ∨
      ∃ v, op = .write 0x2C v ∧ s.status.busy = false ∧ (s.hostOp op).tab = s.tab.setFreq s.regs.freqIdx v := by
  cases op with
  | read off => exact .inl rfl
  | write off v =>
    rw [State.hostOp]
    cases hr : regAt off with
    | cmd => exact .inl (presentCommand_tab s v)
    | freqData =>
      have hoff : off = 0x2C := by simpa [hr, Reg.offset] using offset_of_regAt (off := off)
      simp only [State.writeReg, State.writeFreqData]
      split
      · exact .inl rfl
      · next hb => exact .inr ⟨v, by rw [hoff], by simpa using hb, rfl⟩
    | _ => exact .inl rfl

theorem hostWait_tab (s : State) (es : List Event) : (s.hostWait es).tab = s.tab := by
  unfold State.hostWait
  split <;> rfl

theorem envOp_tab (s : State) (op : EnvOp) : (s.envOp op).tab = s.tab := by cases op <;> rfl

theorem StepMove.tab {s t : State} (h : StepMove s t) : TabStep s t.tab := by
  cases h with
  | command hb hi h =>
    cases h with
    | runs h | completes _ h | faults _ h => exact .command hb hi h.tab
    | clears hclear => exact .clear hb (hclear ▸ hi)
  | idle => exact .same
  | @host op es hs =>
    rcases hostOp_tab s.popped op with h | ⟨v, rfl, hb, h⟩
    · exact h ▸ .same
    · exact h ▸ .write hs hb
  | wait => exact (hostWait_tab s.popped _) ▸ .same
  | reset hs => exact .reset hs
  | env => exact (envOp_tab s.popped _) ▸ .same

theorem TreeOk_reset : TreeOk Tables.reset := TreeOk_absent rfl rfl rfl

theorem CodesOk_reset : CodesOk Tables.reset := .inl ⟨rfl, rfl⟩

theorem TabStep.memOk {s : State} {t : Tables} (h : TabStep s t) (hs : MemOk s.tab) : MemOk t := by
  cases h with
  | same => exact hs
  | command _ _ h =>
    cases h with
    | same => exact hs
    | counted hwf => exact ⟨hwf hs.1, hs.2⟩
    | built => exact MemOk_withTree hs
    | derived => exact MemOk_withCodes hs
    | tooDeep => exact MemOk_emptyCode hs
  | clear | reset => exact MemOk_reset
  | write => exact MemOk_setFreq hs _ _

/-- Only BUILD makes a tree, and its own validation gives what the rules need (R142, R152). -/
theorem TabStep.treeOk {s : State} {t : Tables} (h : TabStep s t) (hm : MemOk s.tab) (hs : TreeOk s.tab) : TreeOk t := by
  cases h with
  | same => exact hs
  | command _ _ h =>
    cases h with
    | same => exact hs
    | counted | derived | tooDeep => exact { hs with }
    | built hneg hsum => exact TreeOk_withTree hm hneg hsum
  | clear | reset => exact TreeOk_reset
  | write => exact { hs with }

/-- The codes do not depend on the frequencies. -/
theorem CodesOk.withFreq {t : Tables} (h : CodesOk t) (freq : Memory Word) : CodesOk { t with freq := freq } := by
  rcases h with h | ⟨hlen, heq⟩
  · exact .inl h
  · exact .inr ⟨hlen, congrArg (fun u : Tables => { u with freq := freq }) heq⟩

theorem TabStep.codesOk {s : State} {t : Tables} (h : TabStep s t) (hs : CodesOk s.tab) : CodesOk t := by
  cases h with
  | same => exact hs
  | command _ _ h =>
    cases h with
    | same => exact hs
    | counted => exact hs.withFreq _
    | built | tooDeep => exact .inl ⟨rfl, rfl⟩
    | derived hlen => exact .inr ⟨hlen, rfl⟩
  | clear | reset => exact CodesOk_reset
  | write => exact hs.withFreq _

end Sys2Proof.Machine

open Sys2Proof Sys2Proof.Machine

/-- Settles O24: only BUILD makes a tree, by the combine loop's invariant. -/
theorem everyStepKeepsTheTreeRules : Obligations.EveryStepKeepsTheTreeRules := by
  intro s t hm ht hstep
  have h := (step_move hstep).tab
  exact ⟨h.memOk hm, h.treeOk hm ht⟩

/-- Settles O25: the code table is emptied or derived, and what it is derived from changes only when it is emptied. -/
theorem everyStepKeepsTheCodeTableRule : Obligations.EveryStepKeepsTheCodeTableRule := by
  intro s t hs hstep
  exact (step_move hstep).tab.codesOk hs

/-- Settles O22: the protocol part, the tree and the code table are each kept. -/
theorem everyStepKeepsTheInvariant : Obligations.EveryStepKeepsTheInvariant := by
  intro s t hs hstep
  have hmove := step_move hstep
  obtain ⟨hf, hq, ho, hc⟩ := hmove.protocolOk ⟨hs.flags, hs.quiet, hs.op, hs.bitcnt⟩
  exact ⟨hf, hq, ho, hc, hmove.tab.memOk hs.mem, hmove.tab.treeOk hs.mem hs.tree, hmove.tab.codesOk hs.codes⟩

/-- Settles O31: read off what a step can make of the tables. -/
theorem whoWritesFreqAndCode : Obligations.WhoWritesFreqAndCode := by
  intro s t hstep
  have h := (step_move hstep).tab
  generalize t.tab = t' at h
  cases h with
  | same => exact ⟨fun h => absurd rfl h, fun h => by simp at h⟩
  | @command i _ hb hi h =>
    refine ⟨fun hf => .inr (.inr ⟨hb, ?_⟩), fun hc => .inr ⟨hb, ?_⟩⟩
    · by_cases hcount : i = .count
      · exact .inl (hcount ▸ hi)
      · exact absurd (h.freq_eq hcount) hf
    · by_cases hderive : i = .derive
      · exact .inl (hderive ▸ hi)
      · by_cases hbuild : i = .build
        · exact .inr (.inl (hbuild ▸ hi))
        · obtain ⟨h1, h2⟩ := h.code_eq hbuild hderive
          simp [h1, h2] at hc
  | clear hb hi => exact ⟨fun _ => .inr (.inr ⟨hb, .inr hi⟩), fun _ => .inr ⟨hb, .inr (.inr hi)⟩⟩
  | reset hs => exact ⟨fun _ => .inl ⟨_, hs⟩, fun _ => .inl ⟨_, hs⟩⟩
  | write hs hb => exact ⟨fun _ => .inr (.inl ⟨_, _, hs, hb⟩), fun h => by simp at h⟩

/-- A table that satisfies R142 passes BUILD's validation. -/
theorem valid_of_freqValid {t : Tables} (hm : MemOk t) (hv : FreqValid t) :
    negativeEntry t.freq = none ∧ freqSum t.freq ≤ Config.cntmax := by
  obtain ⟨hmsb, hsum⟩ := hv
  refine ⟨Option.map_eq_none_iff.2 (List.find?_eq_none.2 fun e he => ?_), freqSum_eq_totalFreq hm ▸ hsum⟩
  have hlt := (hm.1.2 e he).1
  have := hmsb (BitVec.ofNat Config.symw e.1)
  rw [Tables.freqAt, BitVec.toNat_ofNat, Nat.mod_eq_of_lt hlt, Memory_read_of_mem hm.1 he] at this
  simp [this]

/-- Settles O48: the weight in the queue stays the sum of the counts, and at the end the root alone is in it. -/
theorem rootWeightIsTheSumOfCounts : Obligations.RootWeightIsTheSumOfCounts := by
  intro s t hm hv hexec
  obtain ⟨hneg, hsum⟩ := valid_of_freqValid hm hv
  have hb : exec .build (s.accepted .build) = .next (s.accepted .build).build := by
    rcases execBuild_cases (s.accepted .build) with ⟨sym, h, -⟩ | ⟨-, h, -⟩ | ⟨-, -, h⟩
    · exact absurd (hneg.symm.trans h) nofun
    · exact absurd hsum (not_le.2 h)
    · exact h
  cases hb.symm.trans hexec
  rw [← freqSum_eq_totalFreq hm]
  exact rootWeight_buildTree hm.1 hneg

end

section
/-! PROOFS. What `STATUS`, `ID` and the windows read (R23, R25, R35, R37). -/

namespace Sys2Proof.Machine

open Sys2Proof

theorem Status_toWord_low (f : Status) :
    f.toWord.getLsbD 0 = f.busy ∧ f.toWord.getLsbD 1 = f.done ∧ f.toWord.getLsbD 2 = f.err ∧
      f.toWord.getLsbD 3 = f.rej ∧ f.toWord.getLsbD 4 = f.trunc := by
  obtain ⟨b, d, e, r, t⟩ := f
  revert b d e r t
  decide

/-- The flags are less than `2 ^ 5`, so bits 31:5 are 0 (R25). -/
theorem Status_toWord_high (f : Status) (k : Nat) : f.toWord.getLsbD (k + 5) = false := by
  have hle : ∀ b : Bool, b.toNat ≤ 1 := Bool.toNat_le
  have hlt : f.busy.toNat + 2 * f.done.toNat + 4 * f.err.toNat + 8 * f.rej.toNat + 16 * f.trunc.toNat < 2 ^ 5 := by
    have := hle f.busy; have := hle f.done; have := hle f.err; have := hle f.rej; have := hle f.trunc
    omega
  rw [Status.toWord, BitVec.getLsbD_ofNat,
    Nat.testBit_lt_two_pow (hlt.trans_le (Nat.pow_le_pow_right two_pos (Nat.le_add_left 5 k))), Bool.and_false]

/-! ### The windows (R35, R37) -/

/-- Bit `b` of word `j` is bit `32 * j + b` of the entry, and 0 from `MAXLEN` on. -/
theorem CodeEntry_word_getLsbD (e : CodeEntry) (j : Nat) {b : Nat} (hb : b < 32) :
    (e.word j).getLsbD b = e.bits.getLsbD (32 * j + b) := by
  unfold CodeEntry.word
  split
  · simp [hb]
  · rw [BitVec.getLsbD_of_ge e.bits _ (by omega)]; simp

theorem windowNode_of_le {s : State} (h : s.tab.nnodes ≤ s.regs.nodeIdx.toNat) : s.windowNode = none := by
  simp [State.windowNode, h]

theorem windowNode_of_lt {s : State} (h : s.regs.nodeIdx.toNat < s.tab.nnodes) :
    s.windowNode = some (nodeAt s.tab.node s.regs.nodeIdx.toNat) := by
  simp [State.windowNode, h]

/-- `NODE_INFO` has the leaf flag in bit 31, the symbol of a leaf in bits 15:0 and zeros between (R35). -/
theorem nodeInfo_leaf (n : Node) : (nodeInfo n).getLsbD 31 = n.leaf := by
  unfold nodeInfo
  split <;> simp_all

theorem nodeInfo_sym {n : Node} (h : n.leaf = false → n.sym = 0) : (nodeInfo n).extractLsb' 0 16 = n.sym := by
  unfold nodeInfo
  split
  · rw [BitVec.extractLsb'_or, show (0x80000000#32).extractLsb' 0 16 = 0#16 from rfl, BitVec.zero_or]
    refine BitVec.eq_of_getLsbD_eq fun k hk => ?_
    have hk' : k < 32 := hk.trans (by decide)
    have hk16 : k < 16 := hk
    simp [Symbol.zext, hk', hk16]
  · next hl => simp [h (by simpa using hl)]

theorem nodeInfo_gap (n : Node) : (nodeInfo n).extractLsb' 16 15 = 0#15 := by
  unfold nodeInfo
  split
  · rw [BitVec.extractLsb'_or, show (0x80000000#32).extractLsb' 16 15 = 0#15 from rfl, BitVec.zero_or]
    refine BitVec.eq_of_getLsbD_eq fun k _ => ?_
    simp [Symbol.zext]
  · rfl

theorem toNat_nodeRef {l : Nat} (h : l < 2 ^ 32) : (nodeRef (some l)).toNat = l := by
  rw [nodeRef, BitVec.toNat_ofNat, Nat.mod_eq_of_lt h]

/-- What `NODE_L` and `NODE_R` show of a node: its children, which stand below it. -/
theorem TreeOk.childWord {t : Tables} (ht : TreeOk t) {i : Nat} (hi : i < t.nnodes) (b : Bool) {c : Nat}
    (hc : childOf (nodeAt t.node i) b = some c) : (nodeRef (childOf (nodeAt t.node i) b)).toNat = c ∧ c < t.nnodes := by
  have hci := ht.childBelow i hi b c hc
  have hcap : t.nnodes < 2 ^ 32 := ht.capacity.trans_lt (by decide)
  exact ⟨by rw [hc, toNat_nodeRef (by omega)], hci.trans hi⟩

end Sys2Proof.Machine

open Sys2Proof Sys2Proof.Machine

/-- Settles O9: by the five low bits and the bound on the rest. -/
theorem statusWordShowsTheFlags : Obligations.StatusWordShowsTheFlags := by
  intro s k
  obtain ⟨h0, h1, h2, h3, h4⟩ := Status_toWord_low s.status
  match k with
  | 0 => exact h0
  | 1 => exact h1
  | 2 => exact h2
  | 3 => exact h3
  | 4 => exact h4
  | k + 5 => exact Status_toWord_high s.status k

/-- Settles O16: bit by bit, a word from `MAXLEN` on being 0. -/
theorem codeWindows : Obligations.CodeWindows := by
  intro s
  refine ⟨fun b hb => CodeEntry_word_getLsbD _ _ hb, fun h => if_neg (not_lt.2 h), fun h => ?_⟩
  rw [readReg, BitVec.toNat_ofNat, Nat.mod_eq_of_lt (by omega)]

/-- Settles O12: a host access to offset 0 reaches `ID`, which is read-only. -/
theorem idReadsItsConstant : Obligations.IdReadsItsConstant := by
  intro s es
  refine ⟨fun h => ?_, fun v h => ?_, rfl⟩
  · rw [step, h]
    simp [eventMove, hostMove, HostOp.wf, offsetWf, State.hostOp, State.hostRead, State.readValue, State.readIsFree, regAt,
      freeWhileBusy, readReg]
  · rw [step, h]
    rfl

/-- Settles O15: from `NNODES` on there is no node; below it the selected one is shown, and the tree rules bound what it holds. -/
theorem nodeWindows : Obligations.NodeWindows := by
  intro s ht
  refine ⟨fun h => by simp [readReg, windowNode_of_le h], ?_⟩
  rintro i hi rfl
  have hwin := windowNode_of_lt hi
  generalize s.regs.nodeIdx.toNat = i at hi hwin
  have hw : (nodeAt s.tab.node i).w < 2 ^ 31 := (ht.weights i hi).2.trans_lt (by decide)
  have hsym : (nodeAt s.tab.node i).leaf = false → (nodeAt s.tab.node i).sym = 0 := fun hl =>
    ht.innerSym i hi (not_lt.1 fun hlt => by simp [(ht.leavesFirst i hi).2 hlt] at hl)
  simp only [readReg, hwin, Option.map_some, Option.getD_some]
  refine ⟨?_, ?_, nodeInfo_leaf _, nodeInfo_sym hsym, nodeInfo_gap _, fun h => by rw [h]; rfl, fun h => by rw [h]; rfl,
    fun l hl => ht.childWord hi false hl, fun r hr => ht.childWord hi true hr⟩
  · rw [BitVec.toNat_ofNat, Nat.mod_eq_of_lt (by omega)]
  · rw [BitVec.getLsbD_ofNat, Nat.testBit_lt_two_pow hw, Bool.and_false]

end

section
/-! PROOFS. Which command a step runs, reset, the fault state, the control bits and the frame of the commands. -/

open Sys2Proof Sys2Proof.Machine

namespace Sys2Proof.Machine

theorem step_of_nil {s : State} (h : s.script = []) : step s = coreMove s := by rw [step, h]

theorem step_of_cons {s : State} {e : Event} {es : List Event} (h : s.script = e :: es) :
    step s = eventMove e { s with script := es } := by rw [step, h]

theorem coreMove_of_running {s : State} {i : Instr} (hb : s.status.busy = true) (hi : s.running = .ok i) :
    coreMove s = exec i s := by rw [coreMove, if_pos hb, hi]

theorem coreStepMove_of_running {s : State} {i : Instr} (hb : s.status.busy = true) (hi : s.running = .ok i) :
    coreStepMove s = coreStep i s := by rw [coreStepMove, if_pos hb, hi]

theorem coreMove_of_idle {s : State} (hb : s.status.busy = false) : coreMove s = .next s := by simp [coreMove, hb]

theorem coreStepMove_of_idle {s : State} (hb : s.status.busy = false) : coreStepMove s = .next s := by
  simp [coreStepMove, hb]

/-- A command word put in from outside is accepted, and the core has the next move. -/
theorem withFetchWord_encode (s : State) (i : Instr) :
    s.withFetchWord 32 (encode i).toNat = { s.accepted i with script := .core :: s.script } := by
  have hw : BitVec.ofNat 32 ((encode i).toNat % 2 ^ 32) = encode i := by
    rw [Nat.mod_eq_of_lt (encode i).isLt, BitVec.ofNat_toNat, BitVec.setWidth_eq]
  rw [State.withFetchWord, hw, decodeWord_eq_ok.2 rfl]
  rfl

end Sys2Proof.Machine

/-- Settles O19: by what the core's two moves do while a command runs and while none does. -/
theorem stepRunsTheDecodedCommand : Obligations.StepRunsTheDecodedCommand := by
  refine ⟨fun s es i hb hi => ⟨fun h => ?_, fun h => ?_, fun h => ?_⟩, fun s es hb => ⟨?_, fun h => ?_⟩, fun s i => ?_⟩
  · exact (step_of_cons h).trans (coreMove_of_running (s := { s with script := es }) hb hi)
  · exact (step_of_nil h).trans (coreMove_of_running hb hi)
  · exact (step_of_cons h).trans (coreStepMove_of_running (s := { s with script := es }) hb hi)
  · rintro (h | h)
    · exact (step_of_cons h).trans (coreMove_of_idle (s := { s with script := es }) hb)
    · exact (step_of_cons h).trans (coreStepMove_of_idle (s := { s with script := es }) hb)
  · exact (step_of_nil h).trans (coreMove_of_idle hb)
  · rw [withFetchWord_encode]
    have hrun : coreMove (s.accepted i) = exec i (s.accepted i) := coreMove_of_running rfl (running_accepted s i)
    exact (step_of_cons (e := .core) (es := s.script) rfl).trans hrun

/-- Settles O21: reset leaves the protocol part in order whatever was there before, and its tables are empty. -/
theorem resetStateIsGood : Obligations.ResetStateIsGood := by
  obtain ⟨hf, hq, ho, hc⟩ := hardReset_protocolOk State.reset
  refine ⟨⟨hf, hq, ho, hc, MemOk_reset, TreeOk_reset, CodesOk_reset⟩, rfl, rfl, fun r hroot hid => ?_⟩
  cases r with
  | root => exact absurd rfl hroot
  | id => exact absurd rfl hid
  | _ => rfl

namespace Sys2Proof.Machine

/-- The reset machine after an illegal command word, CLEAR being presented next. -/
def clearAfterFault : State :=
  { State.reset.takeFault .illegalCmd 0x7#32 with script := [.host (.write 0x04 (encode .clear))] }

theorem inv_clearAfterFault : Inv clearAfterFault := by
  have h : ProtocolKept (State.reset.takeFault .illegalCmd 0x7#32) clearAfterFault := { ProtocolKept.refl _ with }
  obtain ⟨hf, hq, ho, hc⟩ := h.ok (takeFault_protocolOk _ _ _)
  exact ⟨hf, hq, ho, hc, MemOk_reset, TreeOk_reset, CodesOk_reset⟩

end Sys2Proof.Machine

/-- Refutes O27: CLEAR, accepted in the fault state, runs with `BUSY` and `ERR` both 1. -/
theorem not_plainR49IsKeptByEveryStep : ¬ Obligations.PlainR49IsKeptByEveryStep := by
  intro h
  have hplain : PlainR49 clearAfterFault := ⟨nofun, fun _ => ⟨rfl, rfl⟩⟩
  have hstep : step clearAfterFault = .next (clearAfterFault.popped.accepted .clear) := rfl
  obtain ⟨hbusy, -⟩ := h _ _ inv_clearAfterFault hplain hstep
  exact absurd (hbusy rfl).2 (by decide)

namespace Sys2Proof.Machine

/-- Presenting a command word never lowers `ERR` (R220). -/
theorem writeReg_err (s : State) (r : Reg) (v : Word) (h : s.status.err = true) : (s.writeReg r v).status.err = true := by
  by_cases hr : r = .cmd
  · subst hr
    rw [State.writeReg]
    rcases presentCommand_cases s v with ⟨-, he⟩ | ⟨-, -, he⟩ | ⟨i, -, -, -, he⟩ <;> rw [he]
    · exact h
    · rfl
    · exact h
  · rw [(writeReg_protocolKept s hr v).err, h]

end Sys2Proof.Machine

/-- Settles O28: of all a step can do, only reset and CLEAR's completion lower `ERR`. -/
theorem faultStateLeftOnlyByClearOrReset : Obligations.FaultStateLeftOnlyByClearOrReset := by
  intro s t hstep hs ht
  cases step_move hstep with
  | @command i _ hb hi h =>
    cases h with
    | runs h | completes _ h => exact absurd (ht.symm.trans (h.err.trans hs)) nofun
    | faults => exact absurd ht nofun
    | clears hclear => exact .inr ⟨hb, hclear ▸ hi, rfl, rfl, rfl, rfl⟩
  | idle => exact absurd (ht.symm.trans hs) nofun
  | @host op es h =>
    cases op with
    | read off => exact absurd (ht.symm.trans hs) nofun
    | write off v => exact absurd (ht.symm.trans (writeReg_err s.popped _ v hs)) nofun
  | wait => exact absurd (ht.symm.trans ((hostWait_protocolKept _ _).err.trans hs)) nofun
  | reset h => exact .inl ⟨_, h⟩
  | env => exact absurd (ht.symm.trans ((envOp_protocolKept _ _).err.trans hs)) nofun

namespace Sys2Proof.Machine

/-! ### What only the host and reset write (R28, R32, R34, R36) -/

/-- `INTEN`, the index registers and `REJ` are as they were, and `BUSY` has not been set. -/
structure ControlsKept (s t : State) : Prop where
  inten : t.regs.inten = s.regs.inten
  freqIdx : t.regs.freqIdx = s.regs.freqIdx
  nodeIdx : t.regs.nodeIdx = s.regs.nodeIdx
  codeIdx : t.regs.codeIdx = s.regs.codeIdx
  codeWsel : t.regs.codeWsel = s.regs.codeWsel
  rej : t.status.rej = s.status.rej
  busy : t.status.busy = true → s.status.busy = true

theorem ControlsKept.refl (s : State) : ControlsKept s s := ⟨rfl, rfl, rfl, rfl, rfl, rfl, id⟩

theorem Kept.controls {i : Instr} {s u : State} (h : Kept i s u) : ControlsKept s u where
  inten := by rw [h.regs]
  freqIdx := by rw [h.regs]
  nodeIdx := by rw [h.regs]
  codeIdx := by rw [h.regs]
  codeWsel := by rw [h.regs]
  rej := h.rej
  busy := h.busy.symm.trans

theorem CommandMove.controls {i : Instr} {s t : State} (h : CommandMove i s t) : ControlsKept s t := by
  cases h with
  | runs h => exact h.controls
  | completes _ h | faults _ h => exact { h.controls with busy := nofun }
  | clears => exact { ControlsKept.refl s with busy := nofun }

theorem hostWait_controls (s : State) (es : List Event) : ControlsKept s (s.hostWait es) := by
  unfold State.hostWait
  split <;> exact { ControlsKept.refl s with }

theorem envOp_controls (s : State) (op : EnvOp) : ControlsKept s (s.envOp op) := by
  cases op <;> exact { ControlsKept.refl s with }

/-- Only reset and a host write change them. -/
theorem StepMove.controls {s t : State} (h : StepMove s t) :
    ControlsKept s t ∨ (∃ es, s.script = .reset :: es ∧ t = s.popped.hardReset) ∨
      ∃ off v es, s.script = .host (.write off v) :: es ∧ t = s.popped.writeReg (regAt off) v := by
  cases h with
  | command _ _ h => exact .inl { h.controls with }
  | idle => exact .inl { ControlsKept.refl s with }
  | @host op es hs =>
    cases op with
    | read off => exact .inl { ControlsKept.refl s with }
    | write off v => exact .inr (.inr ⟨off, v, es, hs, rfl⟩)
  | wait => exact .inl { hostWait_controls s.popped _ with }
  | reset hs => exact .inr (.inl ⟨_, hs, rfl⟩)
  | env => exact .inl { envOp_controls s.popped _ with }

/-- What a host write leaves in `INTEN` and the index registers (R227); besides them only the fault record can change. -/
theorem writeReg_regs (s : State) (r : Reg) (v : Word) : ∃ code info, (s.writeReg r v).regs =
    { errcode := code
      errinfo := info
      inten := if r = .inten then v.setWidth 2 else s.regs.inten
      freqIdx := if r = .freqIdx then v.setWidth Config.symw else s.regs.freqIdx
      nodeIdx := if r = .nodeIdx then v else s.regs.nodeIdx
      codeIdx := if r = .codeIdx then v.setWidth Config.symw else s.regs.codeIdx
      codeWsel := if r = .codeWsel then v else s.regs.codeWsel } := by
  cases r with
  | cmd =>
    rw [State.writeReg]
    rcases presentCommand_cases s v with ⟨-, h⟩ | ⟨-, -, h⟩ | ⟨i, -, -, -, h⟩ <;> rw [h] <;> exact ⟨_, _, rfl⟩
  | freqData =>
    rw [State.writeReg, State.writeFreqData]
    split <;> exact ⟨_, _, rfl⟩
  | _ => exact ⟨_, _, rfl⟩

/-- `BUSY` is set by an accepted command word (R220). -/
theorem writeReg_busy_set {s : State} {r : Reg} {v : Word} (hs : s.status.busy = false)
    (ht : (s.writeReg r v).status.busy = true) :
    r = .cmd ∧ ∃ i, v = encode i ∧ (s.status.err = false ∨ i = .clear) := by
  by_cases hr : r = .cmd
  · subst hr
    rw [State.writeReg] at ht
    rcases presentCommand_cases s v with ⟨-, h⟩ | ⟨-, -, h⟩ | ⟨i, -, hi, hv, -⟩
    · rw [h] at ht; exact absurd (hs.symm.trans ht) nofun
    · rw [h] at ht; exact absurd ht nofun
    · exact ⟨rfl, i, hv, hi⟩
  · exact absurd (((writeReg_protocolKept s hr v).busy.trans hs).symm.trans ht) nofun

/-- `REJ` is set by a dropped write (R221, R228). -/
theorem writeReg_rej_set {s : State} {r : Reg} {v : Word} (hs : s.status.rej = false)
    (ht : (s.writeReg r v).status.rej = true) :
    (r = .cmd ∨ r = .freqData) ∧ (s.status.busy = true ∨ s.status.err = true ∧ r = .cmd) := by
  cases r with
  | cmd =>
    rw [State.writeReg] at ht
    rcases presentCommand_cases s v with ⟨hrej, -⟩ | ⟨-, -, h⟩ | ⟨i, -, -, -, h⟩
    · exact ⟨.inl rfl, hrej.imp_right fun ⟨he, _⟩ => ⟨he, rfl⟩⟩
    · rw [h] at ht; exact absurd (hs.symm.trans ht) nofun
    · rw [h] at ht; exact absurd (hs.symm.trans ht) nofun
  | freqData =>
    rw [State.writeReg, State.writeFreqData] at ht
    split at ht
    · next hb => exact ⟨.inr rfl, .inl hb⟩
    · exact absurd (hs.symm.trans ht) nofun
  | status => simp [State.writeReg, hs] at ht
  | _ => exact absurd (hs.symm.trans ht) nofun

/-- `REJ` is cleared by a 1 written to its bit in `STATUS` (R230). -/
theorem writeReg_rej_cleared {s : State} {r : Reg} {v : Word} (hs : s.status.rej = true)
    (ht : (s.writeReg r v).status.rej = false) : r = .status ∧ v.getLsbD 3 = true := by
  cases r with
  | cmd =>
    rw [State.writeReg] at ht
    rcases presentCommand_cases s v with ⟨-, h⟩ | ⟨-, -, h⟩ | ⟨i, -, -, -, h⟩ <;> rw [h] at ht
    · exact absurd ht nofun
    · exact absurd (hs.symm.trans ht) nofun
    · exact absurd (hs.symm.trans ht) nofun
  | freqData =>
    rw [State.writeReg, State.writeFreqData] at ht
    split at ht
    · exact absurd ht nofun
    · exact absurd (hs.symm.trans ht) nofun
  | status => exact ⟨rfl, by simpa [State.writeReg, hs] using ht⟩
  | _ => exact absurd (hs.symm.trans ht) nofun

end Sys2Proof.Machine

/-- Settles O32: the core and the environment keep these bits; a host write changes those its offset names. -/
theorem whoWritesTheControlBits : Obligations.WhoWritesTheControlBits := by
  intro s t hstep
  rcases (step_move hstep).controls with h | ⟨es, hs, rfl⟩ | ⟨off, v, es, hs, rfl⟩
  · exact ⟨(absurd h.inten ·), (absurd h.freqIdx ·), (absurd h.nodeIdx ·), (absurd h.codeIdx ·), (absurd h.codeWsel ·),
      fun h0 h1 => absurd (h0.symm.trans (h.busy h1)) nofun, fun h0 h1 => absurd (h0.symm.trans (h.rej.symm.trans h1)) nofun,
      fun h0 h1 => absurd (h0.symm.trans (h.rej.symm.trans h1)) nofun⟩
  · exact ⟨fun _ => .inl ⟨es, hs⟩, fun _ => .inl ⟨es, hs⟩, fun _ => .inl ⟨es, hs⟩, fun _ => .inl ⟨es, hs⟩,
      fun _ => .inl ⟨es, hs⟩, fun _ => nofun, fun _ => nofun, fun _ _ => .inl ⟨es, hs⟩⟩
  · obtain ⟨code, info, hregs⟩ := writeReg_regs s.popped (regAt off) v
    have hoff : ∀ {r : Reg}, regAt off = r → r ≠ .reserved → s.script = .host (.write r.offset v) :: es := by
      rintro r rfl hr
      rwa [← offset_of_regAt hr]
    have hreg : ∀ {r : Reg} {α : Type} {a b : α}, (if regAt off = r then a else b) ≠ b → r ≠ .reserved →
        ∃ v es, s.script = .host (.write r.offset v) :: es := fun h hr => ⟨v, es, hoff (ite_ne_right_iff.1 h).1 hr⟩
    rw [hregs]
    refine ⟨fun h => .inr (hreg h nofun), fun h => .inr (hreg h nofun), fun h => .inr (hreg h nofun),
      fun h => .inr (hreg h nofun), fun h => .inr (hreg h nofun), fun h0 h1 => ?_, fun h0 h1 => ?_, fun h0 h1 => ?_⟩
    · obtain ⟨hr, i, rfl, hi⟩ := writeReg_busy_set (s := s.popped) h0 h1
      exact ⟨i, es, hoff hr nofun, hi⟩
    · obtain ⟨hr | hr, hb⟩ := writeReg_rej_set (s := s.popped) h0 h1
      · exact ⟨_, v, es, hoff hr nofun, .inl rfl, hb.imp_right fun ⟨he, _⟩ => ⟨he, rfl⟩⟩
      · refine ⟨_, v, es, hoff hr nofun, .inr rfl, hb.imp_right fun ⟨_, hc⟩ => absurd (hr.symm.trans hc) nofun⟩
    · obtain ⟨hr, hv⟩ := writeReg_rej_cleared (s := s.popped) h0 h1
      exact .inr ⟨v, es, hoff hr nofun, hv⟩

/-- Settles O33: what a command keeps until its end, and what its end then settles. -/
theorem commandFrames : Obligations.CommandFrames := by
  intro i s t hexec
  have hmove := exec_move hexec
  obtain ⟨h1, h2, h3, h4, h5, h6, -⟩ := hmove.controls
  refine ⟨h1, h2, h3, h4, h5, ?_⟩
  cases hmove with
  | runs h =>
    exact ⟨h.op, h6, h.script, h.reads, h.draws, h.trunc, fun _ => h.err.trans, fun _ _ _ => h.regs, h.cinUpcoming,
      h.binUpcoming, h.bout, h.cout, fun hc he => .inl (h.cin hc he), fun hd => .inl (h.bin hd)⟩
  | completes _ h =>
    exact ⟨h.op, h6, h.script, h.reads, h.draws, h.trunc, fun _ => h.err.trans, fun _ _ _ => h.regs, h.cinUpcoming,
      h.binUpcoming, h.bout, h.cout, fun _ _ => .inr rfl, fun _ => .inr rfl⟩
  | faults _ h =>
    exact ⟨h.op, h6, h.script, h.reads, h.draws, h.trunc, fun _ _ => rfl, fun _ he hs => absurd (he.trans hs) nofun,
      h.cinUpcoming, h.binUpcoming, h.bout, h.cout, fun _ _ => .inr rfl, fun _ => .inr rfl⟩
  | clears hi =>
    exact ⟨rfl, h6, rfl, rfl, rfl, fun _ => rfl, fun hc => absurd hi hc, fun hc => absurd hi hc, rfl, rfl, fun _ => rfl,
      fun _ => rfl, fun _ _ => .inr rfl, fun _ => .inr rfl⟩

end

section
/-! PROOFS. Host accesses that reach nothing: reserved offsets, read-only registers and bits, and offsets that are no word of
the register space (R62, R63). -/

open Sys2Proof Sys2Proof.Machine

namespace Sys2Proof.Machine

theorem offsetWf_iff {off : Nat} : offsetWf off = true ↔ off % 4 = 0 ∧ off < 0x100 := by simp [offsetWf]

/-- R63: the offsets without a register. -/
theorem regAt_reserved {off : Nat} (h : off = 0x24 ∨ 0x54 ≤ off) : regAt off = .reserved := by
  by_contra hr
  have hoff := offset_of_regAt hr
  cases hreg : regAt off <;> simp only [hreg, Reg.offset, not_true] at hoff hr <;> omega

@[simp] theorem State_readValue_reserved (s : State) : s.readValue .reserved = 0#32 := by
  simp [State.readValue, State.readIsFree, freeWhileBusy, readReg]

/-- The offsets of `ID`, `ERRCODE`, `ERRINFO`, `ROOT`, `NNODES`, `NCODES` and of what the windows show, but for `FREQ_DATA`. -/
def readOnlyOffsets : List Nat := [0x00, 0x0C, 0x10, 0x18, 0x1C, 0x20, 0x34, 0x38, 0x3C, 0x40, 0x4C, 0x50]

theorem writeReg_readOnly (s : State) (v : Word) : ∀ off ∈ readOnlyOffsets, s.writeReg (regAt off) v = s := by
  simp [readOnlyOffsets, regAt, State.writeReg]

theorem hostMove_of_wf {op : HostOp} (h : op.wf = true) (s : State) : hostMove op s = .next (s.hostOp op) := if_pos h

/-- A host write that the interface can express acts on the register at its offset (R227). -/
theorem step_hostWrite {s : State} {es : List Event} {off : Nat} {v : Word} (hwf : offsetWf off = true)
    (h : s.script = .host (.write off v) :: es) : step s = .next (State.writeReg { s with script := es } (regAt off) v) :=
  (step_of_cons h).trans (hostMove_of_wf (op := .write off v) hwf _)

/-- Of what is written to `STATUS`, only bits 1 and 3 are looked at (R25, R230). -/
theorem Status_hostWritten_mask (f : Status) (v : Word) : f.hostWritten (v &&& 0xA#32) = f.hostWritten v := by
  simp [Status.hostWritten]

/-- Bits above the width that is kept make no difference. -/
theorem setWidth_and_mask {n : Nat} {m : Word} (hm : m.setWidth n = BitVec.allOnes n) (v : Word) :
    (v &&& m).setWidth n = v.setWidth n := by rw [BitVec.setWidth_and, hm, BitVec.and_allOnes]

end Sys2Proof.Machine

/-- Settles O11: a reserved offset has no register, a read-only register no arm in `writeReg`, and the arms of the others look
at the writable bits only. -/
theorem reservedAndReadOnlyWritesDoNothing : Obligations.ReservedAndReadOnlyWritesDoNothing := by
  intro s es off v hwf
  refine ⟨fun h => by rw [regAt_reserved h, State_readValue_reserved], fun h hs => ?_, fun hs => ?_, ?_, ?_, ?_, ?_⟩
  · rw [step_hostWrite hwf hs]
    rcases or_assoc.2 h with hres | hro
    · rw [regAt_reserved hres]; rfl
    · rw [writeReg_readOnly _ v off hro]
  · exact ⟨_, step_hostWrite rfl hs, rfl, rfl, rfl⟩
  · simp only [State.writeReg, Status_hostWritten_mask]
  · simp only [State.writeReg, setWidth_and_mask (m := 0x3#32) (n := 2) (by decide)]
  · simp only [State.writeReg, setWidth_and_mask (m := 0xFFFF#32) (n := Config.symw) (by decide)]
  · simp only [State.writeReg, setWidth_and_mask (m := 0xFFFF#32) (n := Config.symw) (by decide)]

/-- Settles O18: such an offset is not `HostOp.wf`. -/
theorem inexpressibleAccessRefused : Obligations.InexpressibleAccessRefused := by
  intro s es off v hoff
  have hwf : offsetWf off = false := by
    rw [← Bool.not_eq_true, offsetWf_iff]
    omega
  have hr : (HostOp.read off).wf = false := hwf
  have hw : (HostOp.write off v).wf = false := hwf
  refine ⟨fun h => (step_of_cons h).trans ?_, fun h => (step_of_cons h).trans ?_⟩
  · simp [eventMove, hostMove, hr]
  · simp [eventMove, hostMove, hw]

end

section
/-! PROOFS. What one step of COUNT, ENCODE and DECODE does, said once and in both directions: `CountMove`, `EncodeMove` and
`DecodeMove` for a step that goes on, `PlainEnd` and `DecodeEnd` for the step that ends the command. -/

namespace Sys2Proof.Machine

open Sys2Proof

variable {s u : State} {P Q : State → Prop}

/-! ### The shared port operations -/

theorem sinkWritten_goes {r : Option (Answer × State)} {id : Word} {k : State → Micro}
    (hfail : ∀ u, r = some (.fail, u) → P (u.goto (.record .stream id))) (hok : ∀ u, r = some (.ok, u) → (k u).Goes P Q) :
    (sinkWritten r id k).Goes P Q := by
  rcases r with _ | ⟨_ | _, u⟩
  · trivial
  · exact hok u rfl
  · exact hfail u rfl

theorem abortTaken_goes {r : Option (Answer × State)} {code : FaultCode} {info : Word}
    (h : ∀ a u, r = some (a, u) → P (u.goto (.record code info))) : (abortTaken r code info).Goes P Q := by
  rcases r with _ | ⟨a, u⟩
  · trivial
  · exact h a u rfl

/-- The end of COUNT and ENCODE (R222, R256). -/
inductive PlainEnd (s : State) : State → Prop
  | completes (hp : s.work.phase = .finish) : PlainEnd s s.complete
  | faults {code : FaultCode} {info : Word} (hp : s.work.phase = .record code info) : PlainEnd s (s.takeFault code info)

/-- The end of DECODE (R208, R222, R256). -/
inductive DecodeEnd (s : State) : State → Prop
  | completes {trunc : Bool} (hp : s.work.phase = .decodeFinish trunc) : DecodeEnd s (s.withTruncFlag trunc).complete
  | faults {code : FaultCode} {info : Word} (hp : s.work.phase = .record code info) : DecodeEnd s (s.takeFault code info)

/-! ### COUNT -/

/-- The places where COUNT goes on; from any other it starts. -/
def Phase.isCount : Phase → Bool
  | .count _ => true
  | .finish => true
  | .record _ _ => true
  | _ => false

/-- A step of COUNT that goes on (R130). -/
inductive CountMove (s : State) : State → Prop
  | start (hp : s.work.phase.isCount = false) : CountMove s ((s.withTab s.tab.emptyFreq).goto (.count 0))
  | symbol {n : Nat} {c : Symbol} {u : State} (hp : s.work.phase = .count n) (hr : s.readCin = some (.data c, u))
      (hn : n ≠ Config.cntmax) : CountMove s ((u.withTab (u.tab.countSymbol c)).goto (.count (n + 1)))
  | overflow {c : Symbol} {u : State} (hp : s.work.phase = .count Config.cntmax) (hr : s.readCin = some (.data c, u)) :
      CountMove s (u.goto (.record .countOvf c.zext))
  | readEnd {n : Nat} {u : State} (hp : s.work.phase = .count n) (hr : s.readCin = some (.endTok, u)) :
      CountMove s (u.goto .finish)
  | readFail {n : Nat} {u : State} (hp : s.work.phase = .count n) (hr : s.readCin = some (.failTok, u)) :
      CountMove s (u.goto (.record .stream portidCin))

theorem countLoop_goes {n : Nat} (hp : s.work.phase = .count n) : (countLoop n s).Goes (CountMove s) Q := by
  unfold countLoop
  split
  · trivial
  · next t u hr =>
    cases t with
    | endTok => exact .readEnd hp hr
    | failTok => exact .readFail hp hr
    | data c =>
      rw [countToken]
      split
      · next hn => exact .overflow (hn ▸ hp) hr
      · next hn => exact .symbol hp hr hn

theorem countStep_moves (s : State) : (countStep s).Goes (CountMove s) (PlainEnd s) := by
  unfold countStep
  cases hp : s.work.phase with
  | count n => exact countLoop_goes hp
  | finish => exact .completes hp
  | record code info => exact .faults hp
  | _ => exact .start (by rw [hp]; rfl)

theorem CountMove.step (h : CountMove s u) : countStep s = .more u := by
  cases h with
  | start hp =>
    unfold countStep
    cases hph : s.work.phase <;> simp [hph, Phase.isCount] at hp <;> rfl
  | symbol hp hr hn => simp only [countStep, hp, countLoop, hr, countToken, if_neg hn]; rfl
  | overflow hp hr => simp only [countStep, hp, countLoop, hr, countToken]; rfl
  | readEnd hp hr | readFail hp hr => simp only [countStep, hp, countLoop, hr]; rfl

/-! ### ENCODE -/

/-- The places where ENCODE goes on; from any other it starts. -/
def Phase.isEncode : Phase → Bool
  | .encode _ => true
  | .encodeEnd => true
  | .abort _ _ => true
  | .finish => true
  | .record _ _ => true
  | _ => false

/-- Where a token that ENCODE has read takes it (R180, R186). -/
def encodeNext (t : Tables) : SrcTok Symbol → Phase
  | .endTok => .encodeEnd
  | .failTok => .abort .stream portidCin
  | .data c => if (t.codeAt c).len = 0 then .abort .noCode c.zext else .encode (t.codeAt c).path

theorem encodeToken_eq (t : SrcTok Symbol) (s : State) : encodeToken t s = .more (s.goto (encodeNext s.tab t)) := by
  cases t with
  | endTok | failTok => rfl
  | data c => simp only [encodeToken, encodeNext]; split <;> rfl

/-- The byte that the bit buffer makes (R184). -/
def State.bufByte (s : State) : ByteTok := ⟨s.work.bitbuf, BitVec.ofNat 3 (8 - s.work.bitcnt)⟩

/-- ENCODE has a byte to write: a full one, or the padded one of `Flush` (R184). -/
def State.byteDue (s : State) : Prop :=
  (∃ bits, s.work.phase = .encode bits ∧ s.work.bitcnt = 8) ∨ (s.work.phase = .encodeEnd ∧ s.work.bitcnt ≠ 0)

/-- A step of ENCODE that goes on (R180, R184). -/
inductive EncodeMove (s : State) : State → Prop
  | start (hp : s.work.phase.isEncode = false) : EncodeMove s (s.goto (.encode []))
  | push {b : Bool} {bs : List Bool} (hp : s.work.phase = .encode (b :: bs)) (hc : s.work.bitcnt ≠ 8) :
      EncodeMove s ((s.pushBit b).goto (.encode bs))
  | read {t : SrcTok Symbol} {u : State} (hp : s.work.phase = .encode []) (hc : s.work.bitcnt ≠ 8)
      (hr : s.readCin = some (t, u)) : EncodeMove s (u.goto (encodeNext u.tab t))
  | byteTaken {u : State} (hd : s.byteDue) (hw : s.writeBout (.data s.bufByte) = some (.ok, u)) : EncodeMove s u.clearBitBuf
  | byteFailed {u : State} (hd : s.byteDue) (hw : s.writeBout (.data s.bufByte) = some (.fail, u)) :
      EncodeMove s (u.goto (.record .stream portidBout))
  | endTaken {u : State} (hp : s.work.phase = .encodeEnd) (hc : s.work.bitcnt = 0)
      (hw : s.writeBout .endTok = some (.ok, u)) : EncodeMove s (u.goto .finish)
  | endFailed {u : State} (hp : s.work.phase = .encodeEnd) (hc : s.work.bitcnt = 0)
      (hw : s.writeBout .endTok = some (.fail, u)) : EncodeMove s (u.goto (.record .stream portidBout))
  | aborted {code : FaultCode} {info : Word} {a : Answer} {u : State} (hp : s.work.phase = .abort code info)
      (hw : s.writeBout .abortTok = some (a, u)) : EncodeMove s (u.goto (.record code info))

theorem writeBitBuf_goes (hd : s.byteDue) : (writeBitBuf s).Goes (EncodeMove s) Q :=
  sinkWritten_goes (fun _ hw => .byteFailed hd hw) fun _ hw => .byteTaken hd hw

theorem encodeLoop_goes {bits : List Bool} (hp : s.work.phase = .encode bits) : (encodeLoop bits s).Goes (EncodeMove s) Q := by
  unfold encodeLoop
  split
  · next hc => exact writeBitBuf_goes (.inl ⟨bits, hp, hc⟩)
  · next hc =>
    split
    · exact .push hp hc
    · split
      · trivial
      · next hr => rw [encodeToken_eq]; exact .read hp hc hr

theorem encodeWriteEnd_goes (hp : s.work.phase = .encodeEnd) : (encodeWriteEnd s).Goes (EncodeMove s) Q := by
  unfold encodeWriteEnd
  split
  · next hc => exact sinkWritten_goes (fun _ hw => .endFailed hp hc hw) fun _ hw => .endTaken hp hc hw
  · next hc => exact writeBitBuf_goes (.inr ⟨hp, hc⟩)

theorem encodeStep_moves (s : State) : (encodeStep s).Goes (EncodeMove s) (PlainEnd s) := by
  unfold encodeStep
  cases hp : s.work.phase with
  | encode bits => exact encodeLoop_goes hp
  | encodeEnd => exact encodeWriteEnd_goes hp
  | abort code info => exact abortTaken_goes fun _ _ hw => .aborted hp hw
  | finish => exact .completes hp
  | record code info => exact .faults hp
  | _ => exact .start (by rw [hp]; rfl)

theorem encodeStep_of_byteDue (hd : s.byteDue) : encodeStep s = writeBitBuf s := by
  rcases hd with ⟨bits, hp, hc⟩ | ⟨hp, hc⟩
  · simp only [encodeStep, hp, encodeLoop, hc, if_true]
  · simp only [encodeStep, hp, encodeWriteEnd, hc, if_false]

theorem EncodeMove.step (h : EncodeMove s u) : encodeStep s = .more u := by
  cases h with
  | start hp =>
    unfold encodeStep
    cases hph : s.work.phase <;> simp [hph, Phase.isEncode] at hp <;> rfl
  | push hp hc => simp only [encodeStep, hp, encodeLoop, hc, if_false]
  | read hp hc hr => simp only [encodeStep, hp, encodeLoop, hc, if_false, hr, encodeToken_eq]
  | byteTaken hd hw | byteFailed hd hw =>
    rw [State.bufByte] at hw
    rw [encodeStep_of_byteDue hd, writeBitBuf, hw]; rfl
  | endTaken hp hc hw | endFailed hp hc hw => simp only [encodeStep, hp, encodeWriteEnd, hc, if_true, hw]; rfl
  | aborted hp hw => simp only [encodeStep, hp, hw]; rfl

/-! ### DECODE -/

/-- The places where DECODE goes on; from any other it starts. -/
def Phase.isDecode : Phase → Bool
  | .decode => true
  | .decodeEmit => true
  | .decodeEnd _ => true
  | .abort _ _ => true
  | .decodeFinish _ => true
  | .record _ _ => true
  | _ => false

/-- The next bit of the buffer (R204). -/
def State.topBit (s : State) : Bool := s.work.bitbuf.getLsbD 7

/-- The child of the node under the cursor that the next bit selects (R206). -/
def State.nextNode (s : State) : Option Nat := childOf s.curNode s.topBit

/-- A step of DECODE that goes on (R200, R204, R206). -/
inductive DecodeMove (s : State) : State → Prop
  | startAbsent (hp : s.work.phase.isDecode = false) (hroot : s.tab.root = none) : DecodeMove s (s.goto (.decodeEnd false))
  | start {r : Nat} (hp : s.work.phase.isDecode = false) (hroot : s.tab.root = some r) :
      DecodeMove s ((s.setCur (some r)).goto .decode)
  | readByte {t : ByteTok} {u : State} (hp : s.work.phase = .decode) (hc : s.work.bitcnt = 0)
      (hr : s.readBin = some (.data t, u)) : DecodeMove s (u.loadByte t)
  | readEnd {u : State} (hp : s.work.phase = .decode) (hc : s.work.bitcnt = 0) (hr : s.readBin = some (.endTok, u)) :
      DecodeMove s (u.goto (.decodeEnd (u.work.cur != u.tab.root)))
  | readFail {u : State} (hp : s.work.phase = .decode) (hc : s.work.bitcnt = 0) (hr : s.readBin = some (.failTok, u)) :
      DecodeMove s (u.goto (.abort .stream portidBin))
  | walkOff (hp : s.work.phase = .decode) (hc : s.work.bitcnt ≠ 0) (hn : s.nextNode = none) :
      DecodeMove s (s.shiftBit.goto (.abort .walkOff (nodeRef s.work.cur)))
  | walkInner {i : Nat} (hp : s.work.phase = .decode) (hc : s.work.bitcnt ≠ 0) (hn : s.nextNode = some i)
      (hl : (nodeAt s.tab.node i).leaf = false) : DecodeMove s (s.shiftBit.setCur (some i))
  | walkLeaf {i : Nat} (hp : s.work.phase = .decode) (hc : s.work.bitcnt ≠ 0) (hn : s.nextNode = some i)
      (hl : (nodeAt s.tab.node i).leaf = true) : DecodeMove s ((s.shiftBit.setCur (some i)).goto .decodeEmit)
  | symTaken {u : State} (hp : s.work.phase = .decodeEmit) (hw : s.writeCout (.data s.curNode.sym) = some (.ok, u)) :
      DecodeMove s ((u.setCur u.tab.root).goto .decode)
  | symFailed {u : State} (hp : s.work.phase = .decodeEmit) (hw : s.writeCout (.data s.curNode.sym) = some (.fail, u)) :
      DecodeMove s (u.goto (.record .stream portidCout))
  | endTaken {trunc : Bool} {u : State} (hp : s.work.phase = .decodeEnd trunc) (hw : s.writeCout .endTok = some (.ok, u)) :
      DecodeMove s (u.goto (.decodeFinish trunc))
  | endFailed {trunc : Bool} {u : State} (hp : s.work.phase = .decodeEnd trunc)
      (hw : s.writeCout .endTok = some (.fail, u)) : DecodeMove s (u.goto (.record .stream portidCout))
  | aborted {code : FaultCode} {info : Word} {a : Answer} {u : State} (hp : s.work.phase = .abort code info)
      (hw : s.writeCout .abortTok = some (a, u)) : DecodeMove s (u.goto (.record code info))

theorem decodeLoop_goes (hp : s.work.phase = .decode) : (decodeLoop s).Goes (DecodeMove s) Q := by
  unfold decodeLoop
  split
  · next hc =>
    split
    · trivial
    · next t u hr =>
      cases t with
      | data t => exact .readByte hp hc hr
      | endTok => exact .readEnd hp hc hr
      | failTok => exact .readFail hp hc hr
  · next hc =>
    unfold walkBit
    split
    · next hn => exact .walkOff hp hc hn
    · next i hn =>
      dsimp only
      split
      · next hl => exact .walkLeaf hp hc hn hl
      · next hl => exact .walkInner hp hc hn (by simpa using hl)

theorem decodeStep_moves (s : State) : (decodeStep s).Goes (DecodeMove s) (DecodeEnd s) := by
  unfold decodeStep
  cases hp : s.work.phase with
  | decode => exact decodeLoop_goes hp
  | decodeEmit => exact sinkWritten_goes (fun _ hw => .symFailed hp hw) fun _ hw => .symTaken hp hw
  | decodeEnd trunc => exact sinkWritten_goes (fun _ hw => .endFailed hp hw) fun _ hw => .endTaken hp hw
  | abort code info => exact abortTaken_goes fun _ _ hw => .aborted hp hw
  | decodeFinish trunc => exact .completes hp
  | record code info => exact .faults hp
  | _ =>
    have hstart : s.work.phase.isDecode = false := by rw [hp]; rfl
    simp only [decodeStart]
    split
    · next hroot => exact .startAbsent hstart hroot
    · next hroot => exact .start hstart hroot

theorem decodeStep_of_start (hp : s.work.phase.isDecode = false) : decodeStep s = decodeStart s := by
  unfold decodeStep
  cases hph : s.work.phase <;> simp [hph, Phase.isDecode] at hp <;> rfl

theorem decodeStep_of_bit (hp : s.work.phase = .decode) (hc : s.work.bitcnt ≠ 0) :
    decodeStep s = walkBit s.topBit s.shiftBit := by
  simp only [decodeStep, hp, decodeLoop, hc, if_false, State.topBit]

theorem DecodeMove.step (h : DecodeMove s u) : decodeStep s = .more u := by
  cases h with
  | startAbsent hp hroot | start hp hroot => simp only [decodeStep_of_start hp, decodeStart, hroot]
  | readByte hp hc hr | readEnd hp hc hr | readFail hp hc hr =>
    simp only [decodeStep, hp, decodeLoop, hc, if_true, hr]; rfl
  | walkOff hp hc hn =>
    replace hn : childOf s.shiftBit.curNode s.topBit = none := hn
    simp only [decodeStep_of_bit hp hc, walkBit, hn]; rfl
  | walkInner hp hc hn hl | walkLeaf hp hc hn hl =>
    replace hn : childOf s.shiftBit.curNode s.topBit = some _ := hn
    simp only [decodeStep_of_bit hp hc, walkBit, hn, State_shiftBit_tab, hl]; rfl
  | symTaken hp hw | symFailed hp hw => simp only [decodeStep, hp, decodeWrite, hw]; rfl
  | endTaken hp hw | endFailed hp hw => simp only [decodeStep, hp, decodeWriteEnd, hw]; rfl
  | aborted hp hw => simp only [decodeStep, hp, hw]; rfl

end Sys2Proof.Machine

end

section
/-! PROOFS. A streaming command's run is its steps, one after the other, whatever the number of steps it is given, and a step moves
at most one token (R223, R235). -/

namespace Sys2Proof.Machine

open Sys2Proof

variable {i : Instr} {f : State → Micro} {s u : State}

theorem Micro_more_of_goes {m : Micro} {P Q : State → Prop} (h : m.Goes P Q) (hm : m = .more u) : P u := by
  subst hm
  exact h

theorem Micro_done_of_goes {m : Micro} {P Q : State → Prop} (h : m.Goes P Q) (hm : m = .done u) : Q u := by
  subst hm
  exact h

theorem countStep_eq_more : countStep s = .more u ↔ CountMove s u := ⟨Micro_more_of_goes (countStep_moves s), CountMove.step⟩

theorem encodeStep_eq_more : encodeStep s = .more u ↔ EncodeMove s u :=
  ⟨Micro_more_of_goes (encodeStep_moves s), EncodeMove.step⟩

theorem decodeStep_eq_more : decodeStep s = .more u ↔ DecodeMove s u :=
  ⟨Micro_more_of_goes (decodeStep_moves s), DecodeMove.step⟩

/-! ### The number of steps -/

/-- With more steps than a measure that every step lowers, the number of steps makes no difference. -/
theorem runMicro_eq_of_lt {m : State → Nat} (hm : ∀ s u, f s = .more u → m u < m s) :
    ∀ {n k : Nat} {s : State}, m s < n → m s < k → runMicro f n s = runMicro f k s
  | 0, _, _, hn, _ => absurd hn (Nat.not_lt_zero _)
  | _, 0, _, _, hk => absurd hk (Nat.not_lt_zero _)
  | n + 1, k + 1, s, hn, hk => by
    cases h : f s with
    | more u =>
      have := hm s u h
      rw [runMicro_more h, runMicro_more h]
      exact runMicro_eq_of_lt hm (by omega) (by omega)
    | hold => rw [runMicro_hold h, runMicro_hold h]
    | done u => rw [runMicro_done h, runMicro_done h]

/-- So a command that is given enough steps can be run on from any place its steps lead to. -/
theorem runMicro_of_more {m fuel : State → Nat} (hm : ∀ s u, f s = .more u → m u < m s) (hfuel : ∀ s, m s < fuel s)
    (h : f s = .more u) : runMicro f (fuel s) s = runMicro f (fuel u) u := by
  have hs := hfuel s
  have hu := hm s u h
  obtain ⟨n, hn⟩ : ∃ n, fuel s = n + 1 := ⟨fuel s - 1, by omega⟩
  rw [hn, runMicro_more h]
  exact runMicro_eq_of_lt hm (by omega) (hfuel u)

/-- A bound on the steps COUNT still takes before its end. -/
def countMeasure (s : State) : Nat :=
  match s.work.phase with
  | .count _ => s.env.cin.avail.length
  | .finish => 0
  | .record _ _ => 0
  | _ => s.env.cin.avail.length + 1

theorem CountMove.measure (h : CountMove s u) : countMeasure u < countMeasure s := by
  cases h with
  | start hp =>
    unfold countMeasure
    cases hph : s.work.phase <;> simp [hph, Phase.isCount] at hp <;> exact Nat.lt_succ_self _
  | symbol hp hr hn =>
    obtain ⟨ts, hav, rfl⟩ := State_readCin_eq_some hr
    simp [countMeasure, hp, hav, State.withTab]
  | overflow hp hr | readEnd hp hr | readFail hp hr =>
    obtain ⟨ts, hav, rfl⟩ := State_readCin_eq_some hr
    simp [countMeasure, hp, hav]

theorem countMeasure_lt_fuel (s : State) : countMeasure s < countFuel s := by
  unfold countMeasure countFuel
  split <;> omega

/-- The bits that ENCODE will put for the tokens that are available. -/
def State.bitsAhead (s : State) : Nat := (s.env.cin.avail.map s.tab.tokenBits).sum

/-- The step that a full buffer takes before anything else (R184). -/
def State.fullBuffer (s : State) : Nat := (decide (s.work.bitcnt = 8)).toNat

theorem fullBuffer_le (s : State) : s.fullBuffer ≤ 1 := Bool.toNat_le _

theorem fullBuffer_of_ne (h : s.work.bitcnt ≠ 8) : s.fullBuffer = 0 := by simp [State.fullBuffer, h]

/-- A bound on the steps ENCODE still takes before its end: two a bit, one a token, and one for a full buffer. -/
def encodeMeasure (s : State) : Nat :=
  match s.work.phase with
  | .encode bits => 2 * (bits.length + s.bitsAhead) + s.env.cin.avail.length + s.fullBuffer + 2
  | .encodeEnd => min s.work.bitcnt 1 + 1
  | .abort _ _ => 1
  | .finish => 0
  | .record _ _ => 0
  | _ => 2 * s.bitsAhead + s.env.cin.avail.length + s.fullBuffer + 3

theorem encodeMeasure_of_start (hp : s.work.phase.isEncode = false) :
    encodeMeasure s = 2 * s.bitsAhead + s.env.cin.avail.length + s.fullBuffer + 3 := by
  unfold encodeMeasure
  cases hph : s.work.phase <;> simp [hph, Phase.isEncode] at hp <;> rfl

theorem encodeMeasure_goto_encode (s : State) (bits : List Bool) : encodeMeasure (s.goto (.encode bits)) =
    2 * (bits.length + s.bitsAhead) + s.env.cin.avail.length + s.fullBuffer + 2 := rfl

theorem CodeEntry_path_length (e : CodeEntry) : e.path.length = e.len := by simp [CodeEntry.path]

/-- What a token that is read takes with it. -/
theorem bitsAhead_of_readCin {t : SrcTok Symbol} (hr : s.readCin = some (t, u)) :
    s.env.cin.avail.length = u.env.cin.avail.length + 1 ∧ s.bitsAhead = s.tab.tokenBits t + u.bitsAhead ∧ u.tab = s.tab ∧
      u.work = s.work := by
  obtain ⟨ts, hav, rfl⟩ := State_readCin_eq_some hr
  exact ⟨by rw [hav]; rfl, by simp [State.bitsAhead, hav], rfl, rfl⟩

theorem EncodeMove.measure (h : EncodeMove s u) : encodeMeasure u < encodeMeasure s := by
  cases h with
  | start hp =>
    rw [encodeMeasure_of_start hp, encodeMeasure_goto_encode, List.length_nil]
    omega
  | @push b bs hp hc =>
    have hfull : (s.pushBit b).fullBuffer ≤ 1 := fullBuffer_le _
    have hahead : (s.pushBit b).bitsAhead = s.bitsAhead := rfl
    have hs : encodeMeasure s = 2 * (bs.length + 1 + s.bitsAhead) + s.env.cin.avail.length + s.fullBuffer + 2 := by
      simp only [encodeMeasure, hp, List.length_cons]
    rw [encodeMeasure_goto_encode, hs, hahead, State_pushBit_env]
    omega
  | @read t u hp hc hr =>
    obtain ⟨hlen, hbits, htab, hwork⟩ := bitsAhead_of_readCin hr
    have hs : encodeMeasure s = 2 * s.bitsAhead + s.env.cin.avail.length + 2 := by
      simp only [encodeMeasure, hp, fullBuffer_of_ne hc, List.length_nil, Nat.zero_add, Nat.add_zero]
    rw [hs]
    cases t with
    | endTok => simp only [encodeMeasure, encodeNext, State_goto_work]; omega
    | failTok => simp only [encodeMeasure, encodeNext, State_goto_work]; omega
    | data c =>
      simp only [encodeNext]
      split
      · simp only [encodeMeasure, State_goto_work]; omega
      · rw [encodeMeasure_goto_encode, CodeEntry_path_length, fullBuffer_of_ne (hwork ▸ hc), htab]
        rw [Tables.tokenBits] at hbits
        omega
  | byteTaken hd hw =>
    obtain ⟨p, -, rfl⟩ := State_writeBout_eq_some hw
    rcases hd with ⟨bits, hp, hc⟩ | ⟨hp, hc⟩
    · simp [encodeMeasure, hp, State.fullBuffer, hc, State.bitsAhead]
    · simp only [encodeMeasure, State_clearBitBuf_work, hp]
      omega
  | byteFailed hd hw => rcases hd with ⟨bits, hp, hc⟩ | ⟨hp, hc⟩ <;> simp [encodeMeasure, hp]
  | endTaken hp hc hw | endFailed hp hc hw => simp [encodeMeasure, hp]
  | aborted hp hw => simp [encodeMeasure, hp]

theorem encodeMeasure_lt_fuel (s : State) : encodeMeasure s < encodeFuel s := by
  have hfuel : encodeFuel s = 2 * (s.work.phase.pendingBits + s.bitsAhead) + s.env.cin.avail.length + 8 := rfl
  have hfull := fullBuffer_le s
  rw [hfuel, encodeMeasure]
  cases s.work.phase <;> simp only [Phase.pendingBits] <;> omega

/-- A bound on the steps DECODE still takes before its end: one a token, two a bit. -/
def decodeMeasure (s : State) : Nat :=
  match s.work.phase with
  | .decode => 17 * s.env.bin.avail.length + 2 * s.work.bitcnt + 3
  | .decodeEmit => 17 * s.env.bin.avail.length + 2 * s.work.bitcnt + 4
  | .decodeEnd _ => 1
  | .abort _ _ => 1
  | .decodeFinish _ => 0
  | .record _ _ => 0
  | _ => 17 * s.env.bin.avail.length + 2 * s.work.bitcnt + 4

theorem DecodeMove.measure (h : DecodeMove s u) : decodeMeasure u < decodeMeasure s := by
  cases h with
  | startAbsent hp hroot | start hp hroot =>
    unfold decodeMeasure
    cases hph : s.work.phase <;> simp [hph, Phase.isDecode] at hp <;> simp
  | @readByte t _ hp hc hr =>
    obtain ⟨ts, hav, rfl⟩ := State_readBin_eq_some hr
    simp only [decodeMeasure, hp, State_loadByte_work, State_loadByte_env, hav, List.length_cons]
    omega
  | readEnd hp hc hr | readFail hp hc hr => simp only [decodeMeasure, hp, State_goto_work]; omega
  | walkOff hp hc hn => simp only [decodeMeasure, hp, State_goto_work]; omega
  | walkInner hp hc hn hl | walkLeaf hp hc hn hl =>
    simp only [decodeMeasure, hp, State_goto_work, State_goto_env, State_setCur_work, State_setCur_env, State_shiftBit_work,
      State_shiftBit_env]
    omega
  | symTaken hp hw | symFailed hp hw =>
    obtain ⟨p, -, rfl⟩ := State_writeCout_eq_some hw
    simp [decodeMeasure, hp]
  | endTaken hp hw | endFailed hp hw | aborted hp hw => simp [decodeMeasure, hp]

theorem decodeMeasure_lt_fuel (s : State) : decodeMeasure s < decodeFuel s := by
  unfold decodeMeasure decodeFuel
  split <;> omega

/-! ### What a step does to the ports -/

/-- At most one token moves, on one port (R73, R74, R235). -/
inductive PortMove (e : Env) : Env → Prop
  | none : PortMove e e
  | cin {x : SrcTok Symbol} {ts : List (SrcTok Symbol)} (h : e.cin.avail = x :: ts) :
      PortMove e { e with cin := { e.cin with avail := ts } }
  | bin {x : SrcTok ByteTok} {ts : List (SrcTok ByteTok)} (h : e.bin.avail = x :: ts) :
      PortMove e { e with bin := { e.bin with avail := ts } }
  | bout {x : Taken ByteTok} {p : SinkPort ByteTok} (h : p.got = recordTaken x e.bout.got)
      (ht : p.thereafter = e.bout.thereafter) : PortMove e { e with bout := p }
  | cout {x : Taken Symbol} {p : SinkPort Symbol} (h : p.got = recordTaken x e.cout.got)
      (ht : p.thereafter = e.cout.thereafter) : PortMove e { e with cout := p }

theorem PortMove.ports {e e' : Env} (h : PortMove e e') :
    (e'.cin = e.cin ∨ ∃ x, e.cin.avail = x :: e'.cin.avail) ∧ (e'.bin = e.bin ∨ ∃ x, e.bin.avail = x :: e'.bin.avail) ∧
      (e'.bout = e.bout ∨ ∃ x, e'.bout.got = recordTaken x e.bout.got) ∧
      (e'.cout = e.cout ∨ ∃ x, e'.cout.got = recordTaken x e.cout.got) := by
  cases h with
  | none => exact ⟨.inl rfl, .inl rfl, .inl rfl, .inl rfl⟩
  | cin h => exact ⟨.inr ⟨_, h⟩, .inl rfl, .inl rfl, .inl rfl⟩
  | bin h => exact ⟨.inl rfl, .inr ⟨_, h⟩, .inl rfl, .inl rfl⟩
  | bout h _ => exact ⟨.inl rfl, .inl rfl, .inr ⟨_, h⟩, .inl rfl⟩
  | cout h _ => exact ⟨.inl rfl, .inl rfl, .inl rfl, .inr ⟨_, h⟩⟩

/-- What a sink answers by default is the environment's to say. -/
theorem PortMove.thereafter {e e' : Env} (h : PortMove e e') :
    e'.bout.thereafter = e.bout.thereafter ∧ e'.cout.thereafter = e.cout.thereafter := by
  cases h with
  | none | cin | bin => exact ⟨rfl, rfl⟩
  | bout _ ht => exact ⟨ht, rfl⟩
  | cout _ ht => exact ⟨rfl, ht⟩

/-- What a step that goes on leaves of the flags and the ports. -/
def OneTokenMove (s u : State) : Prop := u.status = s.status ∧ PortMove s.env u.env

theorem oneTokenMove_of_readCin {t : SrcTok Symbol} (h : s.readCin = some (t, u)) : OneTokenMove s u := by
  obtain ⟨ts, hav, rfl⟩ := State_readCin_eq_some h
  exact ⟨rfl, .cin hav⟩

theorem oneTokenMove_of_readBin {t : SrcTok ByteTok} (h : s.readBin = some (t, u)) : OneTokenMove s u := by
  obtain ⟨ts, hav, rfl⟩ := State_readBin_eq_some h
  exact ⟨rfl, .bin hav⟩

theorem oneTokenMove_of_writeBout {t : SinkTok ByteTok} {a : Answer} (h : s.writeBout t = some (a, u)) : OneTokenMove s u := by
  obtain ⟨p, hp, rfl⟩ := State_writeBout_eq_some h
  obtain ⟨hgot, ht, -⟩ := SinkPort_write_eq_some hp
  exact ⟨rfl, .bout hgot ht⟩

theorem oneTokenMove_of_writeCout {t : SinkTok Symbol} {a : Answer} (h : s.writeCout t = some (a, u)) : OneTokenMove s u := by
  obtain ⟨p, hp, rfl⟩ := State_writeCout_eq_some h
  obtain ⟨hgot, ht, -⟩ := SinkPort_write_eq_some hp
  exact ⟨rfl, .cout hgot ht⟩

theorem CountMove.oneTokenMove (h : CountMove s u) : OneTokenMove s u := by
  cases h with
  | start => exact ⟨rfl, .none⟩
  | symbol _ hr | overflow _ hr | readEnd _ hr | readFail _ hr => exact (oneTokenMove_of_readCin hr :)

theorem EncodeMove.oneTokenMove (h : EncodeMove s u) : OneTokenMove s u := by
  cases h with
  | start | push => exact ⟨rfl, .none⟩
  | read _ _ hr => exact (oneTokenMove_of_readCin hr :)
  | byteTaken _ hw | byteFailed _ hw | endTaken _ _ hw | endFailed _ _ hw | aborted _ hw => exact (oneTokenMove_of_writeBout hw :)

theorem DecodeMove.oneTokenMove (h : DecodeMove s u) : OneTokenMove s u := by
  cases h with
  | startAbsent | start | walkOff | walkInner | walkLeaf => exact ⟨rfl, .none⟩
  | readByte _ _ hr | readEnd _ _ hr | readFail _ _ hr => exact (oneTokenMove_of_readBin hr :)
  | symTaken _ hw | symFailed _ hw | endTaken _ hw | endFailed _ hw | aborted _ hw => exact (oneTokenMove_of_writeCout hw :)

/-! ### Streaming commands -/

/-- The command `i` is run by the steps `f`: what the rest of the development needs of COUNT, ENCODE and DECODE alike. -/
structure Streaming (i : Instr) (f : State → Micro) : Prop where
  step : ∀ s, coreStep i s = .next ((f s).after s)
  run : ∀ s, ∃ n, exec i s = .next (runMicro f (n + 1) s)
  on : ∀ {s u}, f s = .more u → exec i s = exec i u
  ports : ∀ {s u}, f s = .more u → OneTokenMove s u
  ended : ∀ {s u}, f s = .done u → u.status.busy = false ∧ u.env = s.env.closed

theorem PlainEnd.ended (h : PlainEnd s u) : u.status.busy = false ∧ u.env = s.env.closed := by cases h <;> exact ⟨rfl, rfl⟩

theorem DecodeEnd.ended (h : DecodeEnd s u) : u.status.busy = false ∧ u.env = s.env.closed := by cases h <;> exact ⟨rfl, rfl⟩

theorem streaming_count : Streaming .count countStep where
  step _ := rfl
  run _ := ⟨_, rfl⟩
  on h := congrArg Host.Outcome.next <|
    runMicro_of_more (fun _ _ h => (countStep_eq_more.1 h).measure) countMeasure_lt_fuel h
  ports h := (countStep_eq_more.1 h).oneTokenMove
  ended {s _} h := (Micro_done_of_goes (countStep_moves s) h).ended

theorem streaming_encode : Streaming .encode encodeStep where
  step _ := rfl
  run _ := ⟨_, rfl⟩
  on h := congrArg Host.Outcome.next <|
    runMicro_of_more (fun _ _ h => (encodeStep_eq_more.1 h).measure) encodeMeasure_lt_fuel h
  ports h := (encodeStep_eq_more.1 h).oneTokenMove
  ended {s _} h := (Micro_done_of_goes (encodeStep_moves s) h).ended

theorem streaming_decode : Streaming .decode decodeStep where
  step _ := rfl
  run _ := ⟨_, rfl⟩
  on h := congrArg Host.Outcome.next <|
    runMicro_of_more (fun _ _ h => (decodeStep_eq_more.1 h).measure) decodeMeasure_lt_fuel h
  ports h := (decodeStep_eq_more.1 h).oneTokenMove
  ended {s _} h := (Micro_done_of_goes (decodeStep_moves s) h).ended

/-- A port that holds the command leaves everything as it is (R73). -/
theorem Streaming.exec_of_hold (hi : Streaming i f) (h : f s = .hold) : exec i s = .next s := by
  obtain ⟨n, hn⟩ := hi.run s
  rw [hn, runMicro_hold h]

theorem Streaming.exec_of_done (hi : Streaming i f) (h : f s = .done u) : exec i s = .next u := by
  obtain ⟨n, hn⟩ := hi.run s
  rw [hn, runMicro_done h]

/-- What one core step and the run of the whole command have to do with each other (R223, R235). -/
def StepAddsUp (i : Instr) (s t : State) : Prop :=
  (t.status.busy = true → exec i t = exec i s ∧ PortMove s.env t.env) ∧
    (t.status.busy = false → exec i s = .next t ∧ t.env = s.env.closed)

theorem Streaming.stepAddsUp (hi : Streaming i f) (hs : s.status.busy = true) : StepAddsUp i s ((f s).after s) := by
  cases h : f s with
  | more u =>
    obtain ⟨hst, hport⟩ := hi.ports h
    have hbusy : u.status.busy = true := by rw [hst, hs]
    exact ⟨fun _ => ⟨(hi.on h).symm, hport⟩, fun hu => absurd (hbusy.symm.trans hu) nofun⟩
  | hold => exact ⟨fun _ => ⟨rfl, .none⟩, fun hu => absurd (hs.symm.trans hu) nofun⟩
  | done u =>
    obtain ⟨hidle, henv⟩ := hi.ended h
    exact ⟨fun hu => absurd (hidle.symm.trans hu) nofun, fun _ => ⟨hi.exec_of_done h, henv⟩⟩

/-- A command without a port ends in its only step. -/
theorem stepAddsUp_of_ends {t : State} (h : exec i s = .next t) (ht : t.status.busy = false ∧ t.env = s.env.closed) :
    StepAddsUp i s t := ⟨fun hb => absurd (hb.symm.trans ht.1) nofun, fun _ => ⟨h, ht.2⟩⟩

theorem execBuild_ends {t : State} (h : execBuild s = .next t) : t.status.busy = false ∧ t.env = s.env.closed := by
  rcases execBuild_cases s with ⟨sym, -, he⟩ | ⟨-, -, he⟩ | ⟨-, -, he⟩ <;> cases he.symm.trans h <;> exact ⟨rfl, rfl⟩

theorem execDerive_ends {t : State} (h : execDerive s = .next t) : t.status.busy = false ∧ t.env = s.env.closed := by
  rcases execDerive_cases s with ⟨c, -, he⟩ | ⟨-, he⟩ <;> cases he.symm.trans h <;> exact ⟨rfl, rfl⟩

theorem coreStep_addsUp {t : State} (hs : s.status.busy = true) (h : coreStep i s = .next t) : StepAddsUp i s t := by
  cases i with
  | nop | clear => cases h; exact stepAddsUp_of_ends rfl ⟨rfl, rfl⟩
  | build => exact stepAddsUp_of_ends h (execBuild_ends h)
  | derive => exact stepAddsUp_of_ends h (execDerive_ends h)
  | count => cases h; exact streaming_count.stepAddsUp hs
  | encode => cases h; exact streaming_encode.stepAddsUp hs
  | decode => cases h; exact streaming_decode.stepAddsUp hs

end Sys2Proof.Machine

open Sys2Proof Sys2Proof.Machine

/-- Settles O60: the steps of a streaming command add up since enough of them are taken, and the other commands have one step. -/
theorem coreStepsAddUpToTheRun : Obligations.CoreStepsAddUpToTheRun := by
  intro i s t hs hstep
  obtain ⟨hon, hend⟩ := coreStep_addsUp hs hstep
  refine ⟨fun hb => ?_, hend⟩
  obtain ⟨hexec, hport⟩ := hon hb
  exact ⟨hexec, hport.ports⟩

namespace Sys2Proof.Machine

variable {s : State}

theorem State_writeBout_none (ha : s.env.bout.answers = []) (ht : s.env.bout.thereafter = none) (t : SinkTok ByteTok) :
    s.writeBout t = none := by simp [State.writeBout, SinkPort.write, ha, ht]

theorem State_writeCout_none (ha : s.env.cout.answers = []) (ht : s.env.cout.thereafter = none) (t : SinkTok Symbol) :
    s.writeCout t = none := by simp [State.writeCout, SinkPort.write, ha, ht]

theorem writeBitBuf_hold (ha : s.env.bout.answers = []) (ht : s.env.bout.thereafter = none) : writeBitBuf s = .hold := by
  rw [writeBitBuf, State_writeBout_none ha ht]; rfl

theorem encodeWriteEnd_hold (ha : s.env.bout.answers = []) (ht : s.env.bout.thereafter = none) : encodeWriteEnd s = .hold := by
  unfold encodeWriteEnd
  split
  · rw [State_writeBout_none ha ht]; rfl
  · exact writeBitBuf_hold ha ht

end Sys2Proof.Machine

/-- Settles O36: at each of these places the step needs a token or an answer that is not there. -/
theorem waitingChangesNothing : Obligations.WaitingChangesNothing := by
  intro s
  refine ⟨fun n hp hc => streaming_count.exec_of_hold ?_, fun hp h8 hc => streaming_encode.exec_of_hold ?_,
    fun hp h0 hb => streaming_decode.exec_of_hold ?_,
    fun ha ht => ⟨fun bits hp h8 => streaming_encode.exec_of_hold ?_, fun hp => streaming_encode.exec_of_hold ?_,
      fun code info hp => streaming_encode.exec_of_hold ?_⟩,
    fun ha ht => ⟨fun hp => streaming_decode.exec_of_hold ?_, fun trunc hp => streaming_decode.exec_of_hold ?_,
      fun code info hp => streaming_decode.exec_of_hold ?_⟩⟩
  · simp only [countStep, hp, countLoop, State_readCin_nil hc]
  · simp only [encodeStep, hp, encodeLoop, if_neg h8, State_readCin_nil hc]
  · simp only [decodeStep, hp, decodeLoop, if_pos h0, State_readBin_nil hb]
  · rw [encodeStep_of_byteDue (.inl ⟨bits, hp, h8⟩), writeBitBuf_hold ha ht]
  · simp only [encodeStep, hp, encodeWriteEnd_hold ha ht]
  · simp only [encodeStep, hp, State_writeBout_none ha ht, abortTaken]
  · simp only [decodeStep, hp, decodeWrite, State_writeCout_none ha ht, sinkWritten]
  · simp only [decodeStep, hp, decodeWriteEnd, State_writeCout_none ha ht, sinkWritten]
  · simp only [decodeStep, hp, State_writeCout_none ha ht, abortTaken]

end

section
/-! PROOFS. What a command that waits does when the environment goes on is what it would have done had the environment moved
before it (R70, R73, R74). -/

namespace Sys2Proof.Machine

open Sys2Proof

variable {i : Instr} {f : State → Micro} {s u : State} {G : Env → Env}

/-- The machine in another environment. -/
def State.mapEnv (s : State) (G : Env → Env) : State := { s with env := G s.env }

/-- The environment in which further tokens are available on `CIN`. -/
def Env.moreCin (ts : List (SrcTok Symbol)) (e : Env) : Env := { e with cin := { e.cin with avail := e.cin.avail ++ ts } }

/-- The environment in which further tokens are available on `BIN`. -/
def Env.moreBin (ts : List (SrcTok ByteTok)) (e : Env) : Env := { e with bin := { e.bin with avail := e.bin.avail ++ ts } }

/-- The sink whose next answers are followed by `as`, and then by `a`. -/
def SinkPort.answerMore {α : Type} (as : List Answer) (a : Option Answer) (p : SinkPort α) : SinkPort α :=
  p.answer (p.answers ++ as) a

/-- The environment in which further answers of `BOUT` are settled. -/
def Env.answerMoreBout (as : List Answer) (a : Option Answer) (e : Env) : Env := { e with bout := e.bout.answerMore as a }

/-- The environment in which further answers of `COUT` are settled. -/
def Env.answerMoreCout (as : List Answer) (a : Option Answer) (e : Env) : Env := { e with cout := e.cout.answerMore as a }

/-! ### A step in another environment -/

/-- What is read from `CIN` now is read in the other environment too. -/
def ReadsCinIn (G : Env → Env) (s : State) : Prop :=
  ∀ {t : SrcTok Symbol} {u : State}, s.readCin = some (t, u) → (s.mapEnv G).readCin = some (t, u.mapEnv G)

/-- What is read from `BIN` now is read in the other environment too. -/
def ReadsBinIn (G : Env → Env) (s : State) : Prop :=
  ∀ {t : SrcTok ByteTok} {u : State}, s.readBin = some (t, u) → (s.mapEnv G).readBin = some (t, u.mapEnv G)

/-- What `BOUT` answers now it answers in the other environment too. -/
def WritesBoutIn (G : Env → Env) (s : State) : Prop :=
  ∀ {t : SinkTok ByteTok} {a : Answer} {u : State}, s.writeBout t = some (a, u) →
    (s.mapEnv G).writeBout t = some (a, u.mapEnv G)

/-- What `COUT` answers now it answers in the other environment too. -/
def WritesCoutIn (G : Env → Env) (s : State) : Prop :=
  ∀ {t : SinkTok Symbol} {a : Answer} {u : State}, s.writeCout t = some (a, u) →
    (s.mapEnv G).writeCout t = some (a, u.mapEnv G)

theorem CountMove.mapEnv (h : CountMove s u) (hr : ReadsCinIn G s) : CountMove (s.mapEnv G) (u.mapEnv G) := by
  cases h with
  | start hp => exact .start (s := s.mapEnv G) hp
  | symbol hp h hn => exact .symbol (s := s.mapEnv G) hp (hr h) hn
  | overflow hp h => exact .overflow (s := s.mapEnv G) hp (hr h)
  | readEnd hp h => exact .readEnd (s := s.mapEnv G) hp (hr h)
  | readFail hp h => exact .readFail (s := s.mapEnv G) hp (hr h)

theorem EncodeMove.mapEnv (h : EncodeMove s u) (hr : ReadsCinIn G s) (hw : WritesBoutIn G s) :
    EncodeMove (s.mapEnv G) (u.mapEnv G) := by
  cases h with
  | start hp => exact .start (s := s.mapEnv G) hp
  | push hp hc => exact .push (s := s.mapEnv G) hp hc
  | read hp hc h => exact .read (s := s.mapEnv G) hp hc (hr h)
  | byteTaken hd h => exact .byteTaken (s := s.mapEnv G) hd (hw h)
  | byteFailed hd h => exact .byteFailed (s := s.mapEnv G) hd (hw h)
  | endTaken hp hc h => exact .endTaken (s := s.mapEnv G) hp hc (hw h)
  | endFailed hp hc h => exact .endFailed (s := s.mapEnv G) hp hc (hw h)
  | aborted hp h => exact .aborted (s := s.mapEnv G) hp (hw h)

theorem DecodeMove.mapEnv (h : DecodeMove s u) (hr : ReadsBinIn G s) (hw : WritesCoutIn G s) :
    DecodeMove (s.mapEnv G) (u.mapEnv G) := by
  cases h with
  | startAbsent hp hroot => exact .startAbsent (s := s.mapEnv G) hp hroot
  | start hp hroot => exact .start (s := s.mapEnv G) hp hroot
  | readByte hp hc h => exact .readByte (s := s.mapEnv G) hp hc (hr h)
  | readEnd hp hc h => exact .readEnd (s := s.mapEnv G) hp hc (hr h)
  | readFail hp hc h => exact .readFail (s := s.mapEnv G) hp hc (hr h)
  | walkOff hp hc hn => exact .walkOff (s := s.mapEnv G) hp hc hn
  | walkInner hp hc hn hl => exact .walkInner (s := s.mapEnv G) hp hc hn hl
  | walkLeaf hp hc hn hl => exact .walkLeaf (s := s.mapEnv G) hp hc hn hl
  | symTaken hp h => exact .symTaken (s := s.mapEnv G) hp (hw h)
  | symFailed hp h => exact .symFailed (s := s.mapEnv G) hp (hw h)
  | endTaken hp h => exact .endTaken (s := s.mapEnv G) hp (hw h)
  | endFailed hp h => exact .endFailed (s := s.mapEnv G) hp (hw h)
  | aborted hp h => exact .aborted (s := s.mapEnv G) hp (hw h)

/-! ### The four ways the environment goes on -/

theorem State_writeBout_of_write {t : SinkTok ByteTok} {a : Answer} {p : SinkPort ByteTok} (h : s.env.bout.write t = some (a, p)) :
    s.writeBout t = some (a, s.withBout p) := by simp [State.writeBout, h, State.withBout]

theorem State_writeCout_of_write {t : SinkTok Symbol} {a : Answer} {p : SinkPort Symbol} (h : s.env.cout.write t = some (a, p)) :
    s.writeCout t = some (a, s.withCout p) := by simp [State.writeCout, h, State.withCout]

/-- The answers a sink gives are those that are settled first (R74). -/
theorem SinkPort_write_answerMore {α : Type} {p p' : SinkPort α} {t : SinkTok α} {x : Answer} (ht : p.thereafter = none)
    (h : p.write t = some (x, p')) (as : List Answer) (a : Option Answer) :
    (p.answerMore as a).write t = some (x, p'.answerMore as a) := by
  obtain ⟨hgot, -, hans | ⟨-, -, hx⟩⟩ := SinkPort_write_eq_some h
  · simp [SinkPort.answerMore, SinkPort.write, SinkPort.answer, hans, hgot]
  · exact absurd (ht.symm.trans hx) nofun

theorem readsCinIn_moreCin (ts : List (SrcTok Symbol)) (s : State) : ReadsCinIn (Env.moreCin ts) s := by
  intro t u h
  obtain ⟨rest, hav, rfl⟩ := State_readCin_eq_some h
  exact State_readCin_cons (ts := rest ++ ts) (by simp [State.mapEnv, Env.moreCin, hav])

theorem readsBinIn_moreBin (ts : List (SrcTok ByteTok)) (s : State) : ReadsBinIn (Env.moreBin ts) s := by
  intro t u h
  obtain ⟨rest, hav, rfl⟩ := State_readBin_eq_some h
  exact State_readBin_cons (ts := rest ++ ts) (by simp [State.mapEnv, Env.moreBin, hav])

theorem writesBoutIn_moreCin (ts : List (SrcTok Symbol)) (s : State) : WritesBoutIn (Env.moreCin ts) s := by
  intro t a u h
  obtain ⟨p, hp, rfl⟩ := State_writeBout_eq_some h
  exact State_writeBout_of_write (s := s.mapEnv (Env.moreCin ts)) hp

theorem writesCoutIn_moreBin (ts : List (SrcTok ByteTok)) (s : State) : WritesCoutIn (Env.moreBin ts) s := by
  intro t a u h
  obtain ⟨p, hp, rfl⟩ := State_writeCout_eq_some h
  exact State_writeCout_of_write (s := s.mapEnv (Env.moreBin ts)) hp

theorem readsCinIn_answerMoreBout (as : List Answer) (a : Option Answer) (s : State) :
    ReadsCinIn (Env.answerMoreBout as a) s := by
  intro t u h
  obtain ⟨rest, hav, rfl⟩ := State_readCin_eq_some h
  exact State_readCin_cons (s := s.mapEnv (Env.answerMoreBout as a)) hav

theorem readsBinIn_answerMoreCout (as : List Answer) (a : Option Answer) (s : State) :
    ReadsBinIn (Env.answerMoreCout as a) s := by
  intro t u h
  obtain ⟨rest, hav, rfl⟩ := State_readBin_eq_some h
  exact State_readBin_cons (s := s.mapEnv (Env.answerMoreCout as a)) hav

theorem writesBoutIn_answerMoreBout (as : List Answer) (a : Option Answer) (ht : s.env.bout.thereafter = none) :
    WritesBoutIn (Env.answerMoreBout as a) s := by
  intro t x u h
  obtain ⟨p, hp, rfl⟩ := State_writeBout_eq_some h
  exact State_writeBout_of_write (s := s.mapEnv (Env.answerMoreBout as a)) (SinkPort_write_answerMore ht hp as a)

theorem writesCoutIn_answerMoreCout (as : List Answer) (a : Option Answer) (ht : s.env.cout.thereafter = none) :
    WritesCoutIn (Env.answerMoreCout as a) s := by
  intro t x u h
  obtain ⟨p, hp, rfl⟩ := State_writeCout_eq_some h
  exact State_writeCout_of_write (s := s.mapEnv (Env.answerMoreCout as a)) (SinkPort_write_answerMore ht hp as a)

/-! ### A whole run -/

/-- When every step is the same in the other environment, so is the run: a command that has not ended can be given the other
environment where it stands, or before it moves. -/
theorem Streaming.runMicro_mapEnv (hi : Streaming i f) {P : State → Prop} (hP : ∀ s u, f s = .more u → P s → P u)
    (hG : ∀ s u, f s = .more u → P s → f (s.mapEnv G) = .more (u.mapEnv G)) :
    ∀ (n : Nat) (s : State), P s → (runMicro f n s).status.busy = true →
      exec i ((runMicro f n s).mapEnv G) = exec i (s.mapEnv G)
  | 0, _, _, _ => rfl
  | n + 1, s, hs, hb => by
    cases h : f s with
    | more u =>
      rw [runMicro_more h] at hb ⊢
      rw [hi.on (hG s u h hs)]
      exact hi.runMicro_mapEnv hP hG n u (hP s u h hs) hb
    | hold => rw [runMicro_hold h]
    | done u =>
      rw [runMicro_done h] at hb
      exact absurd (hb.symm.trans (hi.ended h).1) nofun

theorem Streaming.exec_mapEnv (hi : Streaming i f) {P : State → Prop} (hP : ∀ s u, f s = .more u → P s → P u)
    (hG : ∀ s u, f s = .more u → P s → f (s.mapEnv G) = .more (u.mapEnv G)) {t : State} (hs : P s)
    (h : exec i s = .next t) (ht : t.status.busy = true) : exec i (t.mapEnv G) = exec i (s.mapEnv G) := by
  obtain ⟨n, hn⟩ := hi.run s
  cases hn.symm.trans h
  exact hi.runMicro_mapEnv hP hG (n + 1) s hs ht

end Sys2Proof.Machine

open Sys2Proof Sys2Proof.Machine

/-- Settles O37: what a port answers now it answers in the later environment too, so the steps up to the wait are the same. -/
theorem tokensInPiecesMakeNoDifference : Obligations.TokensInPiecesMakeNoDifference := by
  intro s t ht
  refine ⟨fun i ts hi h => ?_, fun ts h => ?_, fun as a hs h => ?_, fun as a hs h => ?_⟩
  · rcases hi with rfl | rfl
    · exact streaming_count.exec_mapEnv (G := Env.moreCin ts) (P := fun _ => True) (fun _ _ _ _ => trivial)
        (fun s u h _ => ((countStep_eq_more.1 h).mapEnv (readsCinIn_moreCin ts s)).step) trivial h ht
    · exact streaming_encode.exec_mapEnv (G := Env.moreCin ts) (P := fun _ => True) (fun _ _ _ _ => trivial)
        (fun s u h _ => ((encodeStep_eq_more.1 h).mapEnv (readsCinIn_moreCin ts s) (writesBoutIn_moreCin ts s)).step)
        trivial h ht
  · exact streaming_decode.exec_mapEnv (G := Env.moreBin ts) (P := fun _ => True) (fun _ _ _ _ => trivial)
      (fun s u h _ => ((decodeStep_eq_more.1 h).mapEnv (readsBinIn_moreBin ts s) (writesCoutIn_moreBin ts s)).step)
      trivial h ht
  · exact streaming_encode.exec_mapEnv (G := Env.answerMoreBout as a) (P := fun s => s.env.bout.thereafter = none)
      (fun s u h hs => (streaming_encode.ports h).2.thereafter.1.trans hs)
      (fun s u h hs => ((encodeStep_eq_more.1 h).mapEnv (readsCinIn_answerMoreBout as a s)
        (writesBoutIn_answerMoreBout as a hs)).step) hs h ht
  · exact streaming_decode.exec_mapEnv (G := Env.answerMoreCout as a) (P := fun s => s.env.cout.thereafter = none)
      (fun s u h hs => (streaming_decode.ports h).2.thereafter.2.trans hs)
      (fun s u h hs => ((decodeStep_eq_more.1 h).mapEnv (readsBinIn_answerMoreCout as a s)
        (writesCoutIn_answerMoreCout as a hs)).step) hs h ht

end

section
/-! PROOFS. Runs of a streaming command with everything that can fall between its steps, and what its sink takes in such a run
(R72, R75, R256, R262). -/

namespace Sys2Proof.Machine

open Sys2Proof

variable {i : Instr} {f : State → Micro} {s t u : State}

/-! ### Invariants of a run -/

/-- While a command runs, a host operation reaches neither its place nor the ports (R221, R228). -/
theorem hostOp_of_busy (hb : s.status.busy = true) (op : HostOp) :
    (s.hostOp op).status.busy = true ∧ (s.hostOp op).work = s.work ∧ (s.hostOp op).env = s.env := by
  have hrej : s.reject.status.busy = true ∧ s.reject.work = s.work ∧ s.reject.env = s.env := ⟨hb, rfl, rfl⟩
  cases op with
  | read off => exact ⟨hb, rfl, rfl⟩
  | write off v =>
    rw [State.hostOp]
    cases regAt off with
    | cmd => rwa [State.writeReg, State.presentCommand, hb, Bool.true_or, if_pos rfl]
    | freqData => rwa [State.writeReg, State.writeFreqData, if_pos hb]
    | _ => exact ⟨hb, rfl, rfl⟩

/-- The command runs, and `P` holds. -/
def Running (P : State → Prop) (u : State) : Prop := u.status.busy = true ∧ P u

/-- The command runs and `P` holds, or it has ended and `Q` holds. -/
def RunningOrEnded (P Q : State → Prop) (u : State) : Prop := Running P u ∨ (u.status.busy = false ∧ Q u)

theorem RunningOrEnded.running {P Q : State → Prop} (h : RunningOrEnded P Q u) (hb : u.status.busy = true) : Running P u :=
  h.resolve_right fun ⟨hidle, _⟩ => absurd (hb.symm.trans hidle) nofun

theorem RunningOrEnded.ended {P Q : State → Prop} (h : RunningOrEnded P Q u) (hb : u.status.busy = false) : Q u :=
  (h.resolve_left fun ⟨hbusy, _⟩ => absurd (hbusy.symm.trans hb) nofun).2

theorem Streaming.goes_running (hi : Streaming i f) {P Q : State → Prop} (hstep : ∀ u, P u → (f u).Goes P Q)
    (hu : Running P u) : (f u).Goes (Running P) (RunningOrEnded P Q) := by
  obtain ⟨hb, hP⟩ := hu
  have hf := hstep u hP
  cases hm : f u with
  | more v => rw [hm] at hf; exact ⟨by rw [(hi.ports hm).1, hb], hf⟩
  | hold => trivial
  | done v => rw [hm] at hf; exact .inr ⟨(hi.ended hm).1, hf⟩

/-- What holds of a command that was accepted and is kept by its steps, by the environment and by the host, holds while it runs; and
then what its last step makes of it (R235). -/
theorem Streaming.runOf (hi : Streaming i f) {P Q : State → Prop} (haccepted : P (s.accepted i))
    (hstep : ∀ u, P u → (f u).Goes P Q) (henv : ∀ u op, P u → P (u.envOp op))
    (hhost : ∀ u op, u.status.busy = true → P u → P (u.hostOp op)) (h : RunOf i s t) : RunningOrEnded P Q t := by
  have hgoes : ∀ u, Running P u → (f u).Goes (Running P) (RunningOrEnded P Q) := fun _ => hi.goes_running hstep
  induction h with
  | accepted => exact .inl ⟨rfl, haccepted⟩
  | step _ hb hu ih =>
    rw [hi.step] at hu
    cases hu
    exact Micro_after_of_goes (fun _ => .inl) (hgoes _ (ih.running hb)) (ih.running hb)
  | @core t _ _ hb hu ih =>
    obtain ⟨n, hn⟩ := hi.run t
    cases hn.symm.trans hu
    exact runMicro_of_goes (fun _ => .inl) hgoes _ _ (ih.running hb)
  | env _ hb op ih =>
    refine .inl ⟨?_, henv _ op (ih.running hb).2⟩
    cases op <;> exact hb
  | host _ hb op ih => exact .inl ⟨(hostOp_of_busy hb op).1, hhost _ op hb (ih.running hb).2⟩

/-! ### The stream on a sink -/

variable {α : Type} {g0 g : List (List (Taken α))}

/-- The latest stream on a sink holds data tokens only, all answered `ok`; `g0` are the streams before it. -/
def OpenInstance (g0 g : List (List (Taken α))) : Prop := ∃ ds : List α, g = takenOk (ds.map .data) :: g0

/-- The latest stream on a sink ends with a token of which `R` holds, after data tokens answered `ok`. -/
def EndedInstance (R : Taken α → Prop) (g0 g : List (List (Taken α))) : Prop :=
  ∃ (ds : List α) (x : Taken α), g = (takenOk (ds.map .data) ++ [x]) :: g0 ∧ R x

/-- The last token on a sink whose command completes (R75). -/
def EndToken (x : Taken α) : Prop := x = ⟨.endTok, .ok⟩

/-- The last token on a sink whose command faults: `abort`, or the write that the sink `id` answered with `fail` (R256, R262). -/
def FaultToken (id : Word) (code : FaultCode) (info : Word) (x : Taken α) : Prop :=
  x.tok = .abortTok ∨ (x.tok ≠ .abortTok ∧ x.ans = .fail ∧ code = .stream ∧ info = id)

theorem OpenInstance.data (h : OpenInstance g0 g) (d : α) : OpenInstance g0 (recordTaken ⟨.data d, .ok⟩ g) := by
  obtain ⟨ds, rfl⟩ := h
  exact ⟨ds ++ [d], by simp [recordTaken, takenOk]⟩

theorem OpenInstance.last (h : OpenInstance g0 g) {R : Taken α → Prop} {x : Taken α} (hx : R x) :
    EndedInstance R g0 (recordTaken x g) := by
  obtain ⟨ds, rfl⟩ := h
  exact ⟨ds, x, rfl, hx⟩

theorem OpenInstance.failed (h : OpenInstance g0 g) {t : SinkTok α} (ht : t ≠ .abortTok) (id : Word) :
    EndedInstance (FaultToken id .stream id) g0 (recordTaken ⟨t, .fail⟩ g) := h.last (.inr ⟨ht, rfl, rfl, rfl⟩)

/-- The last token on a sink as the ended command shows it. -/
def LastToken (id : Word) (t : State) (x : Taken α) : Prop :=
  (t.status.done = true ∧ x = ⟨.endTok, .ok⟩) ∨ (t.status.err = true ∧ x.tok = .abortTok) ∨
    (t.status.err = true ∧ x.tok ≠ .abortTok ∧ x.ans = .fail ∧ t.regs.errcode = 5#8 ∧ t.regs.errinfo = id)

theorem EndedInstance.imp {R R' : Taken α → Prop} (h : EndedInstance R g0 g) (hR : ∀ x, R x → R' x) :
    EndedInstance R' g0 g := by
  obtain ⟨ds, x, hg, hx⟩ := h
  exact ⟨ds, x, hg, hR x hx⟩

theorem EndedInstance.completed (h : EndedInstance EndToken g0 g) (id : Word) (s : State) :
    EndedInstance (LastToken id s.complete) g0 g := h.imp fun _ hx => .inl ⟨rfl, hx⟩

theorem EndedInstance.faulted {id info : Word} {code : FaultCode} (h : EndedInstance (FaultToken id code info) g0 g) (s : State) :
    EndedInstance (LastToken id (s.takeFault code info)) g0 g := by
  refine h.imp fun x hx => .inr ?_
  rcases hx with ht | ⟨ht, ha, rfl, rfl⟩
  · exact .inl ⟨rfl, ht⟩
  · exact .inr ⟨rfl, ht, ha, rfl, rfl⟩

/-! ### What the sinks hold at each place -/

theorem writeBout_got {t : SinkTok ByteTok} {a : Answer} (h : s.writeBout t = some (a, u)) :
    u.work = s.work ∧ u.env.bout.got = recordTaken ⟨t, a⟩ s.env.bout.got := by
  obtain ⟨p, hp, rfl⟩ := State_writeBout_eq_some h
  exact ⟨rfl, (SinkPort_write_eq_some hp).1⟩

theorem writeCout_got {t : SinkTok Symbol} {a : Answer} (h : s.writeCout t = some (a, u)) :
    u.work = s.work ∧ u.env.cout.got = recordTaken ⟨t, a⟩ s.env.cout.got := by
  obtain ⟨p, hp, rfl⟩ := State_writeCout_eq_some h
  exact ⟨rfl, (SinkPort_write_eq_some hp).1⟩

/-- What `BOUT` has taken when ENCODE stands at a place. -/
def EncodeSink (g0 : List (List (Taken ByteTok))) (p : Phase) (g : List (List (Taken ByteTok))) : Prop :=
  match p with
  | .finish => EndedInstance EndToken g0 g
  | .record code info => EndedInstance (FaultToken portidBout code info) g0 g
  | _ => OpenInstance g0 g

/-- What `COUT` has taken when DECODE stands at a place. -/
def DecodeSink (g0 : List (List (Taken Symbol))) (p : Phase) (g : List (List (Taken Symbol))) : Prop :=
  match p with
  | .decodeFinish _ => EndedInstance EndToken g0 g
  | .record code info => EndedInstance (FaultToken portidCout code info) g0 g
  | _ => OpenInstance g0 g

/-- The environment lets what the sinks have taken, and the place of the command, be. -/
theorem envOp_sinks (s : State) (op : EnvOp) : (s.envOp op).work = s.work ∧ (s.envOp op).env.bout.got = s.env.bout.got ∧
    (s.envOp op).env.cout.got = s.env.cout.got := by cases op <;> exact ⟨rfl, rfl, rfl⟩

theorem encodeSink_of_start {p : Phase} {g0 g : List (List (Taken ByteTok))} (hp : p.isEncode = false) :
    EncodeSink g0 p g = OpenInstance g0 g := by
  cases p <;> simp [Phase.isEncode] at hp <;> rfl

theorem decodeSink_of_start {p : Phase} {g0 g : List (List (Taken Symbol))} (hp : p.isDecode = false) :
    DecodeSink g0 p g = OpenInstance g0 g := by
  cases p <;> simp [Phase.isDecode] at hp <;> rfl

theorem EncodeSink.open_of_byteDue {g0 g : List (List (Taken ByteTok))} (h : EncodeSink g0 s.work.phase g) (hd : s.byteDue) :
    OpenInstance g0 g := by
  rcases hd with ⟨bits, hp, -⟩ | ⟨hp, -⟩ <;> rw [hp] at h <;> exact h

theorem encodeSink_encodeNext {g0 g : List (List (Taken ByteTok))} (h : OpenInstance g0 g) (t : Tables) (x : SrcTok Symbol) :
    EncodeSink g0 (encodeNext t x) g := by
  cases x with
  | endTok | failTok => exact h
  | data c => rw [encodeNext]; split <;> exact h

theorem EncodeMove.sink {g0 : List (List (Taken ByteTok))} (h : EncodeMove s u)
    (hs : EncodeSink g0 s.work.phase s.env.bout.got) : EncodeSink g0 u.work.phase u.env.bout.got := by
  cases h with
  | start hp => rw [encodeSink_of_start hp] at hs; exact hs
  | push hp => rw [hp] at hs; exact hs
  | read hp _ hr =>
    obtain ⟨ts, -, rfl⟩ := State_readCin_eq_some hr
    rw [hp] at hs
    exact encodeSink_encodeNext hs _ _
  | byteTaken hd hw =>
    obtain ⟨hwork, hgot⟩ := writeBout_got hw
    have hopen := (hs.open_of_byteDue hd).data s.bufByte
    rw [← hgot] at hopen
    rw [State_clearBitBuf_work, hwork]
    rcases hd with ⟨bits, hp, -⟩ | ⟨hp, -⟩ <;> rw [hp] <;> exact hopen
  | byteFailed hd hw =>
    rw [State_goto_env, (writeBout_got hw).2]
    exact (hs.open_of_byteDue hd).failed (by nofun) _
  | endTaken hp _ hw =>
    rw [hp] at hs
    rw [State_goto_env, (writeBout_got hw).2]
    exact OpenInstance.last hs rfl
  | endFailed hp _ hw =>
    rw [hp] at hs
    rw [State_goto_env, (writeBout_got hw).2]
    exact OpenInstance.failed hs (by nofun) _
  | aborted hp hw =>
    rw [hp] at hs
    rw [State_goto_env, (writeBout_got hw).2]
    exact OpenInstance.last hs (.inl rfl)

theorem DecodeMove.sink {g0 : List (List (Taken Symbol))} (h : DecodeMove s u)
    (hs : DecodeSink g0 s.work.phase s.env.cout.got) : DecodeSink g0 u.work.phase u.env.cout.got := by
  cases h with
  | startAbsent hp | start hp => rw [decodeSink_of_start hp] at hs; exact hs
  | walkOff hp | walkLeaf hp => rw [hp] at hs; exact hs
  | walkInner hp => rwa [State_setCur_work, State_shiftBit_work]
  | readByte hp _ hr =>
    obtain ⟨ts, -, rfl⟩ := State_readBin_eq_some hr
    exact hs
  | readEnd hp _ hr | readFail hp _ hr =>
    obtain ⟨ts, -, rfl⟩ := State_readBin_eq_some hr
    rw [hp] at hs
    exact hs
  | symTaken hp hw =>
    rw [hp] at hs
    rw [State_goto_env, State_setCur_env, (writeCout_got hw).2]
    exact OpenInstance.data hs _
  | symFailed hp hw | endFailed hp hw =>
    rw [hp] at hs
    rw [State_goto_env, (writeCout_got hw).2]
    exact OpenInstance.failed hs (by nofun) _
  | endTaken hp hw =>
    rw [hp] at hs
    rw [State_goto_env, (writeCout_got hw).2]
    exact OpenInstance.last hs rfl
  | aborted hp hw =>
    rw [hp] at hs
    rw [State_goto_env, (writeCout_got hw).2]
    exact OpenInstance.last hs (.inl rfl)

theorem PlainEnd.sink {g0 : List (List (Taken ByteTok))} (h : PlainEnd s u)
    (hs : EncodeSink g0 s.work.phase s.env.bout.got) : EndedInstance (LastToken portidBout u) g0 u.env.bout.got := by
  cases h with
  | completes hp => rw [hp] at hs; exact EndedInstance.completed hs _ _
  | faults hp => rw [hp] at hs; exact EndedInstance.faulted hs _

theorem DecodeEnd.sink {g0 : List (List (Taken Symbol))} (h : DecodeEnd s u)
    (hs : DecodeSink g0 s.work.phase s.env.cout.got) : EndedInstance (LastToken portidCout u) g0 u.env.cout.got := by
  cases h with
  | completes hp => rw [hp] at hs; exact EndedInstance.completed hs _ _
  | faults hp => rw [hp] at hs; exact EndedInstance.faulted hs _

theorem Micro.Goes.imp {m : Micro} {P P' Q Q' : State → Prop} (h : m.Goes P Q) (hP : ∀ u, P u → P' u) (hQ : ∀ u, Q u → Q' u) :
    m.Goes P' Q' := by
  cases m with
  | more u => exact hP u h
  | hold => trivial
  | done u => exact hQ u h

theorem runOf_encode_sink (h : RunOf .encode s t) (ht : t.status.busy = false) :
    EndedInstance (LastToken portidBout t) s.env.bout.got t.env.bout.got := by
  exact (streaming_encode.runOf (P := fun u => EncodeSink s.env.bout.got u.work.phase u.env.bout.got)
    (Q := fun u => EndedInstance (LastToken portidBout u) s.env.bout.got u.env.bout.got) ⟨[], rfl⟩
    (fun u hu => (encodeStep_moves u).imp (fun _ h => h.sink hu) fun _ h => h.sink hu)
    (fun u op hu => by obtain ⟨hw, hb, -⟩ := envOp_sinks u op; rwa [hw, hb])
    (fun u op hb hu => by obtain ⟨-, hw, he⟩ := hostOp_of_busy hb op; rwa [hw, he]) h).ended ht

theorem runOf_decode_sink (h : RunOf .decode s t) (ht : t.status.busy = false) :
    EndedInstance (LastToken portidCout t) s.env.cout.got t.env.cout.got := by
  exact (streaming_decode.runOf (P := fun u => DecodeSink s.env.cout.got u.work.phase u.env.cout.got)
    (Q := fun u => EndedInstance (LastToken portidCout u) s.env.cout.got u.env.cout.got) ⟨[], rfl⟩
    (fun u hu => (decodeStep_moves u).imp (fun _ h => h.sink hu) fun _ h => h.sink hu)
    (fun u op hu => by obtain ⟨hw, -, hc⟩ := envOp_sinks u op; rwa [hw, hc])
    (fun u op hb hu => by obtain ⟨-, hw, he⟩ := hostOp_of_busy hb op; rwa [hw, he]) h).ended ht

end Sys2Proof.Machine

open Sys2Proof Sys2Proof.Machine

/-- Settles O39: while the command runs its place says what the sink has taken, and only the place before the end has a last token. -/
theorem everySinkInstanceIsTerminated : Obligations.EverySinkInstanceIsTerminated :=
  fun _ _ _ ht => ⟨fun h => runOf_encode_sink h ht, fun h => runOf_decode_sink h ht⟩

end

section
/-! PROOFS. The bit buffer, and ENCODE over the symbols of a stream: where it stands when they are read, whatever follows them
(R180, R181, R184). -/

namespace Sys2Proof.Machine

open Sys2Proof

variable {s u v : State} {g0 : List (List (Taken ByteTok))} {ts : List (SrcTok Symbol)} {bits out w : List Bool}

/-! ### The bit buffer (R44, R184, R204) -/

/-- The buffer holds these bits, the first of them in bit 7. -/
structure BufHolds (w : Work) (bits : List Bool) : Prop where
  count : w.bitcnt = bits.length
  fits : bits.length ≤ 8
  bit : ∀ i (h : i < bits.length), w.bitbuf.getLsbD (7 - i) = bits[i]

theorem bufHolds_nil {w : Work} (h : w.bitcnt = 0) : BufHolds w [] := ⟨h, Nat.zero_le 8, nofun⟩

theorem getLsbD_setBit (v : BitVec 8) {i j : Nat} (b : Bool) (hj : j < 8) :
    (setBit v i b).getLsbD j = if j = i then b else v.getLsbD j := by
  have hone : (1#8 <<< i).getLsbD j = decide (j = i) := by
    rw [BitVec.getLsbD_shiftLeft, BitVec.getLsbD_one, Bool.eq_iff_iff]
    simp only [Bool.and_eq_true, Bool.not_eq_true', decide_eq_true_eq, decide_eq_false_iff_not]
    omega
  cases b with
  | true => rw [setBit, if_pos rfl, BitVec.getLsbD_or, hone]; split <;> simp [*]
  | false =>
    rw [setBit, if_neg Bool.false_ne_true, BitVec.getLsbD_and, BitVec.getLsbD_not, hone, decide_eq_true hj]
    split <;> simp [*]

theorem BufHolds.push (h : BufHolds u.work w) (hw : w.length < 8) (b : Bool) : BufHolds (u.pushBit b).work (w ++ [b]) where
  count := by rw [State_pushBit_work, List.length_append, ← h.count]; rfl
  fits := by rw [List.length_append]; exact hw
  bit i hi := by
    rw [List.length_append, List.length_singleton] at hi
    rw [State_pushBit_work, h.count, getLsbD_setBit _ _ (by omega)]
    split
    · next heq =>
      obtain rfl : i = w.length := by omega
      simp
    · next hne => rw [List.getElem_append_left (by omega), h.bit i (by omega)]

theorem tokenBits_length (t : ByteTok) : (tokenBits t).length = 8 - t.p.toNat := by simp [tokenBits]

theorem bufHolds_loadByte (u : State) (t : ByteTok) : BufHolds (u.loadByte t).work (tokenBits t) where
  count := (tokenBits_length t).symm
  fits := (tokenBits_length t).trans_le (Nat.sub_le _ _)
  bit i hi := by simp [tokenBits]

/-- The byte token of a buffer carries the bits that are in it (R76, R184). -/
theorem BufHolds.tokenBits_bufByte (h : BufHolds u.work w) (hne : w ≠ []) : tokenBits u.bufByte = w := by
  have hpos := List.length_pos_iff.2 hne
  have hfits := h.fits
  have hp : u.bufByte.p.toNat = 8 - w.length := by
    rw [State.bufByte, h.count, BitVec.toNat_ofNat, Nat.mod_eq_of_lt (by omega)]
  have hlen : (tokenBits u.bufByte).length = w.length := by rw [tokenBits_length, hp]; omega
  refine List.ext_getElem hlen fun i _ hi => ?_
  simp only [tokenBits, List.getElem_map, List.getElem_range]
  exact h.bit i hi

theorem BufHolds.topBit {b : Bool} (h : BufHolds u.work (b :: w)) : u.topBit = b := h.bit 0 (Nat.succ_pos _)

theorem BufHolds.shift {b : Bool} (h : BufHolds u.work (b :: w)) : BufHolds u.shiftBit.work w where
  count := by rw [State_shiftBit_work, h.count]; rfl
  fits := (Nat.le_succ _).trans h.fits
  bit i hi := by
    have hfits : w.length + 1 ≤ 8 := h.fits
    have hbit := h.bit (i + 1) (Nat.succ_lt_succ hi)
    have hsub : 7 - i - 1 = 7 - (i + 1) := by omega
    rw [List.getElem_cons_succ] at hbit
    rw [State_shiftBit_work, BitVec.getLsbD_shiftLeft, hsub, hbit, decide_eq_true (by omega : 7 - i < 8),
      decide_eq_false (by omega : ¬ 7 - i < 1)]
    rfl

theorem streamBits_append (bs cs : List ByteTok) : streamBits (bs ++ cs) = streamBits bs ++ streamBits cs := by
  simp [streamBits]

theorem streamBits_length {bs : List ByteTok} (h : ∀ b ∈ bs, b.p = 0#3) : (streamBits bs).length = 8 * bs.length := by
  induction bs with
  | nil => rfl
  | cons b bs ih =>
    have hb : (tokenBits b).length = 8 := by rw [tokenBits_length, h b (by simp)]; rfl
    rw [streamBits, List.flatMap_cons, List.length_append, hb, ← streamBits, ih fun x hx => h x (by simp [hx]),
      List.length_cons]
    omega

/-- Whole bytes and fewer than eight bits more: the whole bytes carry as many bits as go into whole bytes (R190). -/
theorem streamBits_eq_take {bs : List ByteTok} (h : ∀ b ∈ bs, b.p = 0#3) (hw : w.length < 8) (hout : streamBits bs ++ w = out) :
    streamBits bs = out.take (8 * (out.length / 8)) := by
  subst hout
  have hlen := streamBits_length h
  rw [List.length_append, hlen, List.take_left' (by rw [hlen]; omega)]

/-! ### ENCODE in its loop -/

/-- ENCODE, begun in `s`, in its loop: the tokens it has not read, the bits of the present code that are still to be put, and all
bits put so far, in whole bytes at the sink and in the buffer. `g0` are the sink's earlier streams. -/
structure EncodeAt (s : State) (g0 : List (List (Taken ByteTok))) (ts : List (SrcTok Symbol)) (bits out : List Bool) (u : State) :
    Prop where
  kept : Kept .encode s u
  phase : u.work.phase = .encode bits
  avail : u.env.cin.avail = ts
  takes : SinkTakesAll u.env.bout
  put : ∃ (bs : List ByteTok) (w : List Bool), u.env.bout.got = takenOk (bs.map .data) :: g0 ∧ (∀ b ∈ bs, b.p = 0#3) ∧
    BufHolds u.work w ∧ streamBits bs ++ w = out

theorem recordTaken_takenOk {α : Type} (xs : List (SinkTok α)) (t : SinkTok α) (g : List (List (Taken α))) :
    recordTaken ⟨t, .ok⟩ (takenOk xs :: g) = takenOk (xs ++ [t]) :: g := by simp [recordTaken, takenOk]

theorem exec_encode_of_move (h : EncodeMove s u) : exec .encode s = exec .encode u := streaming_encode.on h.step

/-- A full buffer is written before anything else. -/
theorem EncodeAt.flush (h : EncodeAt s g0 ts bits out u) (hc : u.work.bitcnt = 8) :
    ∃ v, EncodeMove u v ∧ EncodeAt s g0 ts bits out v ∧ v.work.bitcnt ≠ 8 := by
  obtain ⟨bs, w, hgot, hbs, hbuf, hout⟩ := h.put
  obtain ⟨p, hp, htakes, hpgot⟩ := SinkPort_write_takesAll h.takes (.data u.bufByte)
  have hlen : w.length = 8 := hbuf.count.symm.trans hc
  have hne : w ≠ [] := by rintro rfl; cases hlen
  refine ⟨(u.withBout p).clearBitBuf, .byteTaken (.inl ⟨bits, h.phase, hc⟩) (State_writeBout_of_write hp),
    ⟨(h.kept.withBout p).clearBitBuf, h.phase, h.avail, htakes, bs ++ [u.bufByte], [], ?_, ?_, bufHolds_nil rfl, ?_⟩, nofun⟩
  · rw [List.map_append, List.map_singleton, ← recordTaken_takenOk, ← hgot]
    exact hpgot
  · simp only [List.forall_mem_append, List.forall_mem_singleton]
    exact ⟨hbs, by rw [State.bufByte, hc]⟩
  · rw [streamBits_append, streamBits, streamBits, List.flatMap_singleton, hbuf.tokenBits_bufByte hne, List.append_nil]
    exact hout

/-- There is room in the buffer, at once or after a byte is written. -/
theorem EncodeAt.ready (h : EncodeAt s g0 ts bits out u) :
    ∃ v, exec .encode u = exec .encode v ∧ EncodeAt s g0 ts bits out v ∧ v.work.bitcnt ≠ 8 := by
  by_cases hc : u.work.bitcnt = 8
  · obtain ⟨v, hmove, hv⟩ := h.flush hc
    exact ⟨v, exec_encode_of_move hmove, hv⟩
  · exact ⟨u, rfl, h, hc⟩

theorem EncodeAt.push {b : Bool} (h : EncodeAt s g0 ts (b :: bits) out u) (hc : u.work.bitcnt ≠ 8) :
    EncodeAt s g0 ts bits (out ++ [b]) ((u.pushBit b).goto (.encode bits)) := by
  obtain ⟨bs, w, hgot, hbs, hbuf, rfl⟩ := h.put
  have hfits := hbuf.fits
  have hcount := hbuf.count
  have hpush : BufHolds ((u.pushBit b).goto (.encode bits)).work (w ++ [b]) := { hbuf.push (by omega) b with }
  exact ⟨(h.kept.pushBit hc b).goto _, rfl, h.avail, h.takes, bs, w ++ [b], hgot, hbs, hpush, (List.append_assoc ..).symm⟩

/-- The bits of the present code are put one after the other. -/
theorem EncodeAt.putAll : ∀ {bits out : List Bool} {u : State}, EncodeAt s g0 ts bits out u →
    ∃ v, exec .encode u = exec .encode v ∧ EncodeAt s g0 ts [] (out ++ bits) v
  | [], out, u, h => ⟨u, rfl, by rwa [List.append_nil]⟩
  | b :: bits, out, u, h => by
    obtain ⟨u1, hexec1, h1, hc⟩ := h.ready
    obtain ⟨v, hexec2, h2⟩ := EncodeAt.putAll (h1.push hc)
    refine ⟨v, (hexec1.trans (exec_encode_of_move (.push h1.phase hc))).trans hexec2, ?_⟩
    rwa [List.append_assoc, List.singleton_append] at h2

theorem TabMove.eq_of_streaming {i : Instr} {t t' : Tables} (h : TabMove i t t') (hc : i ≠ .count) (hb : i ≠ .build)
    (hd : i ≠ .derive) : t' = t := by
  cases h with
  | same => rfl
  | counted => exact absurd rfl hc
  | built => exact absurd rfl hb
  | derived | tooDeep => exact absurd rfl hd

theorem EncodeAt.tab (h : EncodeAt s g0 ts bits out u) : u.tab = s.tab := h.kept.tab.eq_of_streaming nofun nofun nofun

/-- A token that is read takes ENCODE to its place; the buffer has room then. -/
theorem EncodeAt.readToken {t : SrcTok Symbol} (h : EncodeAt s g0 (t :: ts) [] out u) (hc : u.work.bitcnt ≠ 8) :
    EncodeMove u ((u.withCinAvail ts).goto (encodeNext s.tab t)) := by
  rw [← h.tab]
  exact .read h.phase hc (State_readCin_cons h.avail)

theorem EncodeAt.readSymbol {c : Symbol} (h : EncodeAt s g0 (.data c :: ts) [] out u) (hc : u.work.bitcnt ≠ 8)
    (hcode : (s.tab.codeAt c).len ≠ 0) : ∃ v, EncodeMove u v ∧ EncodeAt s g0 ts (s.tab.codeAt c).path out v := by
  have hmove := h.readToken hc
  rw [encodeNext, if_neg hcode] at hmove
  obtain ⟨bs, w, hgot, hbs, hbuf, hout⟩ := h.put
  exact ⟨_, hmove, (h.kept.withCinAvail (.inr rfl) ts).goto _, rfl, rfl, h.takes, bs, w, hgot, hbs, { hbuf with }, hout⟩

/-- ENCODE over symbols that have codes: their codes are put one after the other, and then the next token is wanted (R180, R181). -/
theorem EncodeAt.readAll : ∀ {xs : List Symbol} {out : List Bool} {u : State},
    EncodeAt s g0 (xs.map .data ++ ts) [] out u → (∀ x ∈ xs, (s.tab.codeAt x).len ≠ 0) →
    ∃ v, exec .encode u = exec .encode v ∧ EncodeAt s g0 ts [] (out ++ codesOf s.tab xs) v ∧ v.work.bitcnt ≠ 8
  | [], out, u, h, _ => by simpa [codesOf] using h.ready
  | x :: xs, out, u, h, hcodes => by
    obtain ⟨u1, hexec1, h1, hc⟩ := h.ready
    obtain ⟨u2, hmove, h2⟩ := h1.readSymbol hc (hcodes x (by simp))
    obtain ⟨u3, hexec3, h3⟩ := h2.putAll
    obtain ⟨v, hexec4, hv⟩ := EncodeAt.readAll h3 fun y hy => hcodes y (by simp [hy])
    refine ⟨v, hexec1.trans ((exec_encode_of_move hmove).trans (hexec3.trans hexec4)), ?_⟩
    simpa [codesOf] using hv

/-- The first step of ENCODE leads into its loop. -/
theorem encodeAt_accepted (s : State) (ht : SinkTakesAll s.env.bout) :
    ∃ u, exec .encode (s.accepted .encode) = exec .encode u ∧
      EncodeAt (s.accepted .encode) s.env.bout.got (s.env.cin.upcoming.headD []) [] [] u :=
  ⟨_, exec_encode_of_move (.start rfl), (Kept.refl .encode _).goto _, rfl, rfl, ht, [], [], rfl, nofun, bufHolds_nil rfl, rfl⟩

/-! ### The fault that ends ENCODE -/

/-- The `abort` is taken, the fault recorded (R256). -/
theorem exec_encode_abort {code : FaultCode} {info : Word} (hp : u.work.phase = .abort code info) (ht : SinkTakesAll u.env.bout) :
    ∃ p : SinkPort ByteTok, p.got = recordTaken ⟨.abortTok, .ok⟩ u.env.bout.got ∧ SinkTakesAll p ∧
      exec .encode u = .next (((u.withBout p).goto (.record code info)).takeFault code info) := by
  obtain ⟨p, hw, htakes, hgot⟩ := SinkPort_write_takesAll ht .abortTok
  exact ⟨p, hgot, htakes, (exec_encode_of_move (.aborted hp (State_writeBout_of_write hw))).trans
    (streaming_encode.exec_of_done rfl)⟩

/-- The state after a fault of ENCODE: besides the fault, only the ports it uses have changed. -/
theorem Kept.takeFault_encode (h : Kept .encode (s.accepted .encode) u) (code : FaultCode) (info : Word) :
    u.takeFault code info = { s with
      status := s.status.afterFault
      regs := { s.regs with errcode := code.code, errinfo := info }
      work := { s.work.idle with op := 0x04#8 }
      env := { s.env.closed with cin := ⟨false, [], s.env.cin.upcoming.tail⟩, bout := u.env.bout } } := by
  have hstatus : u.status.faulted = s.status.afterFault := by
    simp [Status.faulted, Status.afterFault, h.rej, h.trunc nofun]
  have hwork : u.work.idle = { s.work.idle with op := 0x04#8 } := by simp [Work.idle, h.op, extractLsb'_encode, encodeOpcode]
  have henv : u.env.closed =
      { s.env.closed with cin := ⟨false, [], s.env.cin.upcoming.tail⟩, bout := u.env.bout } := by
    simp [Env.closed, SourcePort.closed, h.cinUpcoming, h.binUpcoming, h.cout nofun, Env.opened]
  rw [State.takeFault, hstatus, hwork, henv, h.regs, h.tab.eq_of_streaming nofun nofun nofun, h.script, h.reads, h.draws]
  rfl

/-- ENCODE over symbols that have codes, and then a token that makes it fault: the whole bytes that were complete, then `abort`
(R186, R190, R256). -/
theorem encode_faults {s : State} {xs : List Symbol} {t : SrcTok Symbol} {rest : List (SrcTok Symbol)}
    {later : List (List (SrcTok Symbol))} {code : FaultCode} {info : Word}
    (hs : s.env.cin.upcoming = (xs.map .data ++ t :: rest) :: later) (ht : SinkTakesAll s.env.bout)
    (hcodes : ∀ x ∈ xs, (s.tab.codeAt x).len ≠ 0) (hnext : encodeNext s.tab t = .abort code info) :
    ∃ (bs : List ByteTok) (bout : SinkPort ByteTok),
      streamBits bs = (codesOf s.tab xs).take (8 * ((codesOf s.tab xs).length / 8)) ∧ (∀ b ∈ bs, b.p = 0#3) ∧
      bout.got = takenOk (bs.map .data ++ [.abortTok]) :: s.env.bout.got ∧ SinkTakesAll bout ∧
      exec .encode (s.accepted .encode) = .next { s with
        status := s.status.afterFault
        regs := { s.regs with errcode := code.code, errinfo := info }
        work := { s.work.idle with op := 0x04#8 }
        env := { s.env.closed with cin := ⟨false, [], later⟩, bout := bout } } := by
  obtain ⟨u0, hexec0, h0⟩ := encodeAt_accepted s ht
  rw [hs, List.headD_cons] at h0
  obtain ⟨u1, hexec1, h1, hc⟩ := h0.readAll hcodes
  have hmove := h1.readToken hc
  rw [State_accepted_tab, hnext] at hmove
  obtain ⟨bs, w, hgot, hbs, hbuf, hout⟩ := h1.put
  obtain ⟨p, hpgot, htakes, hexec2⟩ :=
    exec_encode_abort (u := (u1.withCinAvail rest).goto (.abort code info)) rfl h1.takes
  have hkept := (((h1.kept.withCinAvail (.inr rfl) rest).goto (.abort code info)).withBout p).goto (.record code info)
  have hlen : w.length < 8 := lt_of_le_of_ne hbuf.fits fun h => hc (hbuf.count.trans h)
  refine ⟨bs, p, streamBits_eq_take hbs hlen hout, hbs, ?_, htakes, ?_⟩
  · rw [← recordTaken_takenOk, ← hgot]
    exact hpgot
  · rw [hexec0, hexec1, exec_encode_of_move hmove, hexec2, hkept.takeFault_encode, hs]
    rfl

end Sys2Proof.Machine

end

section
/-! PROOFS. DECODE over the bytes of a stream: where it stands when they are read, whatever follows them (R200, R204, R206). -/

namespace Sys2Proof.Machine

open Sys2Proof

variable {s u v : State} {g0 : List (List (Taken Symbol))} {ts : List (SrcTok ByteTok)} {w : List Bool} {r cur c : Nat}
  {ys zs : List Symbol}

/-! ### The walk (R206) -/

/-- A walk that stays in the tree goes on from where it is. -/
theorem walk_append {node : List Node} {p q : List Bool} (h : walk node r cur p = (ys, .atNode c)) :
    walk node r cur (p ++ q) = (ys ++ (walk node r c q).1, (walk node r c q).2) := by
  induction p generalizing cur ys with
  | nil => cases h; rfl
  | cons b p ih =>
    rw [walk] at h
    rw [List.cons_append, walk]
    cases hi : childOf (nodeAt node cur) b with
    | none => simp [hi] at h
    | some i =>
      simp only [hi] at h ⊢
      by_cases hl : (nodeAt node i).leaf = true
      · rw [if_pos hl] at h ⊢
        obtain ⟨rfl, hend⟩ := Prod.mk.inj h
        rw [ih (Prod.ext rfl hend)]
        rfl
      · rw [if_neg hl] at h ⊢
        exact ih h

/-- A walk that has left the tree looks at no further bit. -/
theorem walk_append_of_off {node : List Node} {p q : List Bool} (h : walk node r cur p = (ys, .offNode c)) :
    walk node r cur (p ++ q) = (ys, .offNode c) := by
  induction p generalizing cur ys with
  | nil => cases h
  | cons b p ih =>
    rw [walk] at h
    rw [List.cons_append, walk]
    cases hi : childOf (nodeAt node cur) b with
    | none => simpa [hi] using h
    | some i =>
      simp only [hi] at h ⊢
      by_cases hl : (nodeAt node i).leaf = true
      · rw [if_pos hl] at h ⊢
        obtain ⟨rfl, hend⟩ := Prod.mk.inj h
        rw [ih (Prod.ext rfl hend)]
      · rw [if_neg hl] at h ⊢
        exact ih h

/-- A walk that stays in the tree is one over its first bits, and then one over the rest. -/
theorem walk_split {node : List Node} {p q : List Bool} (h : walk node r cur (p ++ q) = (zs, .atNode c)) :
    ∃ ys m, walk node r cur p = (ys, .atNode m) ∧ ∃ ys', walk node r m q = (ys', .atNode c) ∧ zs = ys ++ ys' := by
  cases hp : walk node r cur p with
  | mk ys e =>
    cases e with
    | offNode m => rw [walk_append_of_off hp] at h; cases h
    | atNode m =>
      rw [walk_append hp, Prod.mk.injEq] at h
      exact ⟨ys, m, rfl, (walk node r m q).1, Prod.ext rfl h.2, h.1.symm⟩

/-! ### DECODE in its loop -/

/-- DECODE, begun in `s`, in its loop: the tokens it has not read, the bits in the buffer, the node under the cursor and the symbols
written. `g0` are the sink's earlier streams. -/
structure DecodeAt (s : State) (g0 : List (List (Taken Symbol))) (ts : List (SrcTok ByteTok)) (w : List Bool) (cur : Nat)
    (ys : List Symbol) (u : State) : Prop where
  kept : Kept .decode s u
  status : u.status = s.status
  phase : u.work.phase = .decode
  avail : u.env.bin.avail = ts
  buf : BufHolds u.work w
  cur : u.work.cur = some cur
  takes : SinkTakesAll u.env.cout
  got : u.env.cout.got = takenOk (ys.map .data) :: g0

theorem exec_decode_of_move (h : DecodeMove s u) : exec .decode s = exec .decode u := streaming_decode.on h.step

theorem DecodeAt.tab (h : DecodeAt s g0 ts w cur ys u) : u.tab = s.tab := h.kept.tab.eq_of_streaming nofun nofun nofun

theorem DecodeAt.bitcnt_ne_zero {b : Bool} (h : DecodeAt s g0 ts (b :: w) cur ys u) : u.work.bitcnt ≠ 0 := by
  rw [h.buf.count]; exact nofun

/-- The child that the next bit selects. -/
theorem DecodeAt.nextNode {b : Bool} (h : DecodeAt s g0 ts (b :: w) cur ys u) :
    u.nextNode = childOf (nodeAt s.tab.node cur) b := by
  rw [State.nextNode, State.curNode, h.cur, h.tab, h.buf.topBit]; rfl

/-- A bit that leads to an internal node moves the cursor there. -/
theorem DecodeAt.inner {b : Bool} {i : Nat} (h : DecodeAt s g0 ts (b :: w) cur ys u)
    (hi : childOf (nodeAt s.tab.node cur) b = some i) (hl : (nodeAt s.tab.node i).leaf = false) :
    ∃ v, exec .decode u = exec .decode v ∧ DecodeAt s g0 ts w i ys v :=
  ⟨_, exec_decode_of_move (.walkInner h.phase h.bitcnt_ne_zero (h.nextNode.trans hi) (h.tab.symm ▸ hl)),
    h.kept.shiftBit.setCur _, h.status, h.phase, h.avail, { h.buf.shift with }, rfl, h.takes, h.got⟩

/-- A bit that leads to a leaf has its symbol written, and the cursor is back at the root. -/
theorem DecodeAt.leaf {b : Bool} {i : Nat} (h : DecodeAt s g0 ts (b :: w) cur ys u) (hroot : s.tab.root = some r)
    (hi : childOf (nodeAt s.tab.node cur) b = some i) (hl : (nodeAt s.tab.node i).leaf = true) :
    ∃ v, exec .decode u = exec .decode v ∧ DecodeAt s g0 ts w r (ys ++ [(nodeAt s.tab.node i).sym]) v := by
  have hmove := DecodeMove.walkLeaf h.phase h.bitcnt_ne_zero (h.nextNode.trans hi) (h.tab.symm ▸ hl)
  obtain ⟨p, hp, htakes, hgot⟩ := SinkPort_write_takesAll h.takes (.data (nodeAt u.tab.node i).sym)
  have hwrite : DecodeMove ((u.shiftBit.setCur (some i)).goto .decodeEmit) _ :=
    .symTaken rfl (State_writeCout_of_write hp)
  refine ⟨_, (exec_decode_of_move hmove).trans (exec_decode_of_move hwrite),
    (((((h.kept.shiftBit.setCur _).goto _).withCout p).setCur _).goto _), h.status, rfl, h.avail, { h.buf.shift with },
    ?_, htakes, ?_⟩
  · exact (congrArg Tables.root h.tab).trans hroot
  · rw [List.map_append, List.map_singleton, ← recordTaken_takenOk, ← h.got, ← h.tab]
    exact hgot

/-- DECODE over the bits in its buffer, when their walk stays in the tree. -/
theorem DecodeAt.walkAll (hroot : s.tab.root = some r) : ∀ {w : List Bool} {cur : Nat} {ys zs : List Symbol} {u : State},
    DecodeAt s g0 ts w cur ys u → walk s.tab.node r cur w = (zs, .atNode c) →
    ∃ v, exec .decode u = exec .decode v ∧ DecodeAt s g0 ts [] c (ys ++ zs) v
  | [], cur, ys, zs, u, h, hw => by
    cases hw
    exact ⟨u, rfl, by rwa [List.append_nil]⟩
  | b :: w, cur, ys, zs, u, h, hw => by
    rw [walk] at hw
    split at hw
    · cases hw
    · next i hi =>
      split at hw
      · next hl =>
        obtain ⟨u1, hexec1, h1⟩ := h.leaf hroot hi hl
        obtain ⟨hzs, hend⟩ := Prod.mk.inj hw
        obtain ⟨v, hexec2, h2⟩ := DecodeAt.walkAll hroot h1 (Prod.ext rfl hend)
        refine ⟨v, hexec1.trans hexec2, ?_⟩
        rwa [List.append_assoc, List.singleton_append, hzs] at h2
      · next hl =>
        obtain ⟨u1, hexec1, h1⟩ := h.inner hi (by simpa using hl)
        obtain ⟨v, hexec2, h2⟩ := DecodeAt.walkAll hroot h1 hw
        exact ⟨v, hexec1.trans hexec2, h2⟩

/-- A byte that is read fills the empty buffer with its bits (R204). -/
theorem DecodeAt.readByte {b : ByteTok} (h : DecodeAt s g0 (.data b :: ts) [] cur ys u) :
    ∃ v, exec .decode u = exec .decode v ∧ DecodeAt s g0 ts (tokenBits b) cur ys v :=
  ⟨_, exec_decode_of_move (.readByte h.phase h.buf.count (State_readBin_cons h.avail)),
    (h.kept.withBinAvail ts).loadByte b, h.status, h.phase, rfl, bufHolds_loadByte _ b, h.cur, h.takes, h.got⟩

/-- DECODE over bytes whose walk stays in the tree: the symbols of the walk are written, and then the next token is wanted. -/
theorem DecodeAt.readAll (hroot : s.tab.root = some r) : ∀ {bs : List ByteTok} {cur : Nat} {ys zs : List Symbol} {u : State},
    DecodeAt s g0 (bs.map .data ++ ts) [] cur ys u → walk s.tab.node r cur (streamBits bs) = (zs, .atNode c) →
    ∃ v, exec .decode u = exec .decode v ∧ DecodeAt s g0 ts [] c (ys ++ zs) v
  | [], cur, ys, zs, u, h, hw => DecodeAt.walkAll hroot h hw
  | b :: bs, cur, ys, zs, u, h, hw => by
    obtain ⟨ys1, m, hw1, ys2, hw2, rfl⟩ := walk_split (p := tokenBits b) (q := streamBits bs) hw
    obtain ⟨u1, hexec1, h1⟩ := h.readByte
    obtain ⟨u2, hexec2, h2⟩ := h1.walkAll hroot hw1
    obtain ⟨v, hexec3, h3⟩ := DecodeAt.readAll hroot h2 hw2
    exact ⟨v, hexec1.trans (hexec2.trans hexec3), by rwa [List.append_assoc] at h3⟩

/-- The first step of DECODE with a tree leads into its loop, the cursor at the root. -/
theorem decodeAt_accepted (hroot : s.tab.root = some r) (ht : SinkTakesAll s.env.cout) :
    ∃ u, exec .decode (s.accepted .decode) = exec .decode u ∧
      DecodeAt (s.accepted .decode) s.env.cout.got (s.env.bin.upcoming.headD []) [] r [] u :=
  ⟨_, exec_decode_of_move (.start rfl hroot), ((Kept.refl .decode _).setCur _).goto _, rfl, rfl, rfl, bufHolds_nil rfl, rfl, ht,
    rfl⟩

/-! ### The fault that ends DECODE -/

/-- The `abort` is taken, the fault recorded (R256). -/
theorem exec_decode_abort {code : FaultCode} {info : Word} (hp : u.work.phase = .abort code info) (ht : SinkTakesAll u.env.cout) :
    ∃ p : SinkPort Symbol, p.got = recordTaken ⟨.abortTok, .ok⟩ u.env.cout.got ∧ SinkTakesAll p ∧
      exec .decode u = .next (((u.withCout p).goto (.record code info)).takeFault code info) := by
  obtain ⟨p, hw, htakes, hgot⟩ := SinkPort_write_takesAll ht .abortTok
  exact ⟨p, hgot, htakes, (exec_decode_of_move (.aborted hp (State_writeCout_of_write hw))).trans
    (streaming_decode.exec_of_done rfl)⟩

/-- The state after a fault of DECODE: besides the fault, only the ports it uses have changed. -/
theorem Kept.takeFault_decode (h : Kept .decode (s.accepted .decode) u) (hst : u.status = s.status.accepted) (code : FaultCode)
    (info : Word) : u.takeFault code info = { s with
      status := s.status.afterFault
      regs := { s.regs with errcode := code.code, errinfo := info }
      work := { s.work.idle with op := 0x05#8 }
      env := { s.env.closed with bin := ⟨false, [], s.env.bin.upcoming.tail⟩, cout := u.env.cout } } := by
  have hstatus : u.status.faulted = s.status.afterFault := by rw [hst]; rfl
  have hwork : u.work.idle = { s.work.idle with op := 0x05#8 } := by simp [Work.idle, h.op, extractLsb'_encode, encodeOpcode]
  have henv : u.env.closed =
      { s.env.closed with bin := ⟨false, [], s.env.bin.upcoming.tail⟩, cout := u.env.cout } := by
    simp [Env.closed, SourcePort.closed, h.cinUpcoming, h.binUpcoming, h.bout nofun, Env.opened]
  rw [State.takeFault, hstatus, hwork, henv, h.regs, h.tab.eq_of_streaming nofun nofun nofun, h.script, h.reads, h.draws]
  rfl

/-- DECODE over bytes whose walk stays in the tree, on a source that then fails: the symbols of the walk, then `abort`
(R210, R256). -/
theorem decode_sourceFails {bs : List ByteTok} {later : List (List (SrcTok ByteTok))} (hroot : s.tab.root = some r)
    (hs : s.env.bin.upcoming = streamOf bs .failTok :: later) (ht : SinkTakesAll s.env.cout)
    (hw : walk s.tab.node r r (streamBits bs) = (ys, .atNode c)) :
    ∃ cout : SinkPort Symbol, cout.got = takenOk (ys.map .data ++ [.abortTok]) :: s.env.cout.got ∧
      exec .decode (s.accepted .decode) = .next { s with
        status := s.status.afterFault
        regs := { s.regs with errcode := 5#8, errinfo := 1#32 }
        work := { s.work.idle with op := 0x05#8 }
        env := { s.env.closed with bin := ⟨false, [], later⟩, cout := cout } } := by
  obtain ⟨u0, hexec0, h0⟩ := decodeAt_accepted hroot ht
  rw [hs, List.headD_cons, streamOf] at h0
  obtain ⟨u1, hexec1, h1⟩ := h0.readAll (s := s.accepted .decode) hroot hw
  have hmove := DecodeMove.readFail h1.phase h1.buf.count (State_readBin_cons h1.avail)
  obtain ⟨p, hpgot, -, hexec2⟩ :=
    exec_decode_abort (u := (u1.withBinAvail []).goto (.abort .stream portidBin)) rfl h1.takes
  have hkept := (((h1.kept.withBinAvail []).goto (.abort .stream portidBin)).withCout p).goto (.record .stream portidBin)
  refine ⟨p, ?_, ?_⟩
  · rw [← recordTaken_takenOk, ← List.nil_append ys, ← h1.got]
    exact hpgot
  · rw [hexec0, hexec1]
    refine (exec_decode_of_move hmove).trans (hexec2.trans ?_)
    rw [hkept.takeFault_decode h1.status, hs]
    rfl

end Sys2Proof.Machine

open Sys2Proof Sys2Proof.Machine

/-- Settles O57: the loops of ENCODE and DECODE over what was complete, then the token `fail`. -/
theorem sourceFailureAborts : Obligations.SourceFailureAborts :=
  ⟨fun _ _ _ hs ht hcodes => encode_faults hs ht hcodes rfl, fun _ _ _ _ _ _ hroot hs ht hw =>
    decode_sourceFails hroot hs ht hw⟩

end

section
/-! PROOFS. The encodings: which words are legal and how many, the host's view of the decoder, and the beats of the stream ports
(R100 to R104, R112 to R114). -/

namespace Sys2Proof

/-! ### Command words -/

/-- R101: the opcodes up to 6 are the commands'. -/
theorem exists_decodeOpcode_eq_ok {op : BitVec 8} : (∃ i, decodeOpcode op = .ok i) ↔ op.toNat ≤ 0x06 := by
  constructor
  · rintro ⟨i, h⟩
    obtain rfl := decodeOpcode_eq_ok.1 h
    cases i <;> decide
  · intro hop
    unfold decodeOpcode
    interval_cases op.toNat <;> exact ⟨_, rfl⟩

/-- R102: the legality test on the bits of a word. -/
theorem exists_decodeWord_eq_ok {w : Word} :
    (∃ i, decodeWord w = .ok i) ↔ w.extractLsb' 8 24 = 0#24 ∧ (w.extractLsb' 0 8).toNat ≤ 0x06 := by
  rw [← exists_decodeOpcode_eq_ok, decodeWord]
  split
  · next hhigh => exact ⟨fun h => ⟨hhigh, h⟩, fun h => h.2⟩
  · next hhigh => exact ⟨fun ⟨_, h⟩ => (nomatch h), fun h => absurd h.1 hhigh⟩

/-- The command words of R101. -/
def legalWords : Finset Word :=
  {encode .nop, encode .count, encode .build, encode .derive, encode .encode, encode .decode, encode .clear}

theorem card_legalWords : legalWords.card = 7 := by decide

theorem mem_legalWords {w : Word} : w ∈ legalWords ↔ ∃ i, decodeWord w = .ok i := by
  simp only [decodeWord_eq_ok, legalWords, Finset.mem_insert, Finset.mem_singleton]
  constructor
  · rintro (h | h | h | h | h | h | h) <;> exact ⟨_, h⟩
  · rintro ⟨i, rfl⟩
    cases i <;> simp

theorem card_compl_legalWords : legalWordsᶜ.card = 2 ^ 32 - 7 := by
  rw [Finset.card_compl, card_legalWords, ← FinEnum.card_eq_fintypeCard, FinEnum.card_bitVec]

theorem Instr_wf (i : Instr) : i.wf = true := by cases i <;> rfl

/-- With the 32 bits of R100 the host's view of the decoder is the decoder. -/
theorem decodeTableWord_toNat (w : Word) : decodeTableWord 32 w.toNat = (decodeWord w).toOption := by
  rw [decodeTableWord, if_pos (le_refl 32), Nat.mod_eq_of_lt w.isLt, BitVec.ofNat_toNat, BitVec.setWidth_eq]

/-! ### Beats (R112 to R114) -/

@[simp] theorem bitsOfByteTok_byte (t : ByteTok) : (bitsOfByteTok t).extractLsb' 0 8 = t.d :=
  BitVec.extractLsb'_append_eq_right

@[simp] theorem bitsOfByteTok_pad (t : ByteTok) : (bitsOfByteTok t).extractLsb' 8 3 = t.p :=
  BitVec.extractLsb'_append_eq_left

theorem byteTokOfBits_bitsOfByteTok (t : ByteTok) : byteTokOfBits (bitsOfByteTok t) = t := by
  simp [byteTokOfBits]

theorem beatOfSinkTok_kind_ne_three {α : Type} {w : Nat} (bits : α → BitVec w) (t : SinkTok α) :
    (beatOfSinkTok bits t).kind ≠ 3#2 := by
  cases t <;> exact nofun

theorem binTok_boutBeat_data (t : ByteTok) : binTok (boutBeat (.data t)) = .data t :=
  congrArg SrcTok.data (byteTokOfBits_bitsOfByteTok t)

end Sys2Proof

namespace Sys2Proof.Machine

/-! ### The tables a command can change (R104) -/

theorem CommandMove.tabMove {i : Instr} {s t : State} (h : CommandMove i s t) (hi : i ≠ .clear) : TabMove i s.tab t.tab := by
  cases h with
  | runs h | completes _ h | faults _ h => exact h.tab
  | clears hclear => exact absurd hclear hi

/-- R135: COUNT changes `FREQ` only. -/
theorem TabMove.eq_of_count {t t' : Tables} (h : TabMove .count t t') : t' = { t with freq := t'.freq } := by
  cases h with
  | same | counted => rfl

/-- R172: DERIVE changes the code table only. -/
theorem TabMove.eq_of_derive {t t' : Tables} (h : TabMove .derive t t') :
    t' = { t with code := t'.code, ncodes := t'.ncodes } := by
  cases h with
  | same | derived | tooDeep => rfl

end Sys2Proof.Machine

open Sys2Proof Sys2Proof.Machine

/-- Settles O34: BUILD, COUNT and DERIVE each leave what their move of the tables does not name; NOP, ENCODE and DECODE have no move
but to leave the tables the same. -/
theorem commandsChangeOnlyTheirTables : Obligations.CommandsChangeOnlyTheirTables := by
  intro i s t hexec
  have htab := (exec_move hexec).tabMove
  refine ⟨?_, ?_, ?_, ?_⟩
  · rintro (rfl | rfl | rfl) <;> exact (htab nofun).eq_of_streaming nofun nofun nofun
  · rintro rfl
    exact (htab nofun).eq_of_count
  · rintro rfl
    exact (htab nofun).freq_eq nofun
  · rintro rfl
    exact (htab nofun).eq_of_derive

/-- Settles O1: the legal words are the seven encodings, and the illegal ones are their complement. -/
theorem sevenLegalCommandWords : Obligations.SevenLegalCommandWords :=
  ⟨fun _ => exists_decodeWord_eq_ok, (Nat.subtype_card legalWords fun _ => mem_legalWords).trans card_legalWords,
    (Nat.subtype_card legalWordsᶜ fun _ => Finset.mem_compl.trans mem_legalWords.not).trans card_compl_legalWords⟩

/-- Settles O2: the host's view of 32 bits is the decoder, which answers a command exactly on its encoding. -/
theorem decodeAndEncodeAgree : Obligations.DecodeAndEncodeAgree := by
  refine ⟨fun _ _ => decodeWord_eq_ok, fun i => ⟨Instr_wf i, ?_⟩⟩
  rw [decodeTableWord_toNat, decodeWord_eq_ok.2 rfl]
  rfl

/-- Settles O3: the first seven words are encodings; of the other two, one has an opcode beyond the map and one a reserved bit set. -/
theorem writtenOutWordsDecode : Obligations.WrittenOutWordsDecode :=
  ⟨decodeWord_eq_ok.2 rfl, decodeWord_eq_ok.2 rfl, decodeWord_eq_ok.2 rfl, decodeWord_eq_ok.2 rfl, decodeWord_eq_ok.2 rfl,
    decodeWord_eq_ok.2 rfl, decodeWord_eq_ok.2 rfl, rfl, rfl⟩

/-- Settles O4: the data signal of a byte token is its pad count above its byte, and the kind says the rest. -/
theorem beatsCarryTokens : Obligations.BeatsCarryTokens := by
  refine ⟨fun t => ⟨rfl, bitsOfByteTok_byte t, bitsOfByteTok_pad t⟩, rfl, fun _ => rfl, binTok_boutBeat_data,
    fun _ => ⟨rfl, rfl⟩, rfl, rfl, rfl, rfl, beatOfSinkTok_kind_ne_three _, beatOfSinkTok_kind_ne_three _, ?_⟩
  exact ⟨fun _ => rfl, fun _ => rfl, fun _ => rfl, fun _ => rfl, fun _ => rfl, fun _ => rfl⟩

end

section
/-! PROOFS. COUNT over the symbols of a stream, whatever follows them: the table holds how often each of them occurs (R130 to R137). -/

namespace Sys2Proof.Machine

open Sys2Proof

variable {s u : State} {freq freq' : Memory Word} {ts : List (SrcTok Symbol)} {xs ys : List Symbol} {c : Symbol}

/-! ### The table of a list of symbols -/

theorem Memory_read_of_le {α : Type} {d : α} {n : Nat} {m : Memory α} (hm : Memory.wf n d m) {a : Nat} (ha : n ≤ a) :
    Memory.read d m a = d := by
  by_contra h
  exact absurd (hm.2 _ (Memory_mem_of_read h)).1 (Nat.not_lt.2 ha)

/-- The frequency table with the number of occurrences of every symbol in `xs` (R130). -/
structure CountsOf (xs : List Symbol) (freq : Memory Word) : Prop where
  wf : Memory.wf Config.nsym 0#32 freq
  read : ∀ c : Symbol, (Memory.read 0#32 freq c.toNat).toNat = xs.count c

theorem countsOf_nil : CountsOf [] [] := ⟨Memory_wf_nil _, fun _ => rfl⟩

/-- One more symbol is counted; below `CNTMAX` the count is exact (R133). -/
theorem CountsOf.countSymbol {t : Tables} (h : CountsOf xs t.freq) (hlt : xs.length < Config.cntmax) (c : Symbol) :
    CountsOf (xs ++ [c]) (t.countSymbol c).freq where
  wf := Memory_write_wf h.wf c.isLt
  read d := by
    rw [Tables_countSymbol_freq, Memory_read_write h.wf, List.count_append, List.count_singleton]
    by_cases hd : d = c
    · subst hd
      have hread := h.read d
      have hsum : xs.count d + 1 < 2 ^ 31 := by
        have hle : xs.count d ≤ xs.length := List.count_le_length
        exact Nat.add_lt_of_lt_sub (hle.trans_lt hlt)
      rw [if_pos rfl, Tables.freqAt, BitVec.toNat_add, hread, beq_self_eq_true, if_pos rfl]
      exact Nat.mod_eq_of_lt (hsum.trans (by decide))
    · rw [if_neg (mt BitVec.eq_of_toNat_eq hd), h.read d, if_neg (by simpa using Ne.symm hd), Nat.add_zero]

/-- The counts determine the table (R136). -/
theorem CountsOf.ext (h : CountsOf xs freq) (h' : CountsOf ys freq') (hcount : ∀ c, xs.count c = ys.count c) : freq = freq' := by
  refine Memory_ext h.wf h'.wf fun a => ?_
  by_cases ha : a < Config.nsym
  · have hc : (BitVec.ofNat Config.symw a).toNat = a := Nat.mod_eq_of_lt ha
    rw [← hc]
    exact BitVec.eq_of_toNat_eq (by rw [h.read, h'.read, hcount])
  · rw [Memory_read_of_le h.wf (Nat.not_lt.1 ha), Memory_read_of_le h'.wf (Nat.not_lt.1 ha)]

/-! ### COUNT in its loop -/

/-- COUNT, begun in `s`, in its loop: the tokens it has not read, and the symbols it has counted. -/
structure CountAt (s : State) (ts : List (SrcTok Symbol)) (xs : List Symbol) (u : State) : Prop where
  kept : Kept .count s u
  phase : u.work.phase = .count xs.length
  avail : u.env.cin.avail = ts
  counts : CountsOf xs u.tab.freq

theorem exec_count_of_move (h : CountMove s u) : exec .count s = exec .count u := streaming_count.on h.step

/-- The first step of COUNT empties the table and leads into its loop (R131). -/
theorem countAt_accepted (s : State) : ∃ u, exec .count (s.accepted .count) = exec .count u ∧
    CountAt (s.accepted .count) (s.env.cin.upcoming.headD []) [] u :=
  ⟨_, exec_count_of_move (.start rfl), ((Kept.refl .count _).withTab (TabMove.same _ _).emptyFreq).goto _, rfl, rfl, countsOf_nil⟩

theorem CountAt.readSymbol (h : CountAt s (.data c :: ts) xs u) (hlt : xs.length < Config.cntmax) :
    ∃ v, exec .count u = exec .count v ∧ CountAt s ts (xs ++ [c]) v :=
  ⟨_, exec_count_of_move (.symbol h.phase (State_readCin_cons h.avail) hlt.ne),
    ((h.kept.withCinAvail (.inl rfl) ts).withTab (h.kept.tab.countSymbol c)).goto _,
    by rw [List.length_append]; rfl, rfl, h.counts.countSymbol hlt c⟩

/-- COUNT over at most `CNTMAX` symbols counts them all, and then the next token is wanted (R130). -/
theorem CountAt.readAll : ∀ {ys xs : List Symbol} {u : State}, CountAt s (ys.map .data ++ ts) xs u →
    xs.length + ys.length ≤ Config.cntmax → ∃ v, exec .count u = exec .count v ∧ CountAt s ts (xs ++ ys) v
  | [], xs, u, h, _ => ⟨u, rfl, by rwa [List.append_nil]⟩
  | y :: ys, xs, u, h, hle => by
    rw [List.length_cons] at hle
    obtain ⟨u1, hexec1, h1⟩ := h.readSymbol (by omega)
    obtain ⟨v, hexec2, h2⟩ := CountAt.readAll h1 (by rw [List.length_append, List.length_singleton]; omega)
    exact ⟨v, hexec1.trans hexec2, by rwa [List.append_assoc, List.singleton_append] at h2⟩

theorem count_reads {later : List (List (SrcTok Symbol))} (hs : s.env.cin.upcoming = (xs.map .data ++ ts) :: later)
    (hle : xs.length ≤ Config.cntmax) :
    ∃ u, exec .count (s.accepted .count) = exec .count u ∧ CountAt (s.accepted .count) ts xs u := by
  obtain ⟨u0, hexec0, h0⟩ := countAt_accepted s
  rw [hs, List.headD_cons] at h0
  obtain ⟨u1, hexec1, h1⟩ := h0.readAll (by simpa using hle)
  exact ⟨u1, hexec0.trans hexec1, h1⟩

/-! ### The end of COUNT -/

/-- The state after COUNT: besides the flags and the fault record, only the frequency table and the port it reads have changed. -/
theorem Kept.ended_count (h : Kept .count (s.accepted .count) u) (status : Status) (regs : Regs) :
    { u with status := status, regs := regs, work := u.work.idle, env := u.env.closed } = { s with
      status := status
      regs := regs
      tab := { s.tab with freq := u.tab.freq }
      work := { s.work.idle with op := 0x01#8 }
      env := { s.env.closed with cin := ⟨false, [], s.env.cin.upcoming.tail⟩ } } := by
  have hwork : u.work.idle = { s.work.idle with op := 0x01#8 } := by simp [Work.idle, h.op, extractLsb'_encode, encodeOpcode]
  have henv : u.env.closed = { s.env.closed with cin := ⟨false, [], s.env.cin.upcoming.tail⟩ } := by
    simp [Env.closed, SourcePort.closed, h.cinUpcoming, h.binUpcoming, h.bout nofun, h.cout nofun, Env.opened]
  rw [hwork, henv, h.script, h.reads, h.draws, h.tab.eq_of_count]
  rfl

theorem Kept.complete_count (h : Kept .count (s.accepted .count) u) : u.complete = { s with
    status := s.status.afterDone false
    tab := { s.tab with freq := u.tab.freq }
    work := { s.work.idle with op := 0x01#8 }
    env := { s.env.closed with cin := ⟨false, [], s.env.cin.upcoming.tail⟩ } } := by
  have hstatus : u.status.completed = s.status.afterDone false := by
    simp [Status.completed, Status.afterDone, h.err, h.rej, h.trunc nofun]
  rw [State.complete, h.ended_count, hstatus, h.regs]
  rfl

theorem Kept.takeFault_count (h : Kept .count (s.accepted .count) u) (code : FaultCode) (info : Word) :
    u.takeFault code info = { s with
      status := s.status.afterFault
      regs := { s.regs with errcode := code.code, errinfo := info }
      tab := { s.tab with freq := u.tab.freq }
      work := { s.work.idle with op := 0x01#8 }
      env := { s.env.closed with cin := ⟨false, [], s.env.cin.upcoming.tail⟩ } } := by
  have hstatus : u.status.faulted = s.status.afterFault := by
    simp [Status.faulted, Status.afterFault, h.rej, h.trunc nofun]
  rw [State.takeFault, h.ended_count, hstatus, h.regs]
  rfl

/-- COUNT over at most `CNTMAX` symbols and then `end` (R130). -/
theorem count_completes {later : List (List (SrcTok Symbol))} (hs : s.env.cin.upcoming = streamOf xs .endTok :: later)
    (hle : xs.length ≤ Config.cntmax) :
    ∃ freq, CountsOf xs freq ∧ exec .count (s.accepted .count) = .next { s with
      status := s.status.afterDone false
      tab := { s.tab with freq := freq }
      work := { s.work.idle with op := 0x01#8 }
      env := { s.env.closed with cin := ⟨false, [], later⟩ } } := by
  obtain ⟨u, hexec, hu⟩ := count_reads hs hle
  have hmove : CountMove u ((u.withCinAvail []).goto .finish) := .readEnd hu.phase (State_readCin_cons hu.avail)
  have hkept := (hu.kept.withCinAvail (.inl rfl) []).goto .finish
  refine ⟨u.tab.freq, hu.counts, ?_⟩
  rw [hexec, exec_count_of_move hmove, streaming_count.exec_of_done rfl, hkept.complete_count, hs]
  rfl

/-- COUNT over at most `CNTMAX` symbols and then a token that makes it fault (R134). -/
theorem count_faults {t : SrcTok Symbol} {later : List (List (SrcTok Symbol))} {code : FaultCode} {info : Word}
    (hs : s.env.cin.upcoming = (xs.map .data ++ t :: ts) :: later) (hle : xs.length ≤ Config.cntmax)
    (hnext : ∀ {s u : State}, CountAt s (t :: ts) xs u → CountMove u ((u.withCinAvail ts).goto (.record code info))) :
    ∃ freq, CountsOf xs freq ∧ exec .count (s.accepted .count) = .next { s with
      status := s.status.afterFault
      regs := { s.regs with errcode := code.code, errinfo := info }
      tab := { s.tab with freq := freq }
      work := { s.work.idle with op := 0x01#8 }
      env := { s.env.closed with cin := ⟨false, [], later⟩ } } := by
  obtain ⟨u, hexec, hu⟩ := count_reads hs hle
  have hkept := (hu.kept.withCinAvail (.inl rfl) ts).goto (.record code info)
  refine ⟨u.tab.freq, hu.counts, ?_⟩
  rw [hexec, exec_count_of_move (hnext hu), streaming_count.exec_of_done rfl, hkept.takeFault_count, hs]
  rfl

end Sys2Proof.Machine

open Sys2Proof Sys2Proof.Machine

/-- Settles O42: COUNT empties the table, and every symbol it then reads adds one to its own entry. -/
theorem countCountsEverySymbol : Obligations.CountCountsEverySymbol := by
  intro s xs later hs hle
  obtain ⟨freq, hcounts, hexec⟩ := count_completes hs hle
  exact ⟨freq, hcounts.wf, hcounts.read, hexec⟩

/-- Settles O43: the symbols are counted as in a run that completes; the next token moves COUNT to its fault, the table as it is. -/
theorem countFaultsKeepPartialCounts : Obligations.CountFaultsKeepPartialCounts := by
  rintro s xs later rest code info (⟨hs, hle, rfl, rfl⟩ | ⟨c, hs, hlen, rfl, rfl⟩)
  · obtain ⟨freq, hcounts, hexec⟩ := count_faults (code := .stream) (info := portidCin) hs hle
      fun hu => .readFail hu.phase (State_readCin_cons hu.avail)
    exact ⟨freq, hcounts.wf, hcounts.read, hexec⟩
  · rw [streamOf, List.append_assoc, List.singleton_append] at hs
    obtain ⟨freq, hcounts, hexec⟩ := count_faults (code := .countOvf) (info := c.zext) hs hlen.le
      fun hu => .overflow (hlen ▸ hu.phase) (State_readCin_cons hu.avail)
    exact ⟨freq, hcounts.wf, hcounts.read, hexec⟩

/-- Settles O44: both runs complete, as one stream is a permutation of the other, and the counts determine the table. -/
theorem countIgnoresOrder : Obligations.CountIgnoresOrder := by
  intro s t xs ys later hcount hle hs ht
  have hperm : xs.Perm ys := List.perm_iff_count.2 hcount
  obtain ⟨freq, hcounts, hexec⟩ := count_completes hs hle
  obtain ⟨freq', hcounts', hexec'⟩ := count_completes
    (s := { s with env := { s.env with cin := { s.env.cin with upcoming := streamOf ys .endTok :: later } } })
    rfl (hperm.length_eq ▸ hle)
  rw [hexec', ← ht, hexec, hcounts.ext hcounts' hcount]
  rfl

end

section
/-! PROOFS. Only BUILD, CLEAR and reset change the tree (R39, R152); and BUILD's validation: the lowest negative entry, then the exact
sum (R142, R154). -/

namespace Sys2Proof.Machine

open Sys2Proof

/-! ### Who changes the tree (R152) -/

theorem TabMove.tree_eq {i : Instr} {t t' : Tables} (h : TabMove i t t') (hi : i ≠ .build) :
    t'.node = t.node ∧ t'.root = t.root ∧ t'.nnodes = t.nnodes := by
  cases h with
  | same | counted | derived | tooDeep => exact ⟨rfl, rfl, rfl⟩
  | built => exact absurd rfl hi

/-! ### The validation (R142) -/

theorem negativeEntry_cons (k : Nat) (v : Word) (m : Memory Word) :
    negativeEntry ((k, v) :: m) = if v.msb = true then some k else negativeEntry m := by
  cases hv : v.msb <;> simp [negativeEntry, hv]

/-- The scan finds the lowest index whose entry is negative. -/
theorem negativeEntry_eq_some_iff {n : Nat} {m : Memory Word} (hm : Memory.wf n 0#32 m) {a : Nat} :
    negativeEntry m = some a ↔ (Memory.read 0#32 m a).msb = true ∧ ∀ b < a, (Memory.read 0#32 m b).msb = false := by
  induction m with
  | nil => simp [negativeEntry]
  | cons e m ih =>
    obtain ⟨k, v⟩ := e
    obtain ⟨hlt, -, -, hm'⟩ := Memory_wf_cons.1 hm
    rw [negativeEntry_cons]
    split
    · next hv =>
      have hk : Memory.read 0#32 ((k, v) :: m) k = v := by simp [Memory_read_cons]
      have hbelow : ∀ b < k, (Memory.read 0#32 ((k, v) :: m) b).msb = false := fun b hb => by
        rw [Memory_read_of_lt _ _ (List.forall_mem_cons.2 ⟨hb, fun e he => hb.trans (hlt e he)⟩)]
        rfl
      rw [Option.some.injEq]
      constructor
      · rintro rfl
        exact ⟨by rwa [hk], hbelow⟩
      · rintro ⟨ha, hmin⟩
        rcases lt_trichotomy k a with hka | hka | hka
        · exact absurd (hmin k hka) (by simp [hk, hv])
        · exact hka
        · exact absurd (hbelow a hka) (by simp [ha])
    · next hv =>
      have hread : ∀ b, (Memory.read 0#32 ((k, v) :: m) b).msb = (Memory.read 0#32 m b).msb := fun b => by
        rw [Memory_read_cons]
        split
        · next hk =>
          subst hk
          rw [Memory_read_of_lt m k hlt]
          simpa using hv
        · rfl
      simp only [hread]
      exact ih hm'

theorem freqAt_ofNat (t : Tables) {a : Nat} (ha : a < Config.nsym) :
    t.freqAt (BitVec.ofNat Config.symw a) = Memory.read 0#32 t.freq a := by
  rw [Tables.freqAt, BitVec.toNat_ofNat, Nat.mod_eq_of_lt ha]

theorem negativeEntry_eq_some {t : Tables} (hm : MemOk t) {c : Symbol} (hc : (t.freqAt c).msb = true)
    (hmin : ∀ d : Symbol, d < c → (t.freqAt d).msb = false) : negativeEntry t.freq = some c.toNat := by
  refine (negativeEntry_eq_some_iff hm.1).2 ⟨hc, fun b hb => ?_⟩
  have hlt : b < Config.nsym := hb.trans c.isLt
  rw [← freqAt_ofNat t hlt]
  exact hmin _ (by rwa [BitVec.lt_def, BitVec.toNat_ofNat, Nat.mod_eq_of_lt hlt])

theorem negativeEntry_eq_none {t : Tables} (hm : MemOk t) (h : ∀ c : Symbol, (t.freqAt c).msb = false) :
    negativeEntry t.freq = none := by
  refine Option.eq_none_iff_forall_ne_some.2 fun a ha => ?_
  obtain ⟨hneg, -⟩ := (negativeEntry_eq_some_iff hm.1).1 ha
  by_cases hlt : a < Config.nsym
  · exact absurd (h (BitVec.ofNat Config.symw a)) (by simp [freqAt_ofNat t hlt, hneg])
  · rw [Memory_read_of_le hm.1 (Nat.not_lt.1 hlt)] at hneg
    exact absurd hneg (by decide)

theorem execBuild_of_negativeEntry {s : State} {a : Nat} (h : negativeEntry s.tab.freq = some a) :
    execBuild s = .next (s.takeFault .invalidInput (BitVec.ofNat 32 a)) := by
  rcases execBuild_cases s with ⟨sym, hs, he⟩ | ⟨hn, -⟩ | ⟨hn, -⟩
  · cases h.symm.trans hs
    exact he
  · exact absurd (h.symm.trans hn) nofun
  · exact absurd (h.symm.trans hn) nofun

theorem execBuild_of_cntmax_lt {s : State} (hneg : negativeEntry s.tab.freq = none) (hsum : Config.cntmax < freqSum s.tab.freq) :
    execBuild s = .next (s.takeFault .invalidInput 0xFFFFFFFF#32) := by
  rcases execBuild_cases s with ⟨sym, hs, -⟩ | ⟨-, -, he⟩ | ⟨-, hle, -⟩
  · exact absurd (hneg.symm.trans hs) nofun
  · exact he
  · exact absurd hsum (not_lt.2 hle)

theorem takeFault_accepted_build (s : State) (info : Word) : (s.accepted .build).takeFault .invalidInput info = { s with
    status := s.status.afterFault
    regs := { s.regs with errcode := 2#8, errinfo := info }
    work := { s.work.idle with op := 0x02#8 }
    env := s.env.closed } := rfl

end Sys2Proof.Machine

open Sys2Proof Sys2Proof.Machine

/-- Settles O30: read off what a step can make of the tables. -/
theorem treeChangesOnlyByBuildClearReset : Obligations.TreeChangesOnlyByBuildClearReset := by
  intro s t hstep hchange
  have h := (step_move hstep).tab
  generalize t.tab = t' at h hchange
  cases h with
  | same => simp at hchange
  | @command i _ hb hi h =>
    by_cases hbuild : i = .build
    · exact .inr ⟨hb, .inl (hbuild ▸ hi)⟩
    · obtain ⟨hnode, hroot, hnnodes⟩ := h.tree_eq hbuild
      simp [hnode, hroot, hnnodes] at hchange
  | clear hb hi => exact .inr ⟨hb, .inr hi⟩
  | reset hs => exact .inl ⟨_, hs⟩
  | write => simp at hchange

/-- Settles O45: the scan finds the lowest negative entry, and where it finds none the exact sum is tested. -/
theorem buildRejectsInvalidFrequencies : Obligations.BuildRejectsInvalidFrequencies := by
  intro s hm
  constructor
  · intro c hc hmin
    have hneg : negativeEntry (s.accepted .build).tab.freq = some c.toNat := negativeEntry_eq_some hm hc hmin
    refine (execBuild_of_negativeEntry hneg).trans ?_
    rw [takeFault_accepted_build, BitVec.ofNat_toNat]
  · intro hpos hsum
    rw [← freqSum_eq_totalFreq hm] at hsum
    refine (execBuild_of_cntmax_lt (s := s.accepted .build) (negativeEntry_eq_none hm hpos) hsum).trans ?_
    rw [takeFault_accepted_build]

end

section
/-! PROOFS. What BUILD leaves: its keys in ascending order, one leaf for each of them in front, and the number of nodes (R143, R148). -/

namespace Sys2Proof.Machine

open Sys2Proof

/-! ### The keys and their leaves (R38, R143) -/

/-- The symbols of the listed entries, in ascending order. -/
def keysOf (freq : Memory Word) : List Symbol := freq.map fun e => BitVec.ofNat Config.symw e.1

/-- The leaf of a symbol, with the symbol's count as weight (R143). -/
def Tables.keyLeaf (t : Tables) (c : Symbol) : Node := ⟨(t.freqAt c).toNat, true, c, none, none⟩

theorem freqAt_of_mem {t : Tables} (hm : MemOk t) {e : Nat × Word} (he : e ∈ t.freq) :
    t.freqAt (BitVec.ofNat Config.symw e.1) = e.2 := by
  rw [freqAt_ofNat t (hm.1.2 e he).1, Memory_read_of_mem hm.1 he]

theorem leavesOf_eq_map_keyLeaf {t : Tables} (hm : MemOk t) : leavesOf t.freq = (keysOf t.freq).map t.keyLeaf := by
  rw [leavesOf, keysOf, List.map_map]
  refine List.map_congr_left fun e he => ?_
  rw [Function.comp_apply, Tables.keyLeaf, freqAt_of_mem hm he]
  rfl

theorem length_leavesOf {freq : Memory Word} : (leavesOf freq).length = (keysOf freq).length := by simp [leavesOf, keysOf]

theorem pairwise_keysOf {t : Tables} (hm : MemOk t) : (keysOf t.freq).Pairwise (· < ·) := by
  have h := (leafList_leavesOf hm.1).rising
  rw [leavesOf_eq_map_keyLeaf hm] at h
  exact (List.pairwise_map (f := t.keyLeaf)).1 h

/-- Where no entry is negative, the listed symbols are the keys. -/
theorem mem_keysOf_iff {t : Tables} (hm : MemOk t) (hneg : negativeEntry t.freq = none) (c : Symbol) :
    c ∈ keysOf t.freq ↔ IsKey t c := by
  constructor
  · intro hc
    obtain ⟨e, he, rfl⟩ := List.mem_map.1 hc
    rw [IsKey, freqAt_of_mem hm he]
    exact of_decide_eq_true (isKeyEntry_of_negativeEntry hm.1 hneg e he)
  · intro hc
    have hne : Memory.read 0#32 t.freq c.toNat ≠ 0#32 := fun h0 => by
      rw [IsKey, Tables.freqAt, h0] at hc
      exact absurd hc (by decide)
    exact List.mem_map.2 ⟨_, Memory_mem_of_read hne, (BitVec.ofNat_toNat _ c).trans (BitVec.setWidth_eq c)⟩

/-! ### The nodes (R148 to R150) -/

theorem getElem?_eq_some_nodeAt {node : List Node} {i : Nat} (h : i < node.length) : node[i]? = some (nodeAt node i) := by
  simp [nodeAt, h]

theorem Combining.leaves_isPrefix {L : List Node} {a : Arena} (h : Combining L a) : L <+: a.node := by
  refine List.prefix_iff_getElem?.2 fun i hi => ?_
  rw [getElem?_eq_some_nodeAt (hi.trans_le h.atLeast), h.leaves i hi, ← getElem?_eq_some_nodeAt hi, List.getElem?_eq_getElem hi]

/-- The leaves are the first nodes of the tree, in the order of their symbols. -/
theorem leavesOf_prefix_buildTree {freq : Memory Word} (hm : Memory.wf Config.nsym 0#32 freq) (hneg : negativeEntry freq = none) :
    leavesOf freq <+: (buildTree freq).1 := by
  rcases buildTree_cases hm hneg with ⟨hl, -⟩ | ⟨l, hl, hb⟩ | ⟨-, a, hc, -, hb⟩
  · rw [hl]; exact List.nil_prefix
  · rw [hl, hb]; exact List.prefix_append [l] [syntheticRoot [l]]
  · rw [hb]; exact hc.leaves_isPrefix

theorem buildTree_of_keysOf_nil {freq : Memory Word} (h : keysOf freq = []) : buildTree freq = ([], none, []) := by
  rw [List.map_eq_nil_iff.1 h]
  rfl

theorem buildTree_of_keysOf_singleton {t : Tables} (hm : MemOk t) (hneg : negativeEntry t.freq = none) {c : Symbol}
    (h : keysOf t.freq = [c]) : buildTree t.freq = ([t.keyLeaf c, syntheticRoot [t.keyLeaf c]], some 1, [0]) := by
  rw [buildTree_eq_finishTree hm.1 hneg, leavesOf_eq_map_keyLeaf hm, h]
  rfl

/-- Over two or more leaves there are `2k - 1` nodes, and the root is the last of them (R148). -/
theorem length_buildTree {freq : Memory Word} (hm : Memory.wf Config.nsym 0#32 freq) (hneg : negativeEntry freq = none)
    (h2 : 2 ≤ (leavesOf freq).length) : (buildTree freq).1.length = 2 * (leavesOf freq).length - 1 ∧
      (buildTree freq).2.1 = some (2 * (leavesOf freq).length - 2) := by
  rw [buildTree_eq_finishTree hm hneg]
  obtain ⟨a, hc, hq, hb⟩ := finishTree_of_two_le (leafList_leavesOf hm) h2
  have hsize := hc.size
  rw [hq, List.length_singleton] at hsize
  rw [hb]
  have hlen : a.node.length = 2 * (leavesOf freq).length - 1 := by omega
  exact ⟨hlen, congrArg some (by omega)⟩

/-! ### BUILD completes (R142) -/

theorem exec_build_of_freqValid {s : State} (hm : MemOk s.tab) (hv : FreqValid s.tab) :
    exec .build (s.accepted .build) = .next (s.accepted .build).build := by
  obtain ⟨hneg, hsum⟩ := valid_of_freqValid hm hv
  rcases execBuild_cases (s.accepted .build) with ⟨sym, h, -⟩ | ⟨-, h, -⟩ | ⟨-, -, h⟩
  · exact absurd (hneg.symm.trans h) nofun
  · exact absurd hsum (not_le.2 h)
  · exact h

theorem build_accepted (s : State) : (s.accepted .build).build = { s with
    status := s.status.afterDone false
    tab := ⟨s.tab.freq, (buildTree s.tab.freq).1, (buildTree s.tab.freq).2.1, (buildTree s.tab.freq).1.length, [], 0⟩
    work := { s.work.idle with op := 0x02#8 }
    env := s.env.closed } := rfl

end Sys2Proof.Machine

open Sys2Proof Sys2Proof.Machine

/-- Settles O46: the keys are the listed symbols, and the tree over their leaves is BUILD's. -/
theorem buildMakesOneLeafPerKey : Obligations.BuildMakesOneLeafPerKey := by
  intro s hm hv
  obtain ⟨hneg, hsum⟩ := valid_of_freqValid hm hv
  refine ⟨(buildTree s.tab.freq).1, (buildTree s.tab.freq).2.1, keysOf s.tab.freq,
    (exec_build_of_freqValid hm hv).trans (congrArg _ (build_accepted s)), TreeOk_withTree hm hneg hsum,
    pairwise_keysOf hm, mem_keysOf_iff hm hneg, fun j c hj => ?_, fun h0 => ?_, fun c hc => ?_, fun h2 => ?_⟩
  · have hleaf : (leavesOf s.tab.freq)[j]? = some (s.tab.keyLeaf c) := by
      rw [leavesOf_eq_map_keyLeaf hm, List.getElem?_map, hj, Option.map_some]
    obtain ⟨hlt, hget⟩ := List.getElem?_eq_some_iff.1 hleaf
    rw [List.prefix_iff_getElem?.1 (leavesOf_prefix_buildTree hm.1 hneg) j hlt, hget]
    rfl
  · rw [buildTree_of_keysOf_nil (List.length_eq_zero_iff.1 h0)]
    exact ⟨rfl, rfl⟩
  · rw [buildTree_of_keysOf_singleton hm hneg hc]
    exact ⟨rfl, rfl⟩
  · rw [← length_leavesOf] at h2 ⊢
    exact length_buildTree hm.1 hneg h2

end

section
/-! PROOFS. Each node the combine loop makes is over the two that come first in the queue at that moment (R144, R145, R147). -/

namespace Sys2Proof.Machine

open Sys2Proof

/-! ### The queue, read off the nodes -/

theorem mem_childRefs {node : List Node} {r : Option Nat} :
    r ∈ childRefs node ↔ ∃ j < node.length, ∃ b, childOf (nodeAt node j) b = r := by
  simp only [childRefs, List.mem_flatMap, List.mem_cons, List.not_mem_nil, or_false]
  constructor
  · rintro ⟨n, hn, hr⟩
    obtain ⟨j, hj, rfl⟩ := List.getElem_of_mem hn
    rw [← List.getD_eq_getElem _ Node.zero hj] at hr
    rcases hr with rfl | rfl
    · exact ⟨j, hj, false, rfl⟩
    · exact ⟨j, hj, true, rfl⟩
  · rintro ⟨j, hj, b, rfl⟩
    refine ⟨nodeAt node j, nodeAt_mem hj, ?_⟩
    cases b
    · exact .inl rfl
    · exact .inr rfl

/-- The queue of the combine loop holds the nodes that have no parent yet (R144). -/
theorem Combining.inQueue_iff {L : List Node} {a : Arena} (h : Combining L a) {i : Nat} :
    InQueue a.node a.node.length i ↔ i ∈ a.pq := by
  have hchild : (∀ j < a.node.length, ∀ b, childOf (nodeAt a.node j) b ≠ some i) ↔ some i ∉ childRefs a.node := by
    simp [mem_childRefs]
  rw [InQueue, hchild, ← List.count_eq_zero, h.parents]
  constructor
  · rintro ⟨hi, hc⟩
    by_contra hq
    simp [hi, hq] at hc
  · exact fun hq => ⟨h.below i hq, if_neg fun hc => hc.2 hq⟩

/-! ### The choice of a node -/

/-- Node `n` is over the two nodes that came first in the queue when it was made, the first of them on the left (R145). -/
def MadeOfTheTwoLeast (node : List Node) (n : Nat) : Prop :=
  ∃ a b, FirstOf node (InQueue node n) a ∧ FirstOf node (fun i => InQueue node n i ∧ i ≠ a) b ∧ nodeAt node n = innerNode node a b

theorem queueBefore_append {node : List Node} {i j : Nat} (hi : i < node.length) (hj : j < node.length) (ns : List Node) :
    queueBefore (node ++ ns) i j = queueBefore node i j := by
  simp [queueBefore, nodeAt_append_of_lt hi, nodeAt_append_of_lt hj]

theorem inQueue_append {node : List Node} {n : Nat} (hn : n ≤ node.length) (ns : List Node) :
    InQueue (node ++ ns) n = InQueue node n := by
  funext i
  refine propext (and_congr_right fun _ => forall₂_congr fun j hj => ?_)
  rw [nodeAt_append_of_lt (hj.trans_le hn)]

theorem FirstOf.append {node : List Node} {p : Nat → Prop} {a : Nat} (h : FirstOf node p a) (hp : ∀ i, p i → i < node.length)
    (ns : List Node) : FirstOf (node ++ ns) p a :=
  ⟨h.1, fun i hi hne => (queueBefore_append (hp a h.1) (hp i hi) ns).trans (h.2 i hi hne)⟩

/-- A choice made from a queue of nodes that are there stays what it was when more nodes are made. -/
theorem madeOfTheTwoLeast_append {node ns : List Node} {n a b : Nat} (hn : n ≤ node.length) (ha : FirstOf node (InQueue node n) a)
    (hb : FirstOf node (fun i => InQueue node n i ∧ i ≠ a) b) (hnode : nodeAt (node ++ ns) n = innerNode node a b) :
    MadeOfTheTwoLeast (node ++ ns) n := by
  have hlt : ∀ i, InQueue node n i → i < node.length := fun i hi => hi.1.trans_le hn
  refine ⟨a, b, ?_, ?_, hnode.trans (innerNode_append (hlt a ha.1) (hlt b hb.1.1) ns).symm⟩ <;> rw [inQueue_append hn]
  · exact ha.append hlt ns
  · exact hb.append (fun i hi => hlt i hi.1) ns

theorem MadeOfTheTwoLeast.append {node : List Node} {n : Nat} (h : MadeOfTheTwoLeast node n) (hn : n < node.length)
    (ns : List Node) : MadeOfTheTwoLeast (node ++ ns) n := by
  obtain ⟨a, b, ha, hb, hnode⟩ := h
  exact madeOfTheTwoLeast_append hn.le ha hb ((nodeAt_append_of_lt hn ns).trans hnode)

/-! ### The loop -/

/-- Every node from `k` on was made of the two that came first in the queue. -/
def GreedyFrom (k : Nat) (node : List Node) : Prop := ∀ n, k ≤ n → n < node.length → MadeOfTheTwoLeast node n

theorem Combining.step_greedyFrom {L : List Node} {a : Arena} (h : Combining L a) (hq : 1 < a.pq.length) {k : Nat}
    (hg : GreedyFrom k a.node) : GreedyFrom k (combineStep a).node := by
  obtain ⟨x, y, hx, hxfirst, hy, hyx, hyfirst, he⟩ := combineStep_spec h.nodup hq
  rw [he]
  intro n hk hn
  rw [List.length_append, List.length_singleton] at hn
  rcases Nat.lt_succ_iff_lt_or_eq.1 hn with hn | rfl
  · exact (hg n hk hn).append hn _
  · refine madeOfTheTwoLeast_append le_rfl (a := x) (b := y) ?_ ?_ (nodeAt_append_length _ _)
    · exact ⟨h.inQueue_iff.2 hx, fun i hi => hxfirst i (h.inQueue_iff.1 hi)⟩
    · exact ⟨⟨h.inQueue_iff.2 hy, hyx⟩, fun i hi => hyfirst i (h.inQueue_iff.1 hi.1) hi.2⟩

theorem Combining.loop_greedyFrom {L : List Node} {k : Nat} : ∀ (n : Nat) {a : Arena}, Combining L a → GreedyFrom k a.node →
    GreedyFrom k (combineLoop n a).node
  | 0, _, _, hg => hg
  | n + 1, a, h, hg => by
    rw [combineLoop]
    split
    · next hq => exact (h.step hq).1.loop_greedyFrom n (h.step_greedyFrom hq hg)
    · exact hg

/-- After the loop the root is taken out of the queue, and no node changes. -/
theorem finishTree_node {a : Arena} (h2 : 2 ≤ a.node.length) : (finishTree a).1 = (combineLoop a.node.length a).node := by
  obtain ⟨k, hk⟩ := Nat.exists_eq_add_of_le' h2
  simp only [finishTree, hk]
  split
  · rfl
  · next r c hr =>
    obtain ⟨-, -, rfl⟩ := removeMin_spec hr
    rfl

theorem greedyFrom_buildTree {freq : Memory Word} (hm : Memory.wf Config.nsym 0#32 freq) (hneg : negativeEntry freq = none)
    (h2 : 2 ≤ (leavesOf freq).length) : GreedyFrom (leavesOf freq).length (buildTree freq).1 := by
  rw [buildTree_eq_finishTree hm hneg, finishTree_node h2]
  exact (combining_leaves (leafList_leavesOf hm) (by omega)).loop_greedyFrom _ fun n hk hn => absurd hn (Nat.not_lt.2 hk)

/-- The leaves of BUILD's tree are the leaves of its keys (R40 (b)). -/
theorem leafCount_withTree {t : Tables} (hm : MemOk t) (hneg : negativeEntry t.freq = none) :
    leafCount t.withTree = (leavesOf t.freq).length := by
  have hL := leafList_leavesOf hm.1
  rcases buildTree_cases hm.1 hneg with ⟨hl, hb⟩ | ⟨l, hl, hb⟩ | ⟨-, a, hc, -, hb⟩
  · simp [leafCount, hb, hl]
  · have hleaf : l.leaf = true := (hL.leaf l (by simp [hl])).1
    simp [leafCount, hb, hl, syntheticRoot, hleaf]
  · have hn : t.withTree.node = a.node := by simp [hb]
    exact Combining.leafCount hL (q := a.pq) (hn ▸ hc)

end Sys2Proof.Machine

open Sys2Proof Sys2Proof.Machine

/-- Settles O47: the queue of the loop is the nodes without a parent, and each pass takes the first two out of it. -/
theorem buildCombinesTheTwoLeast : Obligations.BuildCombinesTheTwoLeast := by
  intro s t hm hv hexec h2
  obtain ⟨hneg, -⟩ := valid_of_freqValid hm hv
  cases (exec_build_of_freqValid hm hv).symm.trans hexec
  have hk : leafCount (s.accepted .build).build.tab = (leavesOf s.tab.freq).length := leafCount_withTree hm hneg
  rw [hk] at h2 ⊢
  exact ⟨(length_buildTree hm.1 hneg h2).1, greedyFrom_buildTree hm.1 hneg h2⟩

end

section
/-! PROOFS. Paths of the tree, and the list of leaves with their paths that DERIVE walks (R166, R167). -/

namespace Sys2Proof.Machine

open Sys2Proof

variable {node : List Node} {r i j c : Nat} {p q : List Bool} {t : Tables}

/-! ### Paths (R166) -/

theorem pathTo_nil_iff : PathTo node r i [] ↔ i = r := by
  constructor
  · intro h
    generalize hp : ([] : List Bool) = p at h
    cases h with
    | root => rfl
    | child => simp at hp
  · rintro rfl
    exact .root

/-- A path ends with the step from the parent. -/
theorem pathTo_concat_iff {b : Bool} :
    PathTo node r c (p ++ [b]) ↔ ∃ i, PathTo node r i p ∧ childOf (nodeAt node i) b = some c := by
  constructor
  · intro h
    generalize hq : p ++ [b] = q at h
    cases h with
    | root => simp at hq
    | child h hc =>
      obtain ⟨rfl, rfl⟩ := List.append_inj' hq rfl |>.imp_right List.singleton_inj.1
      exact ⟨_, h, hc⟩
  · rintro ⟨i, h, hc⟩
    exact .child h hc

theorem pathTo_append_iff : PathTo node r j (p ++ q) ↔ ∃ i, PathTo node r i p ∧ PathTo node i j q := by
  induction q using List.reverseRecOn generalizing j with
  | nil => simp [pathTo_nil_iff]
  | append_singleton q b ih =>
    simp only [← List.append_assoc, pathTo_concat_iff, ih]
    exact ⟨fun ⟨k, ⟨i, hp, hq⟩, hc⟩ => ⟨i, hp, k, hq, hc⟩, fun ⟨i, hp, k, hq, hc⟩ => ⟨k, ⟨i, hp, hq⟩, hc⟩⟩

/-- A path begins with the step to a child. -/
theorem pathTo_cons_iff {b : Bool} :
    PathTo node r j (b :: q) ↔ ∃ c, childOf (nodeAt node r) b = some c ∧ PathTo node c j q := by
  rw [← List.singleton_append, pathTo_append_iff]
  have hsingle : ∀ c, PathTo node r c [b] ↔ childOf (nodeAt node r) b = some c := fun c => by
    rw [← List.nil_append [b], pathTo_concat_iff]
    simp [pathTo_nil_iff]
  simp only [hsingle]

/-- A path leads to one node. -/
theorem PathTo.endpoint_unique (hi : PathTo node r i p) (hj : PathTo node r j p) : i = j := by
  induction hi generalizing j with
  | root => exact (pathTo_nil_iff.1 hj).symm
  | child _ hc ih =>
    obtain ⟨i', hi', hc'⟩ := pathTo_concat_iff.1 hj
    rw [ih hi', hc'] at hc
    exact (Option.some.inj hc).symm

/-! ### Trees that satisfy R40 -/

theorem TreeOk.root_eq (ht : TreeOk t) (hr : t.root = some r) : 0 < t.nnodes ∧ r = t.nnodes - 1 := by
  have hpos : 0 < t.nnodes := by
    rcases ht.sizes with ⟨-, hroot⟩ | ⟨h2, -⟩ | ⟨h2, hsize⟩
    · exact absurd (hr.symm.trans hroot) nofun
    · omega
    · omega
  exact ⟨hpos, Option.some.inj (hr.symm.trans (ht.rootLast hpos))⟩

theorem TreeOk.root_lt (ht : TreeOk t) (hr : t.root = some r) : r < t.nnodes := by
  obtain ⟨hpos, rfl⟩ := ht.root_eq hr
  omega

/-- With no leaf there is no node. -/
theorem TreeOk.root_isSome (ht : TreeOk t) (hi : i < leafCount t) : ∃ r, t.root = some r := by
  refine ⟨_, ht.rootLast ?_⟩
  rcases ht.sizes with ⟨hn, -⟩ | ⟨h2, -⟩ | ⟨h2, hsize⟩
  · have hnil : t.node = [] := List.length_eq_zero_iff.1 (ht.held.symm.trans hn)
    simp [leafCount, hnil] at hi
  · omega
  · omega

theorem TreeOk.leafCount_le (ht : TreeOk t) : leafCount t ≤ t.nnodes := ht.held ▸ List.length_filter_le _ _

/-- The leaves are the nodes of index below `k` (R40 (b)). -/
theorem TreeOk.leaf_iff (ht : TreeOk t) : (nodeAt t.node i).leaf = true ↔ i < leafCount t := by
  by_cases hi : i < t.nnodes
  · exact ht.leavesFirst i hi
  · have hzero : nodeAt t.node i = Node.zero := by simp [nodeAt, ← ht.held, Nat.not_lt.1 hi]
    have hle := ht.leafCount_le
    rw [hzero]
    exact ⟨nofun, fun h => absurd (h.trans_le hle) hi⟩

theorem TreeOk.childOf_leaf (ht : TreeOk t) (hi : i < leafCount t) (b : Bool) : childOf (nodeAt t.node i) b = none := by
  obtain ⟨hleft, hright⟩ := ht.leafChildless i hi
  cases b
  · exact hleft
  · exact hright

/-- A leaf has no descendants (R40 (g)). -/
theorem TreeOk.pathTo_of_leaf (ht : TreeOk t) (hi : i < leafCount t) (h : PathTo t.node i j p) : p = [] := by
  cases p with
  | nil => rfl
  | cons b p =>
    obtain ⟨c, hc, -⟩ := pathTo_cons_iff.1 h
    exact absurd ((ht.childOf_leaf hi b).symm.trans hc) nofun

/-- Different leaves hold different symbols (R40 (b)). -/
theorem TreeOk.leaf_ext (ht : TreeOk t) (hi : i < leafCount t) (hj : j < leafCount t)
    (h : (nodeAt t.node i).sym = (nodeAt t.node j).sym) : i = j := by
  rcases lt_trichotomy i j with hlt | heq | hlt
  · exact absurd (ht.leafOrder j hj i hlt) (by simp [h])
  · exact heq
  · exact absurd (ht.leafOrder i hi j hlt) (by simp [h])

/-- No leaf is the root (R169). -/
theorem TreeOk.leaf_path_ne_nil (ht : TreeOk t) (hr : t.root = some r) (hi : i < leafCount t) (h : PathTo t.node r i p) :
    p ≠ [] := by
  rintro rfl
  obtain ⟨hpos, hroot⟩ := ht.root_eq hr
  have hir := pathTo_nil_iff.1 h
  rcases ht.sizes with ⟨hn, -⟩ | ⟨hn, h1⟩ | ⟨h2, hsize⟩ <;> omega

/-! ### One parent, one path (R40 (e)) -/

/-- The references of node `i` stand at positions `2i` and `2i + 1`. -/
theorem childRefs_getElem? (h : i < node.length) (b : Bool) :
    (childRefs node)[2 * i + b.toNat]? = some (childOf (nodeAt node i) b) := by
  induction node generalizing i with
  | nil => exact absurd h (Nat.not_lt_zero i)
  | cons n ns ih =>
    have hcons : childRefs (n :: ns) = n.left :: n.right :: childRefs ns := rfl
    cases i with
    | zero => cases b <;> rfl
    | succ i =>
      have hidx : 2 * (i + 1) + b.toNat = 2 * i + b.toNat + 1 + 1 := by omega
      rw [hcons, hidx]
      exact ih (Nat.lt_of_succ_lt_succ h)

/-- What occurs once in a list stands at one position. -/
theorem position_unique_of_count_eq_one {α : Type} [BEq α] [LawfulBEq α] {l : List α} {x : α} (h : l.count x = 1) {m n : Nat}
    (hm : l[m]? = some x) (hn : l[n]? = some x) : m = n := by
  have hdup : ¬ l.Duplicate x := fun hd => by
    have htwo : 2 ≤ l.count x := List.replicate_sublist_iff.1 (List.duplicate_iff_sublist.1 hd)
    omega
  have key : ∀ {m n : Nat}, l[m]? = some x → l[n]? = some x → ¬ m < n := fun {m n} hm hn hlt => by
    obtain ⟨hm', hxm⟩ := List.getElem?_eq_some_iff.1 hm
    obtain ⟨hn', hxn⟩ := List.getElem?_eq_some_iff.1 hn
    exact hdup (List.duplicate_iff_exists_distinct_get.2 ⟨⟨m, hm'⟩, ⟨n, hn'⟩, hlt, hxm.symm, hxn.symm⟩)
  exact Nat.le_antisymm (Nat.not_lt.1 (key hn hm)) (Nat.not_lt.1 (key hm hn))

theorem TreeOk.parent_unique (ht : TreeOk t) (hi : i < t.nnodes) (hj : j < t.nnodes) {b b' : Bool}
    (hb : childOf (nodeAt t.node i) b = some c) (hb' : childOf (nodeAt t.node j) b' = some c) : i = j ∧ b = b' := by
  have hci := ht.childBelow i hi b c hb
  have h := position_unique_of_count_eq_one (ht.oneParent c (by omega)) (hb ▸ childRefs_getElem? (ht.held ▸ hi) b)
    (hb' ▸ childRefs_getElem? (ht.held ▸ hj) b')
  have hb2 := Bool.toNat_lt b
  have hb2' := Bool.toNat_lt b'
  have hbit : ∀ b b' : Bool, b.toNat = b'.toNat → b = b' := by decide
  exact ⟨by omega, hbit b b' (by omega)⟩

/-- Every node has at most one path (R166). -/
theorem TreeOk.path_unique (ht : TreeOk t) (hr : t.root = some r) (hp : PathTo t.node r i p) (hq : PathTo t.node r i q) :
    p = q := by
  have hlt := ht.root_lt hr
  induction hp generalizing q with
  | root =>
    have := PathTo_length ht hlt hq
    exact (List.eq_nil_of_length_eq_zero (by omega)).symm
  | @child i c p b hp hc ih =>
    have hi := PathTo_length ht hlt hp
    have hci := ht.childBelow i (by omega) b c hc
    cases q using List.reverseRecOn with
    | nil => exact absurd (pathTo_nil_iff.1 hq) (by omega)
    | append_singleton q b' =>
      obtain ⟨j, hj, hc'⟩ := pathTo_concat_iff.1 hq
      have hjlen := PathTo_length ht hlt hj
      obtain ⟨rfl, rfl⟩ := ht.parent_unique (by omega) (by omega) hc hc'
      rw [ih hj]

/-- Every node has a path (R166). -/
theorem TreeOk.exists_path (ht : TreeOk t) (hr : t.root = some r) : ∀ i < t.nnodes, ∃ p, PathTo t.node r i p := by
  obtain ⟨hpos, hroot⟩ := ht.root_eq hr
  intro i
  induction h : t.nnodes - i using Nat.strong_induction_on generalizing i with
  | _ n ih =>
    intro hi
    by_cases hlast : i = r
    · exact ⟨[], pathTo_nil_iff.2 hlast⟩
    · have hmem : some i ∈ childRefs t.node := List.count_pos_iff.1 (by rw [ht.oneParent i (by omega)]; omega)
      obtain ⟨j, hj, b, hc⟩ := mem_childRefs.1 hmem
      rw [← ht.held] at hj
      have hij := ht.childBelow j hj b i hc
      obtain ⟨p, hp⟩ := ih (t.nnodes - j) (by omega) j rfl hj
      exact ⟨p ++ [b], .child hp hc⟩

/-- A leaf's path is no initial part of another leaf's (R171). -/
theorem TreeOk.leaf_eq_of_path_append (ht : TreeOk t) (hi : i < leafCount t) (hp : PathTo t.node r i p)
    (hq : PathTo t.node r j (p ++ q)) : i = j := by
  obtain ⟨k, hk, hkj⟩ := pathTo_append_iff.1 hq
  obtain rfl := hp.endpoint_unique hk
  obtain rfl := ht.pathTo_of_leaf hi hkj
  exact (pathTo_nil_iff.1 hkj).symm

/-! ### The walk over the leaves (R167) -/

/-- The leaves that the walk finds below the child of node `i` that `b` selects. -/
def leafPathsBelow (node : List Node) (fuel i : Nat) (p : List Bool) (b : Bool) : List (Nat × List Bool) :=
  match childOf (nodeAt node i) b with
  | none => []
  | some c => leafPathsFrom node fuel c (p ++ [b])

theorem leafPathsFrom_of_leaf {fuel : Nat} (h : (nodeAt node i).leaf = true) : leafPathsFrom node (fuel + 1) i p = [(i, p)] :=
  if_pos h

theorem leafPathsFrom_of_inner {fuel : Nat} (h : ¬ (nodeAt node i).leaf = true) :
    leafPathsFrom node (fuel + 1) i p = leafPathsBelow node fuel i p false ++ leafPathsBelow node fuel i p true :=
  if_neg h

theorem mem_leafPathsBelow {fuel : Nat} {b : Bool} {x : Nat × List Bool} :
    x ∈ leafPathsBelow node fuel i p b ↔
      ∃ c, childOf (nodeAt node i) b = some c ∧ x ∈ leafPathsFrom node fuel c (p ++ [b]) := by
  unfold leafPathsBelow
  split
  · next h => simp [h]
  · next h => simp [h]

theorem mem_leafPathsFrom_of_inner {fuel : Nat} {x : Nat × List Bool} (h : ¬ (nodeAt node i).leaf = true) :
    x ∈ leafPathsFrom node (fuel + 1) i p ↔
      ∃ b c, childOf (nodeAt node i) b = some c ∧ x ∈ leafPathsFrom node fuel c (p ++ [b]) := by
  rw [leafPathsFrom_of_inner h, List.mem_append, mem_leafPathsBelow, mem_leafPathsBelow, Bool.exists_bool]

/-- The walk finds the leaves below a node, each with its path from there behind the node's own. -/
theorem TreeOk.mem_leafPathsFrom (ht : TreeOk t) {x : Nat × List Bool} : ∀ {fuel i : Nat} {p : List Bool},
    x ∈ leafPathsFrom t.node fuel i p ↔
      x.1 < leafCount t ∧ ∃ q, q.length < fuel ∧ PathTo t.node i x.1 q ∧ x.2 = p ++ q
  | 0, i, p => by simp [leafPathsFrom]
  | fuel + 1, i, p => by
    by_cases hleaf : (nodeAt t.node i).leaf = true
    · have hi := ht.leaf_iff.1 hleaf
      rw [leafPathsFrom_of_leaf hleaf, List.mem_singleton]
      constructor
      · rintro rfl
        exact ⟨hi, [], Nat.succ_pos _, .root, (List.append_nil p).symm⟩
      · rintro ⟨-, q, -, hq, hx⟩
        obtain rfl := ht.pathTo_of_leaf hi hq
        exact Prod.ext (pathTo_nil_iff.1 hq) (hx.trans (List.append_nil p))
    · rw [mem_leafPathsFrom_of_inner hleaf]
      constructor
      · rintro ⟨b, c, hc, hx⟩
        obtain ⟨hlt, q, hlen, hq, heq⟩ := ht.mem_leafPathsFrom.1 hx
        exact ⟨hlt, b :: q, Nat.succ_lt_succ hlen, pathTo_cons_iff.2 ⟨c, hc, hq⟩, by rw [heq, List.append_assoc]; rfl⟩
      · rintro ⟨hlt, q, hlen, hq, heq⟩
        cases q with
        | nil => exact absurd (ht.leaf_iff.2 (pathTo_nil_iff.1 hq ▸ hlt)) hleaf
        | cons b q =>
          obtain ⟨c, hc, hq⟩ := pathTo_cons_iff.1 hq
          exact ⟨b, c, hc, ht.mem_leafPathsFrom.2 ⟨hlt, q, Nat.lt_of_succ_lt_succ hlen, hq, by rw [heq, List.append_assoc]; rfl⟩⟩

/-- The walk comes to no path twice. -/
theorem TreeOk.nodup_paths_leafPathsFrom (ht : TreeOk t) : ∀ {fuel i : Nat} {p : List Bool},
    ((leafPathsFrom t.node fuel i p).map (·.2)).Nodup
  | 0, i, p => List.nodup_nil
  | fuel + 1, i, p => by
    by_cases hleaf : (nodeAt t.node i).leaf = true
    · rw [leafPathsFrom_of_leaf hleaf]
      exact List.nodup_singleton p
    · have hbelow : ∀ b, ((leafPathsBelow t.node fuel i p b).map (·.2)).Nodup := fun b => by
        unfold leafPathsBelow
        split
        · exact List.nodup_nil
        · exact ht.nodup_paths_leafPathsFrom
      have hstart : ∀ b, ∀ u ∈ (leafPathsBelow t.node fuel i p b).map (·.2), ∃ q, u = p ++ [b] ++ q := fun b u hu => by
        obtain ⟨x, hx, rfl⟩ := List.mem_map.1 hu
        obtain ⟨c, -, hx⟩ := mem_leafPathsBelow.1 hx
        obtain ⟨-, q, -, -, heq⟩ := ht.mem_leafPathsFrom.1 hx
        exact ⟨q, heq⟩
      rw [leafPathsFrom_of_inner hleaf, List.map_append]
      refine List.nodup_append'.2 ⟨hbelow false, hbelow true, fun u hfalse htrue => ?_⟩
      obtain ⟨q, rfl⟩ := hstart false u hfalse
      obtain ⟨q', hq'⟩ := hstart true _ htrue
      simp at hq'

theorem TreeOk.mem_leafPaths (ht : TreeOk t) :
    (i, p) ∈ leafPaths t.node t.root ↔ i < leafCount t ∧ ∃ r, t.root = some r ∧ PathTo t.node r i p := by
  unfold leafPaths
  split
  · next h => simp [h]
  · next r h =>
    rw [ht.mem_leafPathsFrom]
    constructor
    · rintro ⟨hi, q, -, hq, rfl⟩
      exact ⟨hi, r, h, hq⟩
    · rintro ⟨hi, r', hr', hp⟩
      cases h.symm.trans hr'
      have hlen := PathTo_length ht (ht.root_lt h) hp
      have hlt := ht.root_lt h
      exact ⟨hi, p, by rw [← ht.held]; omega, hp, rfl⟩

/-- The walk comes to every leaf once. -/
theorem TreeOk.leafPaths_perm (ht : TreeOk t) : ((leafPaths t.node t.root).map (·.1)).Perm (List.range (leafCount t)) := by
  have hpaths : ((leafPaths t.node t.root).map (·.2)).Nodup := by
    unfold leafPaths
    split
    · exact List.nodup_nil
    · exact ht.nodup_paths_leafPathsFrom
  have hone : ∀ x ∈ leafPaths t.node t.root, ∀ y ∈ leafPaths t.node t.root, x.1 = y.1 → x = y := by
    rintro ⟨i, p⟩ hx ⟨j, q⟩ hy (rfl : i = j)
    obtain ⟨-, r, hr, hp⟩ := ht.mem_leafPaths.1 hx
    obtain ⟨-, r', hr', hq⟩ := ht.mem_leafPaths.1 hy
    cases hr.symm.trans hr'
    rw [ht.path_unique hr hp hq]
  refine (List.perm_ext_iff_of_nodup (hpaths.of_map.map_on hone) List.nodup_range).2 fun i => ?_
  rw [List.mem_range, List.mem_map]
  constructor
  · rintro ⟨⟨i, p⟩, hx, rfl⟩
    exact (ht.mem_leafPaths.1 hx).1
  · intro hi
    obtain ⟨r, hr⟩ := ht.root_isSome hi
    obtain ⟨p, hp⟩ := ht.exists_path hr i (hi.trans_le ht.leafCount_le)
    exact ⟨(i, p), ht.mem_leafPaths.2 ⟨hi, r, hr, hp⟩, rfl⟩

theorem TreeOk.length_leafPaths (ht : TreeOk t) : (leafPaths t.node t.root).length = leafCount t := by
  simpa using ht.leafPaths_perm.length_eq

end Sys2Proof.Machine

end

section
/-! PROOFS. The entries DERIVE records, the fault of a too deep leaf, and the ends of the command (R165, R168 to R172). -/

namespace Sys2Proof.Machine

open Sys2Proof

variable {node : List Node} {r i a : Nat} {p : List Bool} {t : Tables} {maxlen : Nat}

/-! ### Entries (R41, R165) -/

theorem testBit_bitsValue : ∀ (p : List Bool) (j : Nat), (bitsValue p).testBit j = p.getD j false
  | [], j => by simp [bitsValue]
  | b :: p, 0 => by cases b <;> simp [bitsValue, Nat.testBit_zero]
  | b :: p, j + 1 => by
    have hhalf : (b.toNat + 2 * bitsValue p) / 2 = bitsValue p := by have := Bool.toNat_lt b; omega
    rw [bitsValue, Nat.testBit_add_one, hhalf, testBit_bitsValue p j, List.getD_cons_succ]

theorem getLsbD_ofPath (h : p.length ≤ Config.maxlen) (j : Nat) : (CodeEntry.ofPath p).bits.getLsbD j = p.getD j false := by
  rw [CodeEntry.ofPath, BitVec.getLsbD_ofNat, testBit_bitsValue]
  by_cases hj : j < Config.maxlen
  · simp [hj]
  · simp [hj, List.getElem?_eq_none (h.trans (Nat.not_lt.1 hj))]

theorem path_ofPath (h : p.length ≤ Config.maxlen) : (CodeEntry.ofPath p).path = p := by
  refine List.ext_getElem (CodeEntry_path_length _) fun j _ hj => ?_
  simp only [CodeEntry.path, List.getElem_map, List.getElem_range]
  rw [getLsbD_ofPath h, List.getD_eq_getElem _ _ hj]

/-! ### The table of a list of leaves (R165) -/

theorem read_codeTable_concat (ps : List (Nat × List Bool)) (x : Nat × List Bool) :
    Memory.read CodeEntry.empty (codeTable node (ps ++ [x])) a =
      if a = (nodeAt node x.1).sym.toNat then CodeEntry.ofPath x.2 else Memory.read CodeEntry.empty (codeTable node ps) a := by
  rw [codeTable, List.foldl_append]
  exact Memory_read_write (codeTable_wf node ps)

theorem read_codeTable_of_forall_ne (ps : List (Nat × List Bool)) (h : ∀ x ∈ ps, (nodeAt node x.1).sym.toNat ≠ a) :
    Memory.read CodeEntry.empty (codeTable node ps) a = CodeEntry.empty := by
  induction ps using List.reverseRecOn with
  | nil => rfl
  | append_singleton ps x ih =>
    rw [read_codeTable_concat, if_neg (h x (by simp)).symm]
    exact ih fun y hy => h y (List.mem_append_left _ hy)

/-- A listed leaf has its path in the table, if no listed leaf with its symbol has another path. -/
theorem read_codeTable_of_mem {x : Nat × List Bool} (ps : List (Nat × List Bool)) (hx : x ∈ ps)
    (hone : ∀ y ∈ ps, (nodeAt node y.1).sym = (nodeAt node x.1).sym → y.2 = x.2) :
    Memory.read CodeEntry.empty (codeTable node ps) (nodeAt node x.1).sym.toNat = CodeEntry.ofPath x.2 := by
  induction ps using List.reverseRecOn with
  | nil => simp at hx
  | append_singleton ps y ih =>
    rw [read_codeTable_concat]
    split
    · next h => rw [hone y (by simp) (BitVec.eq_of_toNat_eq h.symm)]
    · next h =>
      rcases List.mem_append.1 hx with hx | hx
      · exact ih hx fun z hz => hone z (List.mem_append_left _ hz)
      · rw [List.mem_singleton.1 hx] at h
        exact absurd rfl h

/-- Each leaf's symbol gets the leaf's path (R165, R166). -/
theorem TreeOk.codeAt_withCodes_leaf (ht : TreeOk t) (hr : t.root = some r) (hi : i < leafCount t) (hp : PathTo t.node r i p) :
    t.withCodes.codeAt (nodeAt t.node i).sym = CodeEntry.ofPath p := by
  refine read_codeTable_of_mem (x := (i, p)) _ (ht.mem_leafPaths.2 ⟨hi, r, hr, hp⟩) ?_
  rintro ⟨j, q⟩ hy hsym
  obtain ⟨hj, r', hr', hq⟩ := ht.mem_leafPaths.1 hy
  cases hr.symm.trans hr'
  obtain rfl : j = i := ht.leaf_ext hj hi hsym
  exact ht.path_unique hr hq hp

theorem TreeOk.exists_leaf_code (ht : TreeOk t) (hi : i < leafCount t) : ∃ r p, t.root = some r ∧ PathTo t.node r i p ∧
    t.withCodes.codeAt (nodeAt t.node i).sym = CodeEntry.ofPath p := by
  obtain ⟨r, hr⟩ := ht.root_isSome hi
  obtain ⟨p, hp⟩ := ht.exists_path hr i (hi.trans_le ht.leafCount_le)
  exact ⟨r, p, hr, hp, ht.codeAt_withCodes_leaf hr hi hp⟩

/-- No other symbol has a code (R165, R168). -/
theorem TreeOk.codeAt_withCodes_other (ht : TreeOk t) {c : Symbol} (h : ∀ i < leafCount t, (nodeAt t.node i).sym ≠ c) :
    t.withCodes.codeAt c = CodeEntry.empty := by
  refine read_codeTable_of_forall_ne _ ?_
  rintro ⟨i, p⟩ hx hsym
  exact h i (ht.mem_leafPaths.1 hx).1 (BitVec.eq_of_toNat_eq hsym)

/-- The symbols with codes are those of the leaves (R171). -/
theorem TreeOk.codeAt_withCodes_len_pos_iff (ht : TreeOk t) {c : Symbol} :
    0 < (t.withCodes.codeAt c).len ↔ ∃ i < leafCount t, (nodeAt t.node i).sym = c := by
  constructor
  · intro hpos
    by_contra hno
    rw [ht.codeAt_withCodes_other fun i hi hsym => hno ⟨i, hi, hsym⟩] at hpos
    exact absurd hpos (Nat.not_lt_zero 0)
  · rintro ⟨i, hi, rfl⟩
    obtain ⟨r, p, hr, hp, hcode⟩ := ht.exists_leaf_code hi
    rw [hcode]
    exact List.length_pos_of_ne_nil (ht.leaf_path_ne_nil hr hi hp)

/-! ### Leaves that are too deep (R170) -/

theorem TreeOk.mem_tooLong (ht : TreeOk t) (hr : t.root = some r) :
    i ∈ tooLong maxlen (leafPaths t.node t.root) ↔ i < leafCount t ∧ ∃ p, PathTo t.node r i p ∧ maxlen < p.length := by
  simp only [tooLong, List.mem_map, List.mem_filter, decide_eq_true_eq]
  constructor
  · rintro ⟨⟨i, p⟩, ⟨hx, hlen⟩, rfl⟩
    obtain ⟨hi, r', hr', hp⟩ := ht.mem_leafPaths.1 hx
    cases hr.symm.trans hr'
    exact ⟨hi, p, hp, hlen⟩
  · rintro ⟨hi, p, hp, hlen⟩
    exact ⟨(i, p), ⟨ht.mem_leafPaths.2 ⟨hi, r, hr, hp⟩, hlen⟩, rfl⟩

theorem TreeOk.codeLenFault_eq_none_iff (ht : TreeOk t) : codeLenFault maxlen t = none ↔
    ∀ r i p, t.root = some r → i < leafCount t → PathTo t.node r i p → p.length ≤ maxlen := by
  rw [codeLenFault, Option.map_eq_none_iff, List.min?_eq_none_iff, tooLong, List.map_eq_nil_iff, List.filter_eq_nil_iff]
  constructor
  · intro h r i p hr hi hp
    simpa using h (i, p) (ht.mem_leafPaths.2 ⟨hi, r, hr, hp⟩)
  · rintro h ⟨i, p⟩ hx
    obtain ⟨hi, r, hr, hp⟩ := ht.mem_leafPaths.1 hx
    simpa using h r i p hr hi hp

/-- The leaf that is reported is the least of those that are too deep. -/
theorem codeLenFault_of_least {m : Nat} (hm : m ∈ tooLong maxlen (leafPaths t.node t.root))
    (hleast : ∀ i ∈ tooLong maxlen (leafPaths t.node t.root), m ≤ i) : codeLenFault maxlen t = some (nodeAt t.node m).sym := by
  rw [codeLenFault, List.min?_eq_some_iff.2 ⟨hm, hleast⟩, Option.map_some]

/-- A code that starts another is that code's own symbol's, as one leaf's path goes through no other leaf (R171). -/
theorem TreeOk.eq_of_path_isPrefix (ht : TreeOk t) (hnone : codeLenFault Config.maxlen t = none) {c d : Symbol}
    (hc : 0 < (t.withCodes.codeAt c).len) (hd : 0 < (t.withCodes.codeAt d).len)
    (hstart : (t.withCodes.codeAt c).path <+: (t.withCodes.codeAt d).path) : c = d := by
  obtain ⟨i, hi, rfl⟩ := ht.codeAt_withCodes_len_pos_iff.1 hc
  obtain ⟨j, hj, rfl⟩ := ht.codeAt_withCodes_len_pos_iff.1 hd
  obtain ⟨r, p, hr, hp, hpcode⟩ := ht.exists_leaf_code hi
  obtain ⟨r', q, hr', hq, hqcode⟩ := ht.exists_leaf_code hj
  cases hr.symm.trans hr'
  have hfit := ht.codeLenFault_eq_none_iff.1 hnone
  rw [hpcode, hqcode, path_ofPath (hfit r i p hr hi hp), path_ofPath (hfit r j q hr hj hq)] at hstart
  obtain ⟨w, rfl⟩ := hstart
  rw [ht.leaf_eq_of_path_append hi hp hq]

/-! ### The ends of DERIVE -/

theorem exec_derive_of_fault {s : State} {c : Symbol} (h : codeLenFault Config.maxlen s.tab = some c) :
    exec .derive s = .next ((s.withTab s.tab.emptyCode).takeFault .codeLen c.zext) := by
  rcases execDerive_cases s with ⟨c', hc', he⟩ | ⟨hn, -⟩
  · cases h.symm.trans hc'
    exact he
  · exact absurd (h.symm.trans hn) nofun

theorem exec_derive_of_none {s : State} (h : codeLenFault Config.maxlen s.tab = none) :
    exec .derive s = .next (s.withTab s.tab.withCodes).complete := by
  rcases execDerive_cases s with ⟨c, hc, -⟩ | ⟨-, he⟩
  · exact absurd (h.symm.trans hc) nofun
  · exact he

/-- DERIVE has completed only where no leaf is too deep. -/
theorem codeLenFault_eq_none_of_done {s u : State} (h : exec .derive s = .next u) (hdone : u.status.done = true) :
    codeLenFault Config.maxlen s.tab = none := by
  cases hc : codeLenFault Config.maxlen s.tab with
  | none => rfl
  | some c =>
    cases (exec_derive_of_fault hc).symm.trans h
    exact absurd hdone nofun

end Sys2Proof.Machine

open Sys2Proof Sys2Proof.Machine

/-- Settles O49: no leaf is too deep, so DERIVE ends with the table of the leaves its walk finds, each with its one path. -/
theorem deriveStoresEveryLeafPath : Obligations.DeriveStoresEveryLeafPath := by
  intro s ht hdeep
  have hfit : ∀ r i p, s.tab.root = some r → i < leafCount s.tab → PathTo s.tab.node r i p → p.length ≤ Config.maxlen :=
    fun r i p hr hi => hdeep r i p hr (ht.leaf_iff.2 hi)
  have hnone : codeLenFault Config.maxlen (s.accepted .derive).tab = none := ht.codeLenFault_eq_none_iff.2 hfit
  refine ⟨s.tab.withCodes.code, codeTable_wf _ _, ?_, fun i hi => ?_, fun c hc => ht.codeAt_withCodes_other hc⟩
  · rw [exec_derive_of_none hnone, ← ht.length_leafPaths]
    rfl
  · obtain ⟨r, p, hr, hp, hcode⟩ := ht.exists_leaf_code hi
    rw [Tables.codeAt] at hcode
    rw [hcode]
    exact ⟨r, p, hr, hp, rfl, getLsbD_ofPath (hfit r i p hr hi hp)⟩

/-- Settles O50: the least of the leaves that are too deep is the one below which every leaf fits. -/
theorem deriveRejectsTooDeepLeaves : Obligations.DeriveRejectsTooDeepLeaves := by
  constructor
  · intro maxlen t r m p ht hr hleaf hp hlen hbelow
    refine codeLenFault_of_least ((ht.mem_tooLong hr).2 ⟨ht.leaf_iff.1 hleaf, p, hp, hlen⟩) fun i hi => ?_
    obtain ⟨hik, q, hq, hqlen⟩ := (ht.mem_tooLong hr).1 hi
    by_contra hlt
    exact absurd (hbelow i (Nat.not_le.1 hlt) q (ht.leaf_iff.2 hik) hq) (Nat.not_le.2 hqlen)
  · intro s c hc
    exact exec_derive_of_fault (s := s.accepted .derive) hc

/-- Settles O51: DERIVE has completed with the codes of the tree, and a code that starts another is of the same symbol. -/
theorem derivedCodesArePrefixFree : Obligations.DerivedCodesArePrefixFree := by
  intro s u ht hexec hdone
  have hnone := codeLenFault_eq_none_of_done hexec hdone
  cases (exec_derive_of_none hnone).symm.trans hexec
  exact ⟨ht.length_leafPaths, fun _ => ht.codeAt_withCodes_len_pos_iff,
    fun c d hne hc hd hstart => hne (ht.eq_of_path_isPrefix hnone hc hd hstart)⟩

end

section
/-! PROOFS. The end of ENCODE: `Flush`, then `end` (R180, R184); and the padding bits of what it writes (R78). -/

namespace Sys2Proof.Machine

open Sys2Proof

variable {s u : State} {g0 : List (List (Taken ByteTok))} {out : List Bool}

/-! ### Padding bits (R78) -/

/-- The padding bits of a byte token are 0. -/
def PadClear (t : ByteTok) : Prop := ∀ i < t.p.toNat, t.d.getLsbD i = false

/-- The part of the bit buffer that is not filled is 0, and so are the padding bits of every byte in the latest stream on `BOUT`. -/
structure PadsClear (u : State) : Prop where
  buf : ∀ i < 8 - u.work.bitcnt, u.work.bitbuf.getLsbD i = false
  taken : ∀ x ∈ u.env.bout.got.headD [], ∀ t, x.tok = .data t → PadClear t

theorem padsClear_accepted (s : State) : PadsClear (s.accepted .encode) := ⟨fun _ _ => BitVec.getLsbD_zero, nofun⟩

theorem PadsClear.goto (h : PadsClear u) (p : Phase) : PadsClear (u.goto p) := { h with }

theorem PadsClear.pushBit (h : PadsClear u) (b : Bool) : PadsClear (u.pushBit b) where
  buf i hi := by
    have hroom : i < 8 - (u.work.bitcnt + 1) := hi
    rw [State_pushBit_work, getLsbD_setBit _ _ (by omega), if_neg (by omega)]
    exact h.buf i (by omega)
  taken := h.taken

theorem PadsClear.clearBitBuf (h : PadsClear u) : PadsClear u.clearBitBuf := ⟨fun _ _ => BitVec.getLsbD_zero, h.taken⟩

/-- `Flush` and `PutBit` make a byte whose padding is the part of the buffer that is not filled (R184). -/
theorem PadsClear.bufByte (h : PadsClear u) : PadClear u.bufByte := fun i hi => h.buf i <| by
  rw [State.bufByte, BitVec.toNat_ofNat] at hi
  exact hi.trans_le (Nat.mod_le _ _)

theorem recordTaken_headD {α : Type} (x : Taken α) (g : List (List (Taken α))) :
    (recordTaken x g).headD [] = g.headD [] ++ [x] := by cases g <;> rfl

theorem PadsClear.writeBout {t : SinkTok ByteTok} {a : Answer} (h : PadsClear s) (hw : s.writeBout t = some (a, u))
    (ht : ∀ b, t = .data b → PadClear b) : PadsClear u := by
  obtain ⟨hwork, hgot⟩ := writeBout_got hw
  refine ⟨by rw [hwork]; exact h.buf, ?_⟩
  rw [hgot, recordTaken_headD, List.forall_mem_append, List.forall_mem_singleton]
  exact ⟨h.taken, ht⟩

theorem EncodeMove.padsClear (hm : EncodeMove s u) (h : PadsClear s) : PadsClear u := by
  have hbyte : ∀ b, SinkTok.data s.bufByte = .data b → PadClear b := by rintro _ ⟨⟩; exact h.bufByte
  cases hm with
  | start => exact h.goto _
  | push => exact (h.pushBit _).goto _
  | read _ _ hr =>
    obtain ⟨ts, -, rfl⟩ := State_readCin_eq_some hr
    exact { h with }
  | byteTaken _ hw => exact (h.writeBout hw hbyte).clearBitBuf
  | byteFailed _ hw => exact (h.writeBout hw hbyte).goto _
  | endTaken _ _ hw | endFailed _ _ hw | aborted _ hw => exact (h.writeBout hw nofun).goto _

theorem PlainEnd.padsClear (he : PlainEnd s u) (h : PadsClear s) : PadsClear u := by
  cases he <;> exact ⟨fun _ _ => BitVec.getLsbD_zero, h.taken⟩

theorem exec_encode_padsClear (h : PadsClear s) (hexec : exec .encode s = .next u) : PadsClear u := by
  obtain ⟨n, hn⟩ := streaming_encode.run s
  cases hn.symm.trans hexec
  exact runMicro_of_goes (fun _ => id)
    (fun v hv => (encodeStep_moves v).imp (fun _ hm => hm.padsClear hv) fun _ he => he.padsClear hv) _ s h

/-- The bytes of a stream that ENCODE wrote have clear padding. -/
theorem PadsClear.of_got {bs : List ByteTok} {last : SinkTok ByteTok} (h : PadsClear u)
    (hgot : u.env.bout.got = takenOk (bs.map .data ++ [last]) :: g0) : ∀ b ∈ bs, PadClear b := fun b hb =>
  h.taken ⟨.data b, .ok⟩ (by rw [hgot, List.headD_cons, takenOk]; simp [hb]) b rfl

/-! ### `Flush`, then `end` (R180, R184) -/

/-- ENCODE, begun in `s`, has read `end` and flushed its buffer: the bytes at the sink carry all its bits, and only the last of them
has padding. `g0` are the sink's earlier streams. -/
structure FlushedAt (s : State) (g0 : List (List (Taken ByteTok))) (out : List Bool) (u : State) : Prop where
  kept : Kept .encode s u
  phase : u.work.phase = .encodeEnd
  empty : u.work.bitcnt = 0
  takes : SinkTakesAll u.env.bout
  put : ∃ bs : List ByteTok, u.env.bout.got = takenOk (bs.map .data) :: g0 ∧ streamBits bs = out ∧ ∀ b ∈ bs.dropLast, b.p = 0#3

/-- ENCODE reads `end` and writes what is left in the buffer, if anything is. -/
theorem EncodeAt.readEnd (h : EncodeAt s g0 [.endTok] [] out u) (hc : u.work.bitcnt ≠ 8) :
    ∃ v, exec .encode u = exec .encode v ∧ FlushedAt s g0 out v := by
  obtain ⟨bs, w, hgot, hbs, hbuf, hout⟩ := h.put
  have hread := exec_encode_of_move (h.readToken hc)
  have hkept := (h.kept.withCinAvail (.inr rfl) []).goto .encodeEnd
  by_cases hw : w = []
  · subst hw
    rw [List.append_nil] at hout
    exact ⟨_, hread, hkept, rfl, hbuf.count, h.takes, bs, hgot, hout, fun b hb => hbs b (List.mem_of_mem_dropLast hb)⟩
  · have hne : u.work.bitcnt ≠ 0 := by rwa [hbuf.count, Ne, List.length_eq_zero_iff]
    obtain ⟨p, hp, htakes, hpgot⟩ := SinkPort_write_takesAll h.takes (.data u.bufByte)
    refine ⟨_, hread.trans (exec_encode_of_move (.byteTaken (.inr ⟨rfl, hne⟩) (State_writeBout_of_write hp))),
      (hkept.withBout p).clearBitBuf, rfl, rfl, htakes, bs ++ [u.bufByte], ?_, ?_, ?_⟩
    · rw [List.map_append, List.map_singleton, ← recordTaken_takenOk, ← hgot]
      exact hpgot
    · rw [streamBits_append, streamBits, streamBits, List.flatMap_singleton, hbuf.tokenBits_bufByte hw]
      exact hout
    · rwa [List.dropLast_concat]

/-- `end` is taken, and the command completes. -/
theorem FlushedAt.completes (h : FlushedAt s g0 out u) :
    ∃ (bs : List ByteTok) (p : SinkPort ByteTok), streamBits bs = out ∧ (∀ b ∈ bs.dropLast, b.p = 0#3) ∧
      p.got = takenOk (bs.map .data ++ [.endTok]) :: g0 ∧ SinkTakesAll p ∧
      exec .encode u = .next ((u.withBout p).goto .finish).complete := by
  obtain ⟨bs, hgot, hbits, hpad⟩ := h.put
  obtain ⟨p, hp, htakes, hpgot⟩ := SinkPort_write_takesAll h.takes .endTok
  refine ⟨bs, p, hbits, hpad, by rw [hpgot, hgot, recordTaken_takenOk], htakes, ?_⟩
  exact (exec_encode_of_move (.endTaken h.phase h.empty (State_writeBout_of_write hp))).trans (streaming_encode.exec_of_done rfl)

/-- The state after ENCODE has completed: besides the flags, only the ports it uses have changed. -/
theorem Kept.complete_encode (h : Kept .encode (s.accepted .encode) u) : u.complete = { s with
    status := s.status.afterDone false
    work := { s.work.idle with op := 0x04#8 }
    env := { s.env.closed with cin := ⟨false, [], s.env.cin.upcoming.tail⟩, bout := u.env.bout } } := by
  have hstatus : u.status.completed = s.status.afterDone false := by
    simp [Status.completed, Status.afterDone, h.err, h.rej, h.trunc nofun]
  have hwork : u.work.idle = { s.work.idle with op := 0x04#8 } := by simp [Work.idle, h.op, extractLsb'_encode, encodeOpcode]
  have henv : u.env.closed = { s.env.closed with cin := ⟨false, [], s.env.cin.upcoming.tail⟩, bout := u.env.bout } := by
    simp [Env.closed, SourcePort.closed, h.cinUpcoming, h.binUpcoming, h.cout nofun, Env.opened]
  rw [State.complete, hstatus, hwork, henv, h.regs, h.tab.eq_of_streaming nofun nofun nofun, h.script, h.reads, h.draws]
  rfl

end Sys2Proof.Machine

open Sys2Proof Sys2Proof.Machine

/-- Settles O52: the codes are put one after the other, `end` flushes the buffer; and no step ever sets a bit of the buffer beyond those
that are put, so the padding is 0. -/
theorem encodeWritesThePackedCodes : Obligations.EncodeWritesThePackedCodes := by
  intro s xs later hs ht hcodes
  obtain ⟨u0, hexec0, h0⟩ := encodeAt_accepted s ht
  rw [hs, List.headD_cons, streamOf] at h0
  obtain ⟨u1, hexec1, h1, hc⟩ := h0.readAll hcodes
  obtain ⟨u2, hexec2, h2⟩ := h1.readEnd hc
  obtain ⟨bs, p, hbits, hpad, hgot, htakes, hexec3⟩ := h2.completes
  have hexec := hexec0.trans (hexec1.trans (hexec2.trans hexec3))
  have hclear := (exec_encode_padsClear (padsClear_accepted s) hexec).of_got hgot
  refine ⟨bs, p, ⟨hbits, hpad, hclear⟩, hgot, htakes, ?_⟩
  rw [hexec, ((h2.kept.withBout p).goto .finish).complete_encode, hs]
  rfl

/-- Settles O53: the codes before it are put as in a run that completes; the symbol without a code takes ENCODE to its `abort`. -/
theorem encodeFaultsOnMissingCode : Obligations.EncodeFaultsOnMissingCode := by
  intro s xs c rest later hs ht hcodes hc
  rw [streamOf, List.append_assoc, List.singleton_append] at hs
  exact encode_faults (code := .noCode) (info := c.zext) hs ht hcodes (by rw [encodeNext, if_pos hc])

end

section
/-! PROOFS. The ends of DECODE: `end` on `COUT`, with a tree or without one, and a bit that selects an absent child (R200, R202, R207,
R208). -/

namespace Sys2Proof.Machine

open Sys2Proof

variable {s u : State} {g0 : List (List (Taken Symbol))} {ts rest : List (SrcTok ByteTok)} {later : List (List (SrcTok ByteTok))}
  {r cur c : Nat} {ys zs : List Symbol} {bs : List ByteTok}

/-! ### DECODE completes (R202, R208) -/

/-- The state after DECODE has completed: besides the flags, only the ports it uses have changed. -/
theorem Kept.complete_decode (h : Kept .decode (s.accepted .decode) u) (hst : u.status = s.status.accepted) (trunc : Bool) :
    (u.withTruncFlag trunc).complete = { s with
      status := s.status.afterDone trunc
      work := { s.work.idle with op := 0x05#8 }
      env := { s.env.closed with bin := ⟨false, [], s.env.bin.upcoming.tail⟩, cout := u.env.cout } } := by
  have hstatus : (u.status.withTrunc trunc).completed = s.status.afterDone trunc := by rw [hst]; rfl
  have hwork : u.work.idle = { s.work.idle with op := 0x05#8 } := by simp [Work.idle, h.op, extractLsb'_encode, encodeOpcode]
  have henv : u.env.closed =
      { s.env.closed with bin := ⟨false, [], s.env.bin.upcoming.tail⟩, cout := u.env.cout } := by
    simp [Env.closed, SourcePort.closed, h.cinUpcoming, h.binUpcoming, h.bout nofun, Env.opened]
  have hcomplete : (u.withTruncFlag trunc).complete =
      { u with status := (u.status.withTrunc trunc).completed, work := u.work.idle, env := u.env.closed } := rfl
  rw [hcomplete, hstatus, hwork, henv, h.regs, h.tab.eq_of_streaming nofun nofun nofun, h.script, h.reads, h.draws]
  rfl

/-- DECODE with no bit left to take: `end` is taken, and the command completes with this value of `TRUNC`. -/
theorem decode_ends {trunc : Bool} (h : Kept .decode (s.accepted .decode) u) (hst : u.status = s.status.accepted)
    (hp : u.work.phase = .decodeEnd trunc) (ht : SinkTakesAll u.env.cout)
    (hgot : u.env.cout.got = takenOk (ys.map .data) :: s.env.cout.got) :
    ∃ cout : SinkPort Symbol, SinkTakesAll cout ∧ cout.got = takenOk (ys.map .data ++ [.endTok]) :: s.env.cout.got ∧
      exec .decode u = .next { s with
        status := s.status.afterDone trunc
        work := { s.work.idle with op := 0x05#8 }
        env := { s.env.closed with bin := ⟨false, [], s.env.bin.upcoming.tail⟩, cout := cout } } := by
  obtain ⟨p, hw, htakes, hpgot⟩ := SinkPort_write_takesAll ht .endTok
  have hkept := (h.withCout p).goto (.decodeFinish trunc)
  refine ⟨p, htakes, by rw [hpgot, hgot, recordTaken_takenOk], ?_⟩
  exact (exec_decode_of_move (.endTaken hp (State_writeCout_of_write hw))).trans
    ((streaming_decode.exec_of_done rfl).trans (congrArg _ (hkept.complete_decode hst trunc)))

/-- DECODE over bytes whose walk stays in the tree, and then `end` (R208). -/
theorem decode_completes (hroot : s.tab.root = some r) (hs : s.env.bin.upcoming = streamOf bs .endTok :: later)
    (ht : SinkTakesAll s.env.cout) (hw : walk s.tab.node r r (streamBits bs) = (ys, .atNode cur)) :
    ∃ cout : SinkPort Symbol, SinkTakesAll cout ∧ cout.got = takenOk (ys.map .data ++ [.endTok]) :: s.env.cout.got ∧
      exec .decode (s.accepted .decode) = .next { s with
        status := s.status.afterDone (cur != r)
        work := { s.work.idle with op := 0x05#8 }
        env := { s.env.closed with bin := ⟨false, [], later⟩, cout := cout } } := by
  obtain ⟨u0, hexec0, h0⟩ := decodeAt_accepted hroot ht
  rw [hs, List.headD_cons, streamOf] at h0
  obtain ⟨u1, hexec1, h1⟩ := h0.readAll (s := s.accepted .decode) hroot hw
  have hmove := DecodeMove.readEnd h1.phase h1.buf.count (State_readBin_cons h1.avail)
  have htrunc : (u1.work.cur != u1.tab.root) = (cur != r) := by
    rw [h1.cur, h1.tab, State_accepted_tab, hroot]
    rfl
  obtain ⟨p, htakes, hgot, hexec2⟩ := decode_ends (s := s) ((h1.kept.withBinAvail []).goto (.decodeEnd (cur != r)))
    h1.status rfl h1.takes h1.got
  refine ⟨p, htakes, hgot, ?_⟩
  rw [hs, List.tail_cons] at hexec2
  rw [hexec0, hexec1, ← hexec2, ← htrunc]
  exact exec_decode_of_move hmove

/-- DECODE with an absent tree does not look at `BIN` (R202). -/
theorem decode_absent (hroot : s.tab.root = none) (ht : SinkTakesAll s.env.cout) :
    ∃ cout : SinkPort Symbol, cout.got = takenOk [.endTok] :: s.env.cout.got ∧
      exec .decode (s.accepted .decode) = .next { s with
        status := s.status.afterDone false
        work := { s.work.idle with op := 0x05#8 }
        env := { s.env.closed with bin := ⟨false, [], s.env.bin.upcoming.tail⟩, cout := cout } } := by
  obtain ⟨p, -, hgot, hexec⟩ := decode_ends (s := s) (ys := []) ((Kept.refl .decode (s.accepted .decode)).goto (.decodeEnd false))
    rfl rfl ht rfl
  exact ⟨p, hgot, (exec_decode_of_move (s := s.accepted .decode) (.startAbsent rfl hroot)).trans hexec⟩

/-! ### A bit selects an absent child (R207) -/

/-- A walk that leaves the tree does so over its first bits, or stays over these and leaves it over the rest. -/
theorem walk_split_off {node : List Node} {p q : List Bool} (h : walk node r cur (p ++ q) = (zs, .offNode c)) :
    walk node r cur p = (zs, .offNode c) ∨
      ∃ ys m, walk node r cur p = (ys, .atNode m) ∧ ∃ ys', walk node r m q = (ys', .offNode c) ∧ zs = ys ++ ys' := by
  cases hp : walk node r cur p with
  | mk ys e =>
    cases e with
    | offNode m => exact .inl ((walk_append_of_off hp).symm.trans h)
    | atNode m =>
      rw [walk_append hp, Prod.mk.injEq] at h
      exact .inr ⟨ys, m, rfl, (walk node r m q).1, Prod.ext rfl h.2, h.1.symm⟩

/-- DECODE, begun in `s`, before the bit that leaves the tree at node `cur`; `ys` are the symbols written. -/
def LeavesAt (s : State) (g0 : List (List (Taken Symbol))) (cur : Nat) (ys : List Symbol) (u : State) : Prop :=
  ∃ ts b w, DecodeAt s g0 ts (b :: w) cur ys u ∧ childOf (nodeAt s.tab.node cur) b = none

/-- DECODE over the bits in its buffer, when their walk leaves the tree. -/
theorem DecodeAt.walkOff (hroot : s.tab.root = some r) : ∀ {w : List Bool} {cur : Nat} {ys zs : List Symbol} {u : State},
    DecodeAt s g0 ts w cur ys u → walk s.tab.node r cur w = (zs, .offNode c) →
    ∃ v, exec .decode u = exec .decode v ∧ LeavesAt s g0 c (ys ++ zs) v
  | [], _, _, _, _, _, hw => by cases hw
  | b :: w, cur, ys, zs, u, h, hw => by
    rw [walk] at hw
    split at hw
    · next hi =>
      cases hw
      exact ⟨u, rfl, ts, b, w, by rwa [List.append_nil], hi⟩
    · next i hi =>
      split at hw
      · next hl =>
        obtain ⟨u1, hexec1, h1⟩ := h.leaf hroot hi hl
        obtain ⟨hzs, hend⟩ := Prod.mk.inj hw
        obtain ⟨v, hexec2, h2⟩ := DecodeAt.walkOff hroot h1 (Prod.ext rfl hend)
        refine ⟨v, hexec1.trans hexec2, ?_⟩
        rwa [List.append_assoc, List.singleton_append, hzs] at h2
      · next hl =>
        obtain ⟨u1, hexec1, h1⟩ := h.inner hi (by simpa using hl)
        obtain ⟨v, hexec2, h2⟩ := DecodeAt.walkOff hroot h1 hw
        exact ⟨v, hexec1.trans hexec2, h2⟩

/-- DECODE over bytes whose walk leaves the tree, whatever follows them. -/
theorem DecodeAt.readOff (hroot : s.tab.root = some r) : ∀ {bs : List ByteTok} {cur : Nat} {ys zs : List Symbol} {u : State},
    DecodeAt s g0 (bs.map .data ++ ts) [] cur ys u → walk s.tab.node r cur (streamBits bs) = (zs, .offNode c) →
    ∃ v, exec .decode u = exec .decode v ∧ LeavesAt s g0 c (ys ++ zs) v
  | [], _, _, _, _, _, hw => by cases hw
  | b :: bs, cur, ys, zs, u, h, hw => by
    obtain ⟨u1, hexec1, h1⟩ := h.readByte
    rcases walk_split_off (p := tokenBits b) (q := streamBits bs) hw with hw | ⟨ys1, m, hw1, ys2, hw2, rfl⟩
    · obtain ⟨v, hexec2, h2⟩ := h1.walkOff hroot hw
      exact ⟨v, hexec1.trans hexec2, h2⟩
    · obtain ⟨u2, hexec2, h2⟩ := h1.walkAll hroot hw1
      obtain ⟨v, hexec3, h3⟩ := DecodeAt.readOff hroot h2 hw2
      exact ⟨v, hexec1.trans (hexec2.trans hexec3), by rwa [List.append_assoc] at h3⟩

/-- The bit that leaves the tree takes DECODE to its fault (R207, R256). -/
theorem LeavesAt.faults (h : LeavesAt (s.accepted .decode) s.env.cout.got cur ys u) :
    ∃ cout : SinkPort Symbol, SinkTakesAll cout ∧ cout.got = takenOk (ys.map .data ++ [.abortTok]) :: s.env.cout.got ∧
      exec .decode u = .next { s with
        status := s.status.afterFault
        regs := { s.regs with errcode := 4#8, errinfo := BitVec.ofNat 32 cur }
        work := { s.work.idle with op := 0x05#8 }
        env := { s.env.closed with bin := ⟨false, [], s.env.bin.upcoming.tail⟩, cout := cout } } := by
  obtain ⟨ts, b, w, h, hchild⟩ := h
  have hmove := DecodeMove.walkOff h.phase h.bitcnt_ne_zero (h.nextNode.trans hchild)
  rw [h.cur] at hmove
  obtain ⟨p, hgot, htakes, hexec⟩ :=
    exec_decode_abort (u := u.shiftBit.goto (.abort .walkOff (nodeRef (some cur)))) rfl h.takes
  have hkept := ((h.kept.shiftBit.goto (.abort .walkOff (nodeRef (some cur)))).withCout p).goto
    (.record .walkOff (nodeRef (some cur)))
  refine ⟨p, htakes, ?_, ?_⟩
  · rw [← recordTaken_takenOk, ← h.got]
    exact hgot
  · exact (exec_decode_of_move hmove).trans (hexec.trans (congrArg _ (hkept.takeFault_decode h.status _ _)))

/-- DECODE over bytes whose walk leaves the tree (R207). -/
theorem decode_walksOff (hroot : s.tab.root = some r) (hs : s.env.bin.upcoming = (bs.map .data ++ rest) :: later)
    (ht : SinkTakesAll s.env.cout) (hw : walk s.tab.node r r (streamBits bs) = (ys, .offNode cur)) :
    ∃ cout : SinkPort Symbol, SinkTakesAll cout ∧ cout.got = takenOk (ys.map .data ++ [.abortTok]) :: s.env.cout.got ∧
      exec .decode (s.accepted .decode) = .next { s with
        status := s.status.afterFault
        regs := { s.regs with errcode := 4#8, errinfo := BitVec.ofNat 32 cur }
        work := { s.work.idle with op := 0x05#8 }
        env := { s.env.closed with bin := ⟨false, [], later⟩, cout := cout } } := by
  obtain ⟨u0, hexec0, h0⟩ := decodeAt_accepted hroot ht
  rw [hs, List.headD_cons] at h0
  obtain ⟨u1, hexec1, h1⟩ := h0.readOff (s := s.accepted .decode) hroot hw
  obtain ⟨p, htakes, hgot, hexec2⟩ := h1.faults
  rw [hs, List.tail_cons] at hexec2
  exact ⟨p, htakes, hgot, hexec0.trans (hexec1.trans hexec2)⟩

end Sys2Proof.Machine

open Sys2Proof Sys2Proof.Machine

/-- Settles O54: the walk of all the bits says which of the two ends there is; DECODE takes the bits as the walk does. -/
theorem decodeWalksTheTree : Obligations.DecodeWalksTheTree := by
  intro s r bs rest later hroot hs ht
  cases hw : walk s.tab.node r r (streamBits bs) with
  | mk ys e =>
    cases e with
    | offNode cur =>
      obtain ⟨cout, htakes, hgot, hexec⟩ := decode_walksOff hroot hs ht hw
      refine ⟨cout, htakes, nofun, ?_⟩
      rintro _ _ ⟨⟩
      exact ⟨hgot, hexec⟩
    | atNode cur =>
      by_cases hrest : rest = [.endTok]
      · subst hrest
        obtain ⟨cout, htakes, hgot, hexec⟩ := decode_completes hroot hs ht hw
        refine ⟨cout, htakes, ?_, nofun⟩
        rintro _ _ - ⟨⟩
        exact ⟨hgot, hexec⟩
      · exact ⟨s.env.cout, ht, fun _ _ hend => absurd hend hrest, nofun⟩

/-- Settles O55: without a tree the first step already leads to the write of `end`. -/
theorem decodeWithAbsentTree : Obligations.DecodeWithAbsentTree := fun _ hroot ht => decode_absent hroot ht

end

section
/-! PROOFS. The walk in a tree that satisfies R40: where it can leave the tree, and what it makes of a path to a leaf (R205 to R207,
R209). -/

namespace Sys2Proof.Machine

open Sys2Proof

variable {t : Tables} {r c i : Nat} {b : Bool} {bits : List Bool}

/-! ### Where a walk leaves the tree (R207, R209) -/

/-- An internal node lacks a child only in a one-symbol tree, whose synthetic root, node 1, has no left one (R40 (f), R150). -/
theorem TreeOk.childOf_inner_eq_none (ht : TreeOk t) (hi : i < t.nnodes) (hk : leafCount t ≤ i)
    (hb : childOf (nodeAt t.node i) b = none) : leafCount t = 1 ∧ b = false ∧ i = 1 := by
  rcases ht.sizes with ⟨h0, -⟩ | ⟨h2, h1⟩ | ⟨h2, -⟩
  · omega
  · obtain rfl : i = 1 := by omega
    cases b with
    | false => exact ⟨h1, rfl, rfl⟩
    | true => exact absurd ((ht.single h1).2.symm.trans hb) nofun
  · obtain ⟨hleft, hright⟩ := ht.inner h2 i hi hk
    cases b with
    | false => exact absurd (hb ▸ hleft : (none : Option Nat).isSome = true) nofun
    | true => exact absurd (hb ▸ hright : (none : Option Nat).isSome = true) nofun

/-- The root is no leaf (R169). -/
theorem TreeOk.leafCount_le_root (ht : TreeOk t) (hr : t.root = some r) : leafCount t ≤ r := by
  by_contra hlt
  exact ht.leaf_path_ne_nil hr (Nat.not_le.1 hlt) .root rfl

/-- A walk over internal nodes leaves the tree only at node 1 of a one-symbol tree, on a 0 bit. -/
theorem TreeOk.of_walk_offNode (ht : TreeOk t) (hr : t.root = some r) : ∀ {bits : List Bool} {cur : Nat} {ys : List Symbol},
    cur < t.nnodes → leafCount t ≤ cur → walk t.node r cur bits = (ys, .offNode c) → leafCount t = 1 ∧ false ∈ bits ∧ c = 1
  | [], _, _, _, _, hw => by cases hw
  | b :: bits, cur, ys, hcur, hk, hw => by
    rw [walk] at hw
    split at hw
    · next hb =>
      cases hw
      obtain ⟨h1, rfl, rfl⟩ := ht.childOf_inner_eq_none hcur hk hb
      exact ⟨h1, List.mem_cons_self, rfl⟩
    · next i hi =>
      have hlt := (ht.childBelow cur hcur b i hi).trans hcur
      split at hw
      · obtain ⟨-, hend⟩ := Prod.mk.inj hw
        obtain ⟨h1, hmem, hc⟩ := ht.of_walk_offNode hr (ht.root_lt hr) (ht.leafCount_le_root hr) (Prod.ext rfl hend)
        exact ⟨h1, List.mem_cons_of_mem b hmem, hc⟩
      · next hl =>
        obtain ⟨h1, hmem, hc⟩ := ht.of_walk_offNode hr hlt (Nat.not_lt.1 (mt ht.leaf_iff.2 hl)) hw
        exact ⟨h1, List.mem_cons_of_mem b hmem, hc⟩

/-! ### One-symbol trees (R151) -/

theorem TreeOk.root_of_single (ht : TreeOk t) (h1 : leafCount t = 1) (hr : t.root = some r) : r = 1 := by
  obtain ⟨hpos, hroot⟩ := ht.root_eq hr
  rcases ht.sizes with ⟨h0, -⟩ | ⟨h2, -⟩ | ⟨h2, -⟩ <;> omega

/-- A 1 bit gives the symbol, and the cursor is back at the root. -/
theorem TreeOk.walk_single_one (ht : TreeOk t) (h1 : leafCount t = 1) (hr : t.root = some r) :
    walk t.node r r [true] = ([(nodeAt t.node 0).sym], .atNode r) := by
  obtain rfl := ht.root_of_single h1 hr
  have hchild : childOf (nodeAt t.node 1) true = some 0 := (ht.single h1).2
  have hleaf : (nodeAt t.node 0).leaf = true := ht.leaf_iff.2 (by omega)
  simp only [walk, hchild, hleaf, if_pos]

theorem TreeOk.walk_single_replicate (ht : TreeOk t) (h1 : leafCount t = 1) (hr : t.root = some r) (m : Nat) :
    walk t.node r r (List.replicate m true) = (List.replicate m (nodeAt t.node 0).sym, .atNode r) := by
  induction m with
  | zero => rfl
  | succ m ih => rw [List.replicate_succ, ← List.singleton_append, walk_append (ht.walk_single_one h1 hr), ih]; rfl

/-- The first 0 bit leaves the tree. -/
theorem TreeOk.walk_single_of_false_mem (ht : TreeOk t) (h1 : leafCount t = 1) (hr : t.root = some r) (h : false ∈ bits) :
    ∃ ys, walk t.node r r bits = (ys, .offNode r) := by
  induction bits with
  | nil => exact absurd h List.not_mem_nil
  | cons b bits ih =>
    cases b with
    | false =>
      have hchild : childOf (nodeAt t.node r) false = none := ht.root_of_single h1 hr ▸ (ht.single h1).1
      exact ⟨[], by simp only [walk, hchild]⟩
    | true =>
      obtain ⟨ys, hw⟩ := ih (by simpa using h)
      exact ⟨_, by rw [← List.singleton_append, walk_append (ht.walk_single_one h1 hr), hw]⟩

/-! ### Paths to leaves and derived codes (R205, R211) -/

/-- A path to a leaf gives its symbol, and the cursor is back at the root. -/
theorem TreeOk.walk_leafPath (ht : TreeOk t) (hi : i < leafCount t) : ∀ {p : List Bool} {cur : Nat},
    PathTo t.node cur i p → p ≠ [] → walk t.node r cur p = ([(nodeAt t.node i).sym], .atNode r)
  | b :: p, cur, hp, _ => by
    obtain ⟨c, hc, hp⟩ := pathTo_cons_iff.1 hp
    rw [walk, hc]
    cases p with
    | nil =>
      obtain rfl := pathTo_nil_iff.1 hp
      exact if_pos (ht.leaf_iff.2 hi)
    | cons b' p =>
      have hl : ¬ (nodeAt t.node c).leaf = true := fun hl => absurd (ht.pathTo_of_leaf (ht.leaf_iff.1 hl) hp) nofun
      exact (if_neg hl).trans (ht.walk_leafPath hi hp nofun)

/-- The code of a symbol, if it has one, is the path to its leaf (R165, R166). -/
theorem TreeOk.walk_code (ht : TreeOk t) (hr : t.root = some r) (hnone : codeLenFault Config.maxlen t = none) {x : Symbol}
    (hx : (t.withCodes.codeAt x).len ≠ 0) : walk t.node r r (t.withCodes.codeAt x).path = ([x], .atNode r) := by
  obtain ⟨i, hi, rfl⟩ := ht.codeAt_withCodes_len_pos_iff.1 (Nat.pos_of_ne_zero hx)
  obtain ⟨r', p, hr', hp, hcode⟩ := ht.exists_leaf_code hi
  cases hr.symm.trans hr'
  rw [hcode, path_ofPath (ht.codeLenFault_eq_none_iff.1 hnone r i p hr hi hp)]
  exact ht.walk_leafPath hi hp (ht.leaf_path_ne_nil hr hi hp)

/-- The codes of a symbol sequence give the sequence. -/
theorem TreeOk.walk_codesOf (ht : TreeOk t) (hr : t.root = some r) (hnone : codeLenFault Config.maxlen t = none) :
    ∀ {xs : List Symbol}, (∀ x ∈ xs, (t.withCodes.codeAt x).len ≠ 0) →
      walk t.node r r (codesOf t.withCodes xs) = (xs, .atNode r)
  | [], _ => rfl
  | x :: xs, hxs => by
    obtain ⟨hx, hxs⟩ := List.forall_mem_cons.1 hxs
    have hcons : codesOf t.withCodes (x :: xs) = (t.withCodes.codeAt x).path ++ codesOf t.withCodes xs := List.flatMap_cons
    rw [hcons, walk_append (ht.walk_code hr hnone hx), ht.walk_codesOf hr hnone hxs]
    rfl

end Sys2Proof.Machine

open Sys2Proof Sys2Proof.Machine

/-- Settles O56: an internal node lacks a child only if it is the synthetic root, and then the left one. -/
theorem walkOffOnlyInOneSymbolTrees : Obligations.WalkOffOnlyInOneSymbolTrees := by
  intro t r bits ht hr
  have hoff : ∀ ys cur, walk t.node r r bits = (ys, .offNode cur) → leafCount t = 1 ∧ false ∈ bits ∧ cur = 1 :=
    fun ys cur => ht.of_walk_offNode hr (ht.root_lt hr) (ht.leafCount_le_root hr)
  refine ⟨⟨?_, ?_⟩, fun ys cur hw => (hoff ys cur hw).2.2, fun h1 => ht.walk_single_replicate h1 hr⟩
  · rintro ⟨ys, cur, hw⟩
    obtain ⟨h1, hmem, -⟩ := hoff ys cur hw
    exact ⟨h1, hmem⟩
  · rintro ⟨h1, hmem⟩
    obtain ⟨ys, hw⟩ := ht.walk_single_of_false_mem h1 hr hmem
    exact ⟨ys, r, hw⟩

/-- Settles O58: each code is the path to its symbol's leaf, and the walk is back at the root after every leaf. -/
theorem walkingTheCodesGivesTheSymbols : Obligations.WalkingTheCodesGivesTheSymbols := by
  intro t r xs ht hr hcodes hnone hxs
  rw [hcodes] at hxs
  rw [congrArg (codesOf · xs) hcodes]
  exact ht.walk_codesOf hr hnone hxs

end

section
/-! PROOFS. The round trip: COUNT makes frequencies that BUILD accepts, every symbol of the input gets a leaf and a code, and DECODE walks
the codes back (R211). -/

namespace Sys2Proof.Machine

open Sys2Proof

variable {t : Tables} {xs : List Symbol} {bs : List ByteTok}

/-! ### The frequencies of a list of symbols (R133, R142) -/

theorem sum_range_count_eq_length {n : Nat} {l : List Nat} (h : ∀ a ∈ l, a < n) :
    ((List.range n).map fun i => l.count i).sum = l.length := by
  rw [← List.sum_toFinset _ List.nodup_range, List.toFinset_range]
  simpa only [Multiset.coe_count, Multiset.coe_card] using
    Multiset.sum_count_eq_card (m := ↑l) fun a ha => Finset.mem_range.2 (h a ha)

/-- Every symbol of the list is counted at one index of the table. -/
theorem CountsOf.totalFreq_eq_length (h : CountsOf xs t.freq) : totalFreq t = xs.length := by
  have hread : ∀ i ∈ List.range Config.nsym, (Memory.read 0#32 t.freq i).toNat = (xs.map BitVec.toNat).count i := fun i hi => by
    have hi : (BitVec.ofNat Config.symw i).toNat = i := Nat.mod_eq_of_lt (List.mem_range.1 hi)
    rw [← hi, h.read, List.count_map_of_injective xs BitVec.toNat fun _ _ => BitVec.eq_of_toNat_eq]
  rw [totalFreq, List.map_congr_left hread, sum_range_count_eq_length, List.length_map]
  exact List.forall_mem_map.2 fun x _ => x.isLt

/-- The counts of at most `CNTMAX` symbols are valid frequencies. -/
theorem CountsOf.freqValid (h : CountsOf xs t.freq) (hle : xs.length ≤ Config.cntmax) : FreqValid t := by
  constructor
  · intro c
    have hread : (t.freqAt c).toNat = xs.count c := h.read c
    have hcount : xs.count c ≤ xs.length := List.count_le_length
    refine BitVec.msb_eq_false_iff_two_mul_lt.2 ?_
    have hmax : Config.cntmax = 2 ^ 31 - 1 := rfl
    omega
  · exact h.totalFreq_eq_length.trans_le hle

/-! ### BUILD on these frequencies -/

/-- BUILD looks at no table but `FREQ`, so its validation passes whatever the code table holds (R142). -/
theorem CountsOf.valid (h : CountsOf xs t.freq) (hle : xs.length ≤ Config.cntmax) :
    negativeEntry t.freq = none ∧ freqSum t.freq ≤ Config.cntmax :=
  valid_of_freqValid (t := t.emptyCode) ⟨h.wf, Memory_wf_nil _⟩ (h.freqValid (t := t.emptyCode) hle)

theorem CountsOf.treeOk (h : CountsOf xs t.freq) (hle : xs.length ≤ Config.cntmax) : TreeOk t.withTree :=
  TreeOk_withTree (t := t.emptyCode) ⟨h.wf, Memory_wf_nil _⟩ (h.valid hle).1 (h.valid hle).2

theorem CountsOf.isKey (h : CountsOf xs t.freq) (hle : xs.length ≤ Config.cntmax) {x : Symbol} (hx : x ∈ xs) : IsKey t x := by
  have hread : (t.freqAt x).toNat = xs.count x := h.read x
  rw [IsKey, BitVec.toInt_eq_toNat_of_msb ((h.freqValid hle).1 x), hread]
  exact_mod_cast List.count_pos_iff.2 hx

/-- Every key has a leaf in BUILD's tree (R143). -/
theorem exists_leaf_of_isKey (hm : MemOk t) (hneg : negativeEntry t.freq = none) {x : Symbol} (hx : IsKey t x) :
    ∃ i < leafCount t.withTree, (nodeAt t.withTree.node i).sym = x := by
  have hmem : t.keyLeaf x ∈ leavesOf t.freq :=
    leavesOf_eq_map_keyLeaf hm ▸ List.mem_map_of_mem ((mem_keysOf_iff hm hneg x).2 hx)
  obtain ⟨i, hi, hget⟩ := List.getElem_of_mem hmem
  have hnode := List.prefix_iff_getElem?.1 (leavesOf_prefix_buildTree hm.1 hneg) i hi
  refine ⟨i, leafCount_withTree hm hneg ▸ hi, ?_⟩
  rw [Tables_withTree_node, nodeAt, List.getD_eq_getElem?_getD, hnode, hget]
  rfl

/-- Every symbol that was counted has a code in the table derived from BUILD's tree. -/
theorem CountsOf.code_len_ne_zero (h : CountsOf xs t.freq) (hle : xs.length ≤ Config.cntmax) :
    ∀ x ∈ xs, (t.withTree.withCodes.codeAt x).len ≠ 0 := fun _ hx =>
  have hleaf := exists_leaf_of_isKey (t := t.emptyCode) ⟨h.wf, Memory_wf_nil _⟩ (h.valid hle).1 (h.isKey hle hx)
  ((h.treeOk hle).codeAt_withCodes_len_pos_iff.2 hleaf).ne'

theorem CountsOf.exec_build {s : State} (h : CountsOf xs s.tab.freq) (hle : xs.length ≤ Config.cntmax) :
    exec .build (s.accepted .build) = .next (s.accepted .build).build := by
  obtain ⟨hneg, hsum⟩ := h.valid hle
  rcases execBuild_cases (s.accepted .build) with ⟨sym, hs, -⟩ | ⟨-, hs, -⟩ | ⟨-, -, he⟩
  · exact absurd (hneg.symm.trans hs) nofun
  · exact absurd hsum (not_le.2 hs)
  · exact he

/-! ### DECODE on the codes -/

/-- DECODE of bytes that carry the derived codes of some symbols gives the symbols back; without a tree there are no symbols. -/
theorem decode_codes {s : State} {later : List (List (SrcTok ByteTok))} (ht : TreeOk t) (htab : s.tab = t.withCodes)
    (hnone : codeLenFault Config.maxlen t = none) (hcodes : ∀ x ∈ xs, (t.withCodes.codeAt x).len ≠ 0)
    (hbits : streamBits bs = codesOf t.withCodes xs) (hs : s.env.bin.upcoming = streamOf bs .endTok :: later)
    (htakes : SinkTakesAll s.env.cout) :
    ∃ u, exec .decode (s.accepted .decode) = .next u ∧ u.env.cout.got = takenOk (xs.map .data ++ [.endTok]) :: s.env.cout.got ∧
      u.status = s.status.afterDone false := by
  cases hr : t.root with
  | none =>
    obtain rfl : xs = [] := List.eq_nil_iff_forall_not_mem.2 fun x hx => by
      obtain ⟨i, hi, -⟩ := ht.codeAt_withCodes_len_pos_iff.1 (Nat.pos_of_ne_zero (hcodes x hx))
      obtain ⟨r, hroot⟩ := ht.root_isSome hi
      exact absurd (hr.symm.trans hroot) nofun
    obtain ⟨cout, hgot, hexec⟩ := decode_absent (s := s) (htab ▸ hr) htakes
    exact ⟨_, hexec, hgot, rfl⟩
  | some r =>
    have hw : walk s.tab.node r r (streamBits bs) = (xs, .atNode r) := by
      rw [htab, hbits]
      exact ht.walk_codesOf hr hnone hcodes
    obtain ⟨cout, -, hgot, hexec⟩ := decode_completes (htab ▸ hr) hs htakes hw
    rw [bne_self_eq_false] at hexec
    exact ⟨_, hexec, hgot, rfl⟩

/-- DERIVE, ENCODE and DECODE in a state whose tree has a leaf for every symbol of `xs`. -/
theorem derive_encode_decode {s : State} {later : List (List (SrcTok Symbol))} (ht : TreeOk s.tab)
    (hnone : codeLenFault Config.maxlen s.tab = none) (hcodes : ∀ x ∈ xs, (s.tab.withCodes.codeAt x).len ≠ 0)
    (hcin : s.env.cin.upcoming = streamOf xs .endTok :: later) (hbout : SinkTakesAll s.env.bout)
    (hcout : SinkTakesAll s.env.cout) :
    ∃ (s3 s4 : State) (bs : List ByteTok),
      exec .derive (s.accepted .derive) = .next s3 ∧ exec .encode (s3.accepted .encode) = .next s4 ∧
      s3.status.done = true ∧ s4.status.done = true ∧
      s4.env.bout.got = takenOk (bs.map .data ++ [.endTok]) :: s.env.bout.got ∧
      ∀ laterB, ∃ s5,
        exec .decode ({ s4 with env := { s4.env with
          bin := { s4.env.bin with upcoming := streamOf bs .endTok :: laterB } } }.accepted .decode) = .next s5 ∧
        s5.env.cout.got = takenOk (xs.map .data ++ [.endTok]) :: s.env.cout.got ∧
        s5.status = s.status.afterDone false := by
  have hderive := exec_derive_of_none (s := s.accepted .derive) hnone
  obtain ⟨bs, bout, ⟨hbits, -⟩, hgot, -, hencode⟩ :=
    encodeWritesThePackedCodes ((s.accepted .derive).withTab s.tab.withCodes).complete xs later hcin hbout hcodes
  exact ⟨_, _, bs, hderive, hencode, rfl, rfl, hgot, fun _ => decode_codes ht rfl hnone hcodes hbits rfl hcout⟩

end Sys2Proof.Machine

open Sys2Proof Sys2Proof.Machine

/-- Settles O59: each symbol that COUNT counts gets a leaf from BUILD and the path to it as its code from DERIVE, and DECODE walks the
codes that ENCODE packs. -/
theorem pipelineRoundTrip : Obligations.PipelineRoundTrip := by
  intro s xs later herr hle hcin hbout hcout
  obtain ⟨freq, hcounts, hcount⟩ := count_completes hcin hle
  have ht := CountsOf.treeOk (t := { s.tab with freq := freq }) hcounts hle
  have hcodes := CountsOf.code_len_ne_zero (t := { s.tab with freq := freq }) hcounts hle
  refine ⟨_, _, hcount, CountsOf.exec_build hcounts hle, rfl, rfl, fun hnone => ?_⟩
  obtain ⟨s3, s4, bs, hderive, hencode, hdone3, hdone4, hgot, hdecode⟩ := derive_encode_decode ht hnone hcodes rfl hbout hcout
  refine ⟨s3, s4, bs, hderive, hencode, hdone3, hdone4, hgot, fun laterB => ?_⟩
  obtain ⟨s5, hexec, hout, hstatus⟩ := hdecode laterB
  refine ⟨s5, hexec, hout, ?_⟩
  rw [hstatus]
  exact ⟨rfl, herr, rfl⟩

end

section
/-! PROOFS. The core's run of a command ends or is held by a port, and what NOP and CLEAR leave (R224, R225, R235). -/

namespace Sys2Proof.Machine

open Sys2Proof

variable {i : Instr} {f : State → Micro} {s : State}

/-- The run of `i` from `s` ends the command, or stops where a port holds it: run again from there, it changes nothing. -/
def EndsOrWaits (i : Instr) (s : State) : Prop := ∃ t, exec i s = .next t ∧ (t.status.busy = false ∨ exec i t = .next t)

/-- A streaming command that is given more steps than a measure that every step lowers does not stop between two steps. -/
theorem Streaming.endsOrWaits (hi : Streaming i f) {m fuel : State → Nat} (hrun : exec i s = .next (runMicro f (fuel s) s))
    (hm : ∀ s u, f s = .more u → m u < m s) (hfuel : m s < fuel s) : EndsOrWaits i s := by
  have hrests : Rests f (runMicro f (fuel s) s) :=
    runMicro_rests m (fun _ => True) (fun _ _ _ _ => trivial) (fun _ _ _ => hm _ _) (fun _ _ _ h => (hi.ended h).1) _ _
      trivial hfuel
  exact ⟨_, hrun, hrests.imp_right hi.exec_of_hold⟩

theorem endsOrWaits_of_ends (h : ∀ t, exec i s = .next t → t.status.busy = false) : EndsOrWaits i s := by
  obtain ⟨t, ht⟩ := exec_next i s
  exact ⟨t, ht, .inl (h t ht)⟩

/-! ### NOP and CLEAR -/

/-- Between commands no stream is open, so there is nothing to close (R72). -/
theorem SourcePort_closed_of_quiet {α : Type} {p : SourcePort α} (h : p.isOpen = false ∧ p.avail = []) : p.closed = p := by
  obtain ⟨isOpen, avail, upcoming⟩ := p
  obtain ⟨rfl, rfl⟩ := h
  rfl

theorem QuietOk.env_closed (h : QuietOk s) (hb : s.status.busy = false) : s.env.closed = s.env := by
  rw [Env.closed, SourcePort_closed_of_quiet (h.cin hb), SourcePort_closed_of_quiet (h.bin hb)]

/-- The acceptance of a command without a port, and its completion at once, change `OP`, `DONE` and `TRUNC` only (R220, R222). -/
theorem QuietOk.complete_accepted (h : QuietOk s) (hb : s.status.busy = false) (hi : s.env.opened i = s.env) :
    (s.accepted i).complete = { s with
      status := { s.status with done := true, trunc := false }
      work := { s.work with op := encodeOpcode i } } := by
  have hstatus : { s.status with done := true, trunc := false } = (⟨false, true, s.status.err, s.status.rej, false⟩ : Status) :=
    hb ▸ rfl
  calc (s.accepted i).complete
    _ = { s with
          status := ⟨false, true, s.status.err, s.status.rej, false⟩
          work := { s.work.idle with op := (encode i).extractLsb' 0 8 }
          env := (s.env.opened i).closed } := rfl
    _ = _ := by rw [hstatus, hi, h.env_closed hb, extractLsb'_encode, ← h.work hb]

end Sys2Proof.Machine

open Sys2Proof Sys2Proof.Machine

/-- Settles O35: the steps given to a streaming command are more than its measure, and the other commands end in every run. -/
theorem commandsEndOrWait : Obligations.CommandsEndOrWait := by
  intro i s
  cases i with
  | nop | clear => exact endsOrWaits_of_ends fun t h => by cases h; rfl
  | build => exact endsOrWaits_of_ends fun t h => (execBuild_ends h).1
  | derive => exact endsOrWaits_of_ends fun t h => (execDerive_ends h).1
  | count => exact streaming_count.endsOrWaits rfl (fun _ _ h => (countStep_eq_more.1 h).measure) (countMeasure_lt_fuel s)
  | encode => exact streaming_encode.endsOrWaits rfl (fun _ _ h => (encodeStep_eq_more.1 h).measure) (encodeMeasure_lt_fuel s)
  | decode => exact streaming_decode.endsOrWaits rfl (fun _ _ h => (decodeStep_eq_more.1 h).measure) (decodeMeasure_lt_fuel s)

/-- Settles O40: NOP is the acceptance and the completion. -/
theorem nopCompletes : Obligations.NopCompletes := fun _ hquiet hb => congrArg _ (hquiet.complete_accepted hb rfl)

/-- Settles O41: CLEAR is the acceptance and the completion, with the tables emptied and the fault record cleared between. -/
theorem clearEmptiesTheTables : Obligations.ClearEmptiesTheTables := by
  intro s hquiet hb
  have hclear : exec .clear (s.accepted .clear) = .next { (s.accepted .clear).complete with
      status := ⟨false, true, false, s.status.rej, false⟩
      regs := { s.regs with errcode := 0#8, errinfo := 0#32 }
      tab := Tables.reset } := rfl
  rw [hclear, hquiet.complete_accepted hb rfl]
  rfl

end

section
/-! PROOFS. What a host operation does at each offset: the command word, `STATUS`, `INTEN` and the index registers, `FREQ_DATA`, and a
read (R220, R226 to R230). -/

namespace Sys2Proof.Machine

open Sys2Proof

variable {s : State}

/-! ### The command word (R220) -/

theorem presentCommand_of_rejected {w : Word} (h : s.status.busy = true ∨ s.status.err = true ∧ w ≠ encode .clear) :
    s.presentCommand w = s.reject := if_pos (by simpa using h)

theorem presentCommand_encode {i : Instr} (hb : s.status.busy = false) (hi : s.status.err = false ∨ i = .clear) :
    s.presentCommand (encode i) = s.accepted i := by
  have hnot : ¬ (s.status.busy || (s.status.err && encode i != encode .clear)) = true := by
    rcases hi with hi | rfl <;> simp [*]
  rw [State.presentCommand, if_neg hnot, decodeWord_eq_ok.2 rfl]
  rfl

/-- The ports a command opens at its acceptance, port by port (R72). -/
theorem Env_opened_eq (e : Env) (i : Instr) : e.opened i =
    ⟨if i = .count ∨ i = .encode then e.cin.opened else e.cin, if i = .decode then e.bin.opened else e.bin,
      if i = .encode then e.bout.opened else e.bout, if i = .decode then e.cout.opened else e.cout⟩ := by cases i <;> rfl

/-! ### `STATUS`, `INTEN` and the index registers (R227, R230) -/

theorem Status_hostWritten_eq (f : Status) (v : Word) : f.hostWritten v =
    { f with done := if v.getLsbD 1 then false else f.done, rej := if v.getLsbD 3 then false else f.rej } := by
  have hclear : ∀ a b : Bool, (a && !b) = if b then false else a := by decide
  rw [Status.hostWritten, hclear, hclear]

/-- The registers that hold what the host writes to them (R28, R32, R34, R36). -/
def controlRegs : List Reg := [.inten, .freqIdx, .nodeIdx, .codeIdx, .codeWsel]

theorem writeReg_control_frame (s : State) (v : Word) : ∀ r ∈ controlRegs,
    (s.writeReg r v).status = s.status ∧ (s.writeReg r v).tab = s.tab ∧ (s.writeReg r v).work = s.work ∧
      (s.writeReg r v).env = s.env ∧ (s.writeReg r v).regs.errcode = s.regs.errcode ∧
      (s.writeReg r v).regs.errinfo = s.regs.errinfo := by simp [controlRegs, State.writeReg]

theorem readReg_writeReg_control_ne (s : State) (v : Word) : ∀ r ∈ controlRegs, ∀ q ∈ controlRegs, q ≠ r →
    readReg q (s.writeReg r v) = readReg q s := by simp [controlRegs, State.writeReg, readReg]

/-! ### `FREQ_DATA` (R228) -/

theorem writeFreqData_of_busy (h : s.status.busy = true) (v : Word) : s.writeFreqData v = s.reject := if_pos h

theorem writeFreqData_of_idle (h : s.status.busy = false) (v : Word) :
    s.writeFreqData v = s.withTab (s.tab.setFreq s.regs.freqIdx v) := by rw [State.writeFreqData, if_neg (by simp [h])]; rfl

/-! ### A read (R226) -/

/-- A host read that the interface can express returns the register at its offset. -/
theorem step_hostRead {es : List Event} {off : Nat} (hwf : offsetWf off = true) (h : s.script = .host (.read off) :: es) :
    step s = .next (State.hostRead { s with script := es } off) :=
  (step_of_cons h).trans (hostMove_of_wf (op := .read off) hwf _)

/-- The offsets of the ten registers of R82. -/
def freeOffsets : List Nat := [0x18, 0x1C, 0x20, 0x2C, 0x34, 0x38, 0x3C, 0x40, 0x4C, 0x50]

theorem freeWhileBusy_regAt_iff {off : Nat} : freeWhileBusy (regAt off) = true ↔ off ∈ freeOffsets := by
  constructor
  · intro h
    have hoff : off = (regAt off).offset := offset_of_regAt fun hr => by simp [hr, freeWhileBusy] at h
    rw [hoff]
    cases hr : regAt off <;> simp [hr, freeWhileBusy] at h <;> decide
  · revert off
    simp [freeOffsets, regAt, freeWhileBusy]

theorem readIsFree_regAt_iff {off : Nat} : s.readIsFree (regAt off) = true ↔
    s.status.busy = true ∧ off ∈ freeOffsets := by
  rw [State.readIsFree, Bool.and_eq_true, freeWhileBusy_regAt_iff]

theorem hostRead_eq (s : State) (off : Nat) : s.hostRead off = if s.readIsFree (regAt off) = true then
      { s with reads := ⟨off, Config.freeRead s.draws⟩ :: s.reads, draws := s.draws + 1 }
    else { s with reads := ⟨off, readReg (regAt off) s⟩ :: s.reads } := by
  unfold State.hostRead State.readValue
  split <;> rfl

end Sys2Proof.Machine

open Sys2Proof Sys2Proof.Machine

/-- Settles O5: the rejection is tested before anything else. -/
theorem rejectedCommandOnlySetsRej : Obligations.RejectedCommandOnlySetsRej := by
  intro s es w hs hrej
  rw [step_hostWrite rfl hs]
  exact congrArg _ (presentCommand_of_rejected (s := { s with script := es }) hrej)

/-- Settles O7: an encoded command is accepted, which opens the ports of `Env_opened_eq`. -/
theorem legalCommandWordIsAccepted : Obligations.LegalCommandWordIsAccepted := by
  intro s es i hs hb hi
  have haccept := presentCommand_encode (s := { s with script := es }) hb hi
  rw [step_hostWrite rfl hs]
  refine congrArg _ (haccept.trans ?_)
  rw [State.accepted, State.accept, Env_opened_eq]
  rfl

/-- Settles O8: the write is `Status.hostWritten`. -/
theorem statusWriteClearsDoneAndRej : Obligations.StatusWriteClearsDoneAndRej := by
  intro s es v hs
  rw [step_hostWrite rfl hs, ← Status_hostWritten_eq]
  rfl

/-- Settles O10: each of the five registers has its own field, which a write to it sets and a read of it returns. -/
theorem indexRegistersReadBack : Obligations.IndexRegistersReadBack := by
  intro s es v
  have hmask : ∀ n ≤ 32, v.setWidth n = v.extractLsb' 0 n := fun n hn => BitVec.setWidth_eq_extractLsb' hn
  rw [← hmask 2 (by decide), ← hmask 16 (by decide)]
  refine ⟨step_hostWrite rfl, step_hostWrite rfl, step_hostWrite rfl, step_hostWrite rfl, step_hostWrite rfl,
    rfl, rfl, rfl, rfl, rfl, fun r hr => ?_⟩
  obtain ⟨hstatus, htab, hwork, henv, herrcode, herrinfo⟩ := writeReg_control_frame s v r hr
  exact ⟨hstatus, htab, hwork, henv, herrcode, herrinfo, readReg_writeReg_control_ne s v r hr⟩

/-- Settles O13: the read is free for the offsets of `readIsFree_regAt_iff`; the registers are read off one by one. -/
theorem hostReadHasNoSideEffect : Obligations.HostReadHasNoSideEffect := by
  intro s es off hwf hs
  refine ⟨?_, ?_, fun h => by rw [regAt_reserved (.inr h)]; rfl⟩
  · rw [step_hostRead hwf hs, hostRead_eq]
    simp only [readIsFree_regAt_iff]
    rfl
  · rintro e he rfl
    clear hwf hs
    revert e
    simp only [List.forall_mem_cons]
    refine ⟨rfl, rfl, rfl, BitVec.setWidth_eq_append (v := 8) (w := 32) (by decide), rfl,
      BitVec.setWidth_eq_append (v := 2) (w := 32) (by decide), ?_, rfl, rfl, rfl,
      BitVec.setWidth_eq_append (v := 16) (w := 32) (by decide), rfl, rfl, rfl, rfl, rfl, rfl,
      BitVec.setWidth_eq_append (v := 16) (w := 32) (by decide), rfl, rfl, rfl, nofun⟩
    show nodeRef s.tab.root = _
    cases s.tab.root <;> rfl

/-- Settles O14: a write while `BUSY = 0` is one to the canonical memory. -/
theorem freqDataWindow : Obligations.FreqDataWindow := by
  intro s es v hs
  rw [step_hostWrite rfl hs]
  refine ⟨fun hb => congrArg _ (writeFreqData_of_busy (s := { s with script := es }) hb v), fun hb hm => ?_⟩
  refine ⟨(s.tab.setFreq s.regs.freqIdx v).freq, congrArg _ (writeFreqData_of_idle (s := { s with script := es }) hb v),
    (MemOk_setFreq hm _ _).1, fun c => ?_⟩
  rw [Tables_setFreq_freq, Memory_read_write hm.1]
  simp only [BitVec.toNat_inj]
  rfl

end

section
/-! PROOFS. Steps never stop, the fault record in the fault state, an illegal command word, and the interrupt output (R49, R62, R252,
R255, R257, R270, R273). -/

namespace Sys2Proof.Machine

open Sys2Proof

variable {s t : State}

/-! ### A step answers (R252, R253) -/

theorem OpOk.coreMove_next (h : OpOk s) : ∃ t, coreMove s = .next t := by
  cases hb : s.status.busy with
  | true =>
    obtain ⟨i, hi⟩ := h hb
    rw [coreMove_of_running hb hi]
    exact exec_next i s
  | false => exact ⟨s, coreMove_of_idle hb⟩

theorem OpOk.coreStepMove_next (h : OpOk s) : ∃ t, coreStepMove s = .next t := by
  cases hb : s.status.busy with
  | true =>
    obtain ⟨i, hi⟩ := h hb
    rw [coreStepMove_of_running hb hi]
    exact coreStep_next i s
  | false => exact ⟨s, coreStepMove_of_idle hb⟩

theorem OpOk.eventMove_next (h : OpOk s) {e : Event} (he : ∀ op, e = .host op → op.wf = true) :
    ∃ t, eventMove e s = .next t := by
  cases e with
  | core => exact h.coreMove_next
  | coreStep => exact h.coreStepMove_next
  | host op => exact ⟨_, hostMove_of_wf (he op rfl) s⟩
  | wait | reset | env => exact ⟨_, rfl⟩

/-! ### The fault record (R26, R27, R255) -/

/-- `ERR` and the fault record are as they were. -/
structure RecordKept (s t : State) : Prop where
  err : t.status.err = s.status.err
  code : t.regs.errcode = s.regs.errcode
  info : t.regs.errinfo = s.regs.errinfo

theorem ProtocolKept.recordKept (h : ProtocolKept s t) : RecordKept s t := ⟨h.err, h.errcode, h.errinfo⟩

theorem Kept.recordKept {i : Instr} (h : Kept i s t) : RecordKept s t := ⟨h.err, by rw [h.regs], by rw [h.regs]⟩

/-- The host can make the block record a fault only while it is idle and not in the fault state (R220, R221). -/
theorem hostOp_recordKept (h : s.status.busy = true ∨ s.status.err = true) (op : HostOp) : RecordKept s (s.hostOp op) := by
  cases op with
  | read off => exact (hostRead_protocolKept s off).recordKept
  | write off v =>
    rw [State.hostOp]
    by_cases hr : regAt off = .cmd
    · rw [hr, State.writeReg]
      rcases presentCommand_cases s v with ⟨-, he⟩ | ⟨hb, herr, -⟩ | ⟨i, -, -, -, he⟩
      · exact he ▸ (reject_protocolKept s).recordKept
      · simp [hb, herr] at h
      · exact he ▸ ⟨rfl, rfl, rfl⟩
    · exact (writeReg_protocolKept s hr v).recordKept

/-- A command that runs in the fault state is CLEAR: it keeps the record, or leaves the fault state (R220, R225). -/
theorem CommandMove.recordKept_or_err {i : Instr} (h : CommandMove i s t) (hs : FlagsOk s) (hb : s.status.busy = true)
    (hi : s.running = .ok i) (herr : s.status.err = true) : RecordKept s t ∨ t.status.err = false := by
  cases h with
  | runs h => exact .inl h.recordKept
  | completes _ h => exact .inl { h.recordKept with }
  | faults hclear => exact absurd (herr.symm.trans (hs.err_of_running hb hi hclear)) nofun
  | clears => exact .inr rfl

theorem StepMove.recordKept_or_err (h : StepMove s t) (hs : FlagsOk s) (herr : s.status.err = true) :
    RecordKept s t ∨ t.status.err = false := by
  cases h with
  | command hb hi h =>
    have hp : FlagsOk s.popped := { hs with }
    exact (h.recordKept_or_err hp hb hi herr).imp_left fun hk => { hk with }
  | idle => exact .inl ⟨rfl, rfl, rfl⟩
  | host => exact .inl { hostOp_recordKept (s := s.popped) (.inr herr) _ with }
  | wait => exact .inl { (hostWait_protocolKept s.popped _).recordKept with }
  | reset => exact .inr rfl
  | env => exact .inl { (envOp_protocolKept s.popped _).recordKept with }

/-! ### An illegal command word (R103, R257) -/

theorem presentCommand_of_illegal {w : Word} (hb : s.status.busy = false) (herr : s.status.err = false)
    (hw : ∀ i, w ≠ encode i) : s.presentCommand w = s.takeFault .illegalCmd w := by
  rcases presentCommand_cases s w with ⟨hrej, -⟩ | ⟨-, -, h⟩ | ⟨i, -, -, hi, -⟩
  · simp [hb, herr] at hrej
  · exact h
  · exact absurd hi (hw i)

/-- Between commands there is nothing for a fault to clear or to close (R256). -/
theorem QuietOk.takeFault_eq (h : QuietOk s) (hb : s.status.busy = false) (code : FaultCode) (info : Word) :
    s.takeFault code info = { s with
      status := { s.status with err := true, done := false }
      regs := { s.regs with errcode := code.code, errinfo := info } } := by
  have hstatus : s.status.faulted = { s.status with err := true, done := false } := by simp [Status.faulted, hb]
  rw [State.takeFault, hstatus, h.env_closed hb, ← h.work hb]

end Sys2Proof.Machine

open Sys2Proof Sys2Proof.Machine

/-- Settles O26: every agent's move answers, the core's since `OP` holds an opcode while a command runs. -/
theorem noStepStops : Obligations.NoStepStops := by
  intro s hinv hnext
  cases hs : s.script with
  | nil => rw [step_of_nil hs]; exact hinv.op.coreMove_next
  | cons e es =>
    have hop : OpOk { s with script := es } := hinv.op
    rw [step_of_cons hs]
    exact hop.eventMove_next fun op he => hnext op es (he ▸ hs)

/-- Settles O29: in the fault state the host's words record nothing, and the only command that runs is CLEAR. -/
theorem faultsDoNotNest : Obligations.FaultsDoNotNest := by
  intro s t hflags hstep hs ht
  rcases (step_move hstep).recordKept_or_err hflags hs with ⟨-, hcode, hinfo⟩ | hleft
  · exact ⟨hcode, hinfo⟩
  · exact absurd (ht.symm.trans hleft) nofun

/-- Settles O6: the word takes a fault, and in an idle block a fault has nothing to clear. -/
theorem illegalCommandWordFaults : Obligations.IllegalCommandWordFaults := by
  intro s es w hs hb herr hquiet hw
  have hq : QuietOk { s with script := es } := { hquiet with }
  have hfault := presentCommand_of_illegal (s := { s with script := es }) hb herr hw
  rw [step_hostWrite rfl hs]
  exact congrArg _ (hfault.trans (hq.takeFault_eq hb .illegalCmd w))

/-- Settles O17: by `irqOf`, and since `ERR = 1` implies `DONE = 0` (R49). -/
theorem interruptOutputLevel : Obligations.InterruptOutputLevel := by
  intro s
  refine ⟨by simp [State.irq, irqOf], fun hflags ⟨hdone, herr⟩ => ?_⟩
  exact absurd (hdone.symm.trans (hflags.errNotDone herr)) nofun

end

section
/-! PROOFS. Which faults each command can record, over its whole run (R250). -/

namespace Sys2Proof.Machine

open Sys2Proof

variable {i : Instr} {f : State → Micro} {s t u : State}

/-- The faults of a command's row, with the `ERRINFO` of its ports where the code is `STREAM` (R250). -/
inductive RowFault : Instr → FaultCode → Word → Prop
  | countOvf (info : Word) : RowFault .count .countOvf info
  | countCin : RowFault .count .stream portidCin
  | invalidInput (info : Word) : RowFault .build .invalidInput info
  | codeLen (info : Word) : RowFault .derive .codeLen info
  | noCode (info : Word) : RowFault .encode .noCode info
  | encodeCin : RowFault .encode .stream portidCin
  | encodeBout : RowFault .encode .stream portidBout
  | walkOff (info : Word) : RowFault .decode .walkOff info
  | decodeBin : RowFault .decode .stream portidBin
  | decodeCout : RowFault .decode .stream portidCout

/-- A fault that is being raised at this place is one of the command's row. -/
def Phase.RaisesRow (i : Instr) : Phase → Prop
  | .abort code info => RowFault i code info
  | .record code info => RowFault i code info
  | _ => True

/-- The command runs outside the fault state and raises no fault but those of its row. -/
structure RunsClean (i : Instr) (u : State) : Prop where
  err : u.status.err = false
  row : u.work.phase.RaisesRow i

/-- If the command has ended in a fault, the record shows one of its row. -/
def EndsInRow (i : Instr) (t : State) : Prop :=
  t.status.err = true → ∃ code info, RowFault i code info ∧ t.regs.errcode = code.code ∧ t.regs.errinfo = info

theorem endsInRow_of_err {t : State} (h : t.status.err = false) : EndsInRow i t := fun ht => absurd (ht.symm.trans h) nofun

theorem endsInRow_takeFault {code : FaultCode} {info : Word} (h : RowFault i code info) (u : State) :
    EndsInRow i (u.takeFault code info) := fun _ => ⟨code, info, h, rfl, rfl⟩

/-! ### The steps of the streaming commands -/

theorem raisesRow_encodeNext (tab : Tables) (x : SrcTok Symbol) : (encodeNext tab x).RaisesRow .encode := by
  cases x with
  | endTok => trivial
  | failTok => exact .encodeCin
  | data c =>
    rw [encodeNext]
    split
    · exact .noCode _
    · trivial

theorem CountMove.raisesRow (h : CountMove s u) : u.work.phase.RaisesRow .count := by
  cases h with
  | start | symbol | readEnd => trivial
  | overflow => exact .countOvf _
  | readFail => exact .countCin

theorem EncodeMove.raisesRow (h : EncodeMove s u) (hs : s.work.phase.RaisesRow .encode) : u.work.phase.RaisesRow .encode := by
  cases h with
  | start | push | endTaken => trivial
  | read => exact raisesRow_encodeNext _ _
  | byteTaken _ hw => rw [State_clearBitBuf_work, (writeBout_got hw).1]; exact hs
  | byteFailed | endFailed => exact .encodeBout
  | aborted hp => rw [hp] at hs; exact hs

theorem DecodeMove.raisesRow (h : DecodeMove s u) (hs : s.work.phase.RaisesRow .decode) : u.work.phase.RaisesRow .decode := by
  cases h with
  | startAbsent | start | readEnd | walkLeaf | symTaken | endTaken => trivial
  | readByte _ _ hr =>
    obtain ⟨ts, -, rfl⟩ := State_readBin_eq_some hr
    exact hs
  | walkInner => exact hs
  | readFail => exact .decodeBin
  | walkOff => exact .walkOff _
  | symFailed | endFailed => exact .decodeCout
  | aborted hp => rw [hp] at hs; exact hs

theorem PlainEnd.endsInRow (h : PlainEnd s u) (hs : RunsClean i s) : EndsInRow i u := by
  obtain ⟨herr, hrow⟩ := hs
  cases h with
  | completes => exact endsInRow_of_err herr
  | faults hp => rw [hp] at hrow; exact endsInRow_takeFault hrow s

theorem DecodeEnd.endsInRow (h : DecodeEnd s u) (hs : RunsClean i s) : EndsInRow i u := by
  obtain ⟨herr, hrow⟩ := hs
  cases h with
  | completes => exact endsInRow_of_err herr
  | faults hp => rw [hp] at hrow; exact endsInRow_takeFault hrow s

theorem countStep_row (hu : RunsClean .count u) : (countStep u).Goes (RunsClean .count) (EndsInRow .count) :=
  (countStep_moves u).imp (fun _ h => ⟨h.oneTokenMove.1 ▸ hu.err, h.raisesRow⟩) fun _ h => h.endsInRow hu

theorem encodeStep_row (hu : RunsClean .encode u) : (encodeStep u).Goes (RunsClean .encode) (EndsInRow .encode) :=
  (encodeStep_moves u).imp (fun _ h => ⟨h.oneTokenMove.1 ▸ hu.err, h.raisesRow hu.row⟩) fun _ h => h.endsInRow hu

theorem decodeStep_row (hu : RunsClean .decode u) : (decodeStep u).Goes (RunsClean .decode) (EndsInRow .decode) :=
  (decodeStep_moves u).imp (fun _ h => ⟨h.oneTokenMove.1 ▸ hu.err, h.raisesRow hu.row⟩) fun _ h => h.endsInRow hu

/-- A command whose steps keep to its row records a fault of its row, whatever falls between its steps. -/
theorem Streaming.endsInRow (hi : Streaming i f) (hstep : ∀ u, RunsClean i u → (f u).Goes (RunsClean i) (EndsInRow i))
    (h : RunOf i s t) (hs : s.status.err = false) : EndsInRow i t := by
  have henv : ∀ u op, RunsClean i u → RunsClean i (u.envOp op) := fun u op ⟨herr, hrow⟩ =>
    have hk := envOp_protocolKept u op
    ⟨hk.err.trans herr, hk.work ▸ hrow⟩
  have hhost : ∀ u op, u.status.busy = true → RunsClean i u → RunsClean i (u.hostOp op) := fun u op hb ⟨herr, hrow⟩ =>
    ⟨(hostOp_recordKept (.inl hb) op).err.trans herr, (hostOp_of_busy hb op).2.1 ▸ hrow⟩
  rcases hi.runOf ⟨hs, trivial⟩ hstep henv hhost h with ⟨-, hclean⟩ | ⟨-, hend⟩
  · exact endsInRow_of_err hclean.err
  · exact hend

/-! ### The commands that end in their only step -/

/-- A command that ends in its only step is run by steps too: by that one. -/
theorem exists_streaming_of_ends (hcore : ∀ s, coreStep i s = exec i s)
    (hends : ∀ s t, exec i s = .next t → t.status.busy = false ∧ t.env = s.env.closed) :
    ∃ g : State → State, Streaming i (fun s => .done (g s)) ∧ ∀ s, exec i s = .next (g s) := by
  choose g hg using exec_next i
  refine ⟨g, ⟨fun s => (hcore s).trans (hg s), fun s => ⟨0, hg s⟩, nofun, nofun, ?_⟩, hg⟩
  rintro s _ ⟨⟩
  exact hends s _ (hg s)

theorem endsInRow_of_ends (hcore : ∀ s, coreStep i s = exec i s)
    (hends : ∀ s t, exec i s = .next t → t.status.busy = false ∧ t.env = s.env.closed)
    (hexec : ∀ u v, u.status.err = false → exec i u = .next v → EndsInRow i v)
    (h : RunOf i s t) (hs : s.status.err = false) : EndsInRow i t := by
  obtain ⟨g, hi, hg⟩ := exists_streaming_of_ends hcore hends
  exact hi.endsInRow (fun u hu => hexec u _ hu.err (hg u)) h hs

theorem execBuild_endsInRow (hu : s.status.err = false) (h : execBuild s = .next t) : EndsInRow .build t := by
  rcases execBuild_cases s with ⟨sym, -, he⟩ | ⟨-, -, he⟩ | ⟨-, -, he⟩ <;> cases he.symm.trans h
  · exact endsInRow_takeFault (.invalidInput _) _
  · exact endsInRow_takeFault (.invalidInput _) _
  · exact endsInRow_of_err hu

theorem execDerive_endsInRow (hu : s.status.err = false) (h : execDerive s = .next t) : EndsInRow .derive t := by
  rcases execDerive_cases s with ⟨c, -, he⟩ | ⟨-, he⟩ <;> cases he.symm.trans h
  · exact endsInRow_takeFault (.codeLen _) _
  · exact endsInRow_of_err hu

theorem runOf_endsInRow (h : RunOf i s t) (hs : s.status.err = false) : EndsInRow i t := by
  cases i with
  | nop =>
    exact endsInRow_of_ends (fun _ => rfl) (fun _ _ h => by cases h; exact ⟨rfl, rfl⟩)
      (fun _ _ hu h => by cases h; exact endsInRow_of_err hu) h hs
  | clear =>
    exact endsInRow_of_ends (fun _ => rfl) (fun _ _ h => by cases h; exact ⟨rfl, rfl⟩)
      (fun _ _ _ h => by cases h; exact endsInRow_of_err rfl) h hs
  | build => exact endsInRow_of_ends (fun _ => rfl) (fun _ _ => execBuild_ends) (fun _ _ => execBuild_endsInRow) h hs
  | derive => exact endsInRow_of_ends (fun _ => rfl) (fun _ _ => execDerive_ends) (fun _ _ => execDerive_endsInRow) h hs
  | count => exact streaming_count.endsInRow (fun _ => countStep_row) h hs
  | encode => exact streaming_encode.endsInRow (fun _ => encodeStep_row) h hs
  | decode => exact streaming_decode.endsInRow (fun _ => decodeStep_row) h hs

end Sys2Proof.Machine

open Sys2Proof Sys2Proof.Machine

/-- Settles O38: while the command runs its place raises faults of its row only, and its end records what its place raised. -/
theorem faultsOfEachCommand : Obligations.FaultsOfEachCommand := by
  intro i s t h hs ht
  obtain ⟨code, info, hrow, hcode, hinfo⟩ := runOf_endsInRow h hs ht
  rw [hcode, hinfo]
  cases hrow <;> simp [FaultCode.code, portidCin, portidBin, portidBout, portidCout]

end

section
/-! PROOFS. The step that resets the block (R290, R291). -/

open Sys2Proof Sys2Proof.Machine

namespace Sys2Proof.Machine

theorem step_of_reset {s : State} {es : List Event} (h : s.script = .reset :: es) :
    step s = .next { s with script := es }.hardReset := by rw [step_of_cons h, eventMove]

end Sys2Proof.Machine

/-- Settles O20: the step is the hard reset of the machine with the event taken off; its four parts of block state do not depend on the
state before, and closing the sources writes to no sink. -/
theorem resetAbandonsTheCommand : Obligations.ResetAbandonsTheCommand := by
  intro s es h
  refine ⟨_, step_of_reset h, ?status, ?regs, ?tab, ?work, ?endpoints⟩
  case status => exact State_hardReset_status _
  case regs => exact State_hardReset_regs _
  case tab => exact State_hardReset_tab _
  case work => exact State_hardReset_work _
  case endpoints => simp

end
